-- ==== Sys2Proof/Word.lean ====
section
/-! DEFINITION. The word types of the core (00_scope.md R10, R11; 45_arithmetic_laws.md R220). -/

namespace Sys2Proof

/-- A byte: 8 bits, a value in 0..255 (R10). As an element of GF(2^8) its least significant bit is the
constant term (R211). -/
abbrev Byte := BitVec 8

/-- A byte string: a finite sequence of bytes, offset 0 first (R10). -/
abbrev Bytes := List Byte

/-- A 64-bit word of BLAKE2b and of the block compression (R120). -/
abbrev Word64 := BitVec 64

/-- An element of GF(2^128), the big-endian reading of a 16-byte block: the most significant bit is the
constant term (R184). A type apart from `Byte`, as R222 asks: the two fields run in opposite bit orders. -/
abbrev Elem128 := BitVec 128

end Sys2Proof
end

