-- ==== Sys2Proof/Config.lean ====
section
/-! DEFINITION. What the implementation fixes: the hardwired constants of 00_scope.md R7 and R8 and of
10_state.md R24, and the free values, opaque constants without a body. -/

namespace Sys2Proof.Config

/-- `SALT_LEN` (R7). -/
abbrev saltLen : Nat := 16
/-- `KEY_LEN` (R7). -/
abbrev keyLen : Nat := 32
/-- `TAG_LEN` (R7). -/
abbrev tagLen : Nat := 16
/-- `MIN_RAW_LEN` (R7). -/
abbrev minRawLen : Nat := 32
/-- `NONCE`: 12 zero bytes, hardwired (R7, R24). -/
def nonce : Bytes := List.replicate 12 0#8
/-- `AAD`: the empty byte string, hardwired (R24, R181). -/
def aad : Bytes := []

/-- `MAX_PW_LEN` = 2^32 − 1 (R8, R72). -/
abbrev maxPwLen : Nat := 4294967295
/-- `MAX_PT_LEN` = 2^36 − 32 (R8, R72, R192). -/
abbrev maxPtLen : Nat := 68719476704

/-- The size of the address space `KMEM`: 262144 blocks of 1024 bytes (R50). -/
abbrev kmemBytes : Nat := 268435456

/-- The cost profile of the key derivation (R91). The core has exactly one value of it, `kdfProfile`;
the type exists so that the algorithm body can be stated for the parameter sets of
95_test_vectors.md V45 too. -/
structure KdfProfile where
  /-- `KDF_P`, the number of lanes `p` -/
  lanes : Nat
  /-- `KDF_OUT`, the output length `T` in bytes -/
  outLen : Nat
  /-- `KDF_M`, the memory `m` in KiB -/
  memory : Nat
  /-- `KDF_T`, the number of passes `t` -/
  passes : Nat
  /-- `KDF_VERSION`, `v` -/
  version : Nat
  /-- `KDF_TYPE`, `y` -/
  kind : Nat
  deriving DecidableEq, Repr

/-- The hardwired profile: 4 lanes, 32 bytes, 262144 KiB, 8 passes, version 0x13, type 2 (R24, R91). -/
def kdfProfile : KdfProfile :=
  { lanes := 4, outLen := 32, memory := 262144, passes := 8, version := 0x13, kind := 2 }

/-- FREE VALUE. The randomness provider's n-th answer to `Draw(16)`: "a draw: a free 16-byte input of the
`ENCRYPT` step, under no law" (R152, R9 `RNG`, U9; log 1). -/
opaque draw : Nat → Vector Byte 16

/-- FREE VALUE. What the work area physically holds at an address that nothing has written: "any value"
(U4, R36; log 6). -/
opaque kmemResidue : Nat → Byte

end Sys2Proof.Config
end

