-- ==== Sys2Proof/Syntax.lean ====
section
/-! DEFINITION. The operation set (30_encoding.md R70) and the two formats in which an operation is
presented to the core: `CMD` (R71) and `UOP` (R74). -/

namespace Sys2Proof

/-- The eight operations, one constructor per row of spec/opcode_table.json, each with the operands the
spec gives it, passed by value (R71, R153). -/
inductive Instr where
  /-- `ENCRYPT`, host command: password and plaintext (R150) -/
  | encrypt (pw inp : Bytes)
  /-- `DECRYPT`, host command: password and container text (R151) -/
  | decrypt (pw inp : Bytes)
  /-- `SALTGEN`, unit operation without operands (R152) -/
  | saltgen
  /-- `DERIVE`, unit operation: password and 16-byte salt (R90) -/
  | derive (pw salt : Bytes)
  /-- `SEAL`, unit operation: 32-byte key and plaintext (R190) -/
  | aeadSeal (key pt : Bytes)
  /-- `OPEN`, unit operation: 32-byte key and ciphertext with its tag (R191) -/
  | aeadOpen (key ctt : Bytes)
  /-- `B64ENC`, unit operation: any byte string (R161) -/
  | b64enc (raw : Bytes)
  /-- `B64DEC`, unit operation: any byte string (R162) -/
  | b64dec (text : Bytes)
  deriving DecidableEq, Repr

/-- Format `CMD`, the command descriptor: "a triple, not a packed word" (R71). -/
structure Command where
  /-- `MODE`: 0 `ENCRYPT`, 1 `DECRYPT` -/
  mode : BitVec 1
  /-- operand 1, the password -/
  pw : Bytes
  /-- operand 2, the plaintext or the container text -/
  inp : Bytes
  deriving DecidableEq, Repr

/-- Format `UOP`: the 3-bit unit-operation select (R74) with the operands of the call, which a unit
"takes by value" (R153). -/
structure UnitCall where
  /-- `UOP[2:0]` -/
  code : BitVec 3
  /-- the operands in the order of the unit's contract -/
  operands : List Bytes
  deriving DecidableEq, Repr

/-- An operation as it is presented: at the host's command port or at a unit's select lines. -/
inductive Presented where
  | cmd (c : Command)
  | uop (u : UnitCall)
  deriving DecidableEq, Repr

end Sys2Proof
end

