-- ==== Sys2Proof/Decode.lean ====
section
/-! DEFINITION. Decoding and encoding of the operations (30_encoding.md R71, R74, R80, R81). -/

namespace Sys2Proof

/-- Why a presented operation is not decoded. -/
inductive DecodeError where
  /-- `UOP` 0b110 or 0b111: reserved, no meaning (R81, U1) -/
  | reservedUop (code : BitVec 3)
  /-- a unit call with the wrong number of operands (R153: a unit takes exactly its operands) -/
  | operandCount (code : BitVec 3) (found : Nat)
  deriving DecidableEq, Repr

/-- "`MODE = 0` selects `ENCRYPT`, `MODE = 1` selects `DECRYPT`; mask 0b1" (R80). Total: no value of the
bit is illegal (R81), and no operand bit takes part. -/
def decodeCommand (c : Command) : Instr :=
  if c.mode = 0#1 then .encrypt c.pw c.inp else .decrypt c.pw c.inp

/-- The 3-bit table of R74. -/
def decodeUnitCall (u : UnitCall) : Except DecodeError Instr :=
  if u.code = 0b000#3 then
    match u.operands with
    | [] => .ok .saltgen
    | l => .error (.operandCount u.code l.length)
  else if u.code = 0b001#3 then
    match u.operands with
    | [pw, salt] => .ok (.derive pw salt)
    | l => .error (.operandCount u.code l.length)
  else if u.code = 0b010#3 then
    match u.operands with
    | [key, pt] => .ok (.aeadSeal key pt)
    | l => .error (.operandCount u.code l.length)
  else if u.code = 0b011#3 then
    match u.operands with
    | [key, ctt] => .ok (.aeadOpen key ctt)
    | l => .error (.operandCount u.code l.length)
  else if u.code = 0b100#3 then
    match u.operands with
    | [raw] => .ok (.b64enc raw)
    | l => .error (.operandCount u.code l.length)
  else if u.code = 0b101#3 then
    match u.operands with
    | [text] => .ok (.b64dec text)
    | l => .error (.operandCount u.code l.length)
  else .error (.reservedUop u.code)

/-- The decoder: from what stands at the port or at the select lines to an operation, or a named error. -/
def decode : Presented → Except DecodeError Instr
  | .cmd c => .ok (decodeCommand c)
  | .uop u => decodeUnitCall u

/-- The encoder: the descriptor or the unit call of an operation (R71, R74). -/
def encode : Instr → Presented
  | .encrypt pw inp => .cmd { mode := 0#1, pw := pw, inp := inp }
  | .decrypt pw inp => .cmd { mode := 1#1, pw := pw, inp := inp }
  | .saltgen => .uop { code := 0b000#3, operands := [] }
  | .derive pw salt => .uop { code := 0b001#3, operands := [pw, salt] }
  | .aeadSeal key pt => .uop { code := 0b010#3, operands := [key, pt] }
  | .aeadOpen key ctt => .uop { code := 0b011#3, operands := [key, ctt] }
  | .b64enc raw => .uop { code := 0b100#3, operands := [raw] }
  | .b64dec text => .uop { code := 0b101#3, operands := [text] }

/-- The operands of a unit call whose every operand bit is zero: each fixed-length operand is that many
zero bytes, each byte string of free length is empty (log 9). -/
def zeroOperands (code : BitVec 3) : List Bytes :=
  if code = 0b000#3 then []
  else if code = 0b001#3 then [[], List.replicate Config.saltLen 0#8]
  else if code = 0b010#3 then [List.replicate Config.keyLen 0#8, []]
  else if code = 0b011#3 then [List.replicate Config.keyLen 0#8, List.replicate Config.tagLen 0#8]
  else [[]]

/-- What is presented when the opcode bits of a table row are `w` and every operand bit is zero. A row of
one bit is a `CMD`, a row of three bits a `UOP`. Where only whole bytes are told apart (nbits = 8) the two
formats share the words 0 and 1, and the host's format `CMD` is taken for these two (log 9). -/
def presentedOfTableWord (nbits w : Nat) : Option Presented :=
  if w < 2 ∧ nbits ≠ 3 then
    some (.cmd { mode := BitVec.ofNat 1 w, pw := [], inp := [] })
  else if w < 8 ∧ nbits ≠ 1 then
    some (.uop { code := BitVec.ofNat 3 w, operands := zeroOperands (BitVec.ofNat 3 w) })
  else none

/-- The operation the decoder reads from a table row's bits (all operand bits zero). -/
def decodeTableWord (nbits w : Nat) : Option Instr :=
  match presentedOfTableWord nbits w with
  | none => none
  | some p =>
    match decode p with
    | .ok i => some i
    | .error _ => none

end Sys2Proof
end

