-- ==== Sys2Proof/Machine/State.lean ====
section
/-! DEFINITION. The state of the core (10_state.md, 20_memory.md R50) and of what surrounds it (the host,
the randomness provider, the implementation parameters), as plain data. -/

namespace Sys2Proof.Machine

/-- The step register's labels (R26). -/
inductive Label where
  | idle
  | e1 | e2 | e3 | e4 | e5
  | d1 | d2 | d3 | d4 | d5 | d6
  | resp
  deriving DecidableEq, Repr

/-- The outcome of a command (R23, R73). Its 2-bit codes are `statusCode`. -/
inductive Status where
  | ok | formatError | authenticationError | kdfError
  deriving DecidableEq, Repr

/-- The error kinds a `raise` can name (R231). -/
inductive ErrorKind where
  | format | authentication | kdf
  deriving DecidableEq, Repr

/-- The open parameter `B64_TRAILING_BITS` (R9, D10). -/
inductive TrailingBits where
  | reject | ignore
  deriving DecidableEq, Repr

/-- The open parameters of an implementation (R9). No step writes them. -/
structure Params where
  /-- `CAP_IN`, the largest input buffer in bytes -/
  capIn : Nat
  /-- `B64_TRAILING_BITS` -/
  trailing : TrailingBits
  deriving DecidableEq, Repr

/-- The randomness provider, "an injected capability" (R152): a generator about whose answers nothing is
known, or "a deterministic source in tests". A scripted source whose list is used up does not answer
(U6). -/
inductive Provider where
  /-- the next answer is the free value `Config.draw n` -/
  | generator (n : Nat)
  /-- the answers still to be given, next first -/
  | scripted (answers : List (Vector Byte 16))
  deriving DecidableEq, Repr

/-- What the host does next (R241, R263, R240, R260; log 7). -/
inductive HostMove where
  /-- write `CMD` and wait until the response is readable -/
  | issue (c : Command)
  /-- write `CMD` and look again after `steps` numbered steps of the command -/
  | start (c : Command) (steps : Nat)
  /-- wait: the core goes on with the command in progress -/
  | wait
  /-- read `RSP` -/
  | read
  /-- reset the core; while a command is in progress this is the abort of R240 -/
  | reset
  deriving DecidableEq, Repr

/-- Format `RSP` (R73). -/
structure Response where
  status : Status
  out : Bytes
  deriving DecidableEq, Repr

/-- A memory: (address, byte) pairs, addresses strictly rising; an address not listed holds no value. -/
abbrev Memory := List Host.Cell

/-- The transient registers of the codec (R28); `none` is "no value". -/
structure CodecRegs where
  /-- `SALT`, 16 bytes -/
  salt : Option Bytes := none
  /-- `KEY`, 32 bytes -/
  key : Option Bytes := none
  /-- `CTT`, ciphertext ‖ tag -/
  ctt : Option Bytes := none
  /-- `RAW`, the raw container -/
  raw : Option Bytes := none
  /-- `PT`, the recovered plaintext -/
  pt : Option Bytes := none
  /-- `text`, the encoded container between E4 and E5 (R150; log 13) -/
  text : Option Bytes := none
  /-- `B64_OK` (R31) -/
  b64Ok : Option Bool := none
  /-- `LEN_OK` (R31) -/
  lenOk : Option Bool := none
  deriving DecidableEq, Repr

/-- The transient registers of the AEAD engine (R29). -/
structure AeadRegs where
  /-- `RK[0..14]`, fifteen round keys of 16 bytes -/
  rk : Option (List Bytes) := none
  /-- `H`, the hash subkey -/
  h : Option Bytes := none
  /-- `J0`, the pre-counter block -/
  j0 : Option Bytes := none
  /-- `CB`, the current counter block -/
  cb : Option Bytes := none
  /-- `Y`, the GHASH accumulator -/
  y : Option Bytes := none
  /-- `S`, the GHASH output before masking -/
  s : Option Bytes := none
  /-- `T`, the computed tag -/
  t : Option Bytes := none
  /-- `TAG_OK` (R31) -/
  tagOk : Option Bool := none
  /-- the AES state -/
  aes : Option Bytes := none
  deriving DecidableEq, Repr

/-- The transient registers of the KDF unit (R30) and its work area `KMEM` (R50). -/
structure KdfRegs where
  /-- `H0`, 64 bytes -/
  h0 : Option Bytes := none
  /-- `KMEM`, the block memory; block `B[l][j]` lies at `1024 * (65536 * l + j)` (R52) -/
  kmem : Memory := []
  /-- `Z`, 128 words -/
  z : Option (List Word64) := none
  /-- `ADDR`, 128 words -/
  addr : Option (List Word64) := none
  /-- `r`, the pass -/
  pass : Option Nat := none
  /-- `s`, the slice -/
  slice : Option Nat := none
  /-- `l`, the lane -/
  lane : Option Nat := none
  /-- `i`, the index in the segment -/
  index : Option Nat := none
  /-- `C`, 128 words -/
  c : Option (List Word64) := none
  /-- BLAKE2b `h[0..7]` -/
  b2h : Option (List Word64) := none
  /-- BLAKE2b `v[0..15]` -/
  b2v : Option (List Word64) := none
  /-- BLAKE2b `m[0..15]` -/
  b2m : Option (List Word64) := none
  deriving DecidableEq, Repr

/-- The whole machine. -/
structure State where
  /-- the step register (R26) -/
  pc : Label
  /-- `CMD.MODE` (R23) -/
  mode : Option (BitVec 1)
  /-- `CMD.PW`, the space `PW` (R23, R50) -/
  pw : Option Bytes
  /-- `CMD.IN`, the space `IN` (R23, R50) -/
  inp : Option Bytes
  /-- `RSP.STATUS` (R23) -/
  status : Option Status
  /-- `RSP.OUT`, the space `OUT` (R23, R50) -/
  out : Option Bytes
  /-- transient registers of the codec -/
  codec : CodecRegs
  /-- transient registers of the AEAD engine -/
  aead : AeadRegs
  /-- transient registers and work area of the KDF unit -/
  kdf : KdfRegs
  /-- a unit call standing at the select lines (R74; log 10) -/
  uop : Option UnitCall
  /-- the implementation's parameters (R9) -/
  par : Params
  /-- the randomness provider (R152) -/
  rng : Provider
  /-- the host's moves still to be made (R20) -/
  host : List HostMove
  /-- the responses the host has read, latest first -/
  received : List Response
  deriving DecidableEq, Repr

/-- The transient registers and the work area, by name, for `Fault.noValue`. -/
inductive RegName where
  | pw | inp | status | out | salt | key | ctt | raw | pt | text
  deriving DecidableEq, Repr

/-- Why the machine stops. -/
inductive Fault where
  /-- A rule's step reads a register that holds no value. Raised by the sequencer's steps and by the host's
  read of the response. No rule reads such a register (R13, R27) and none is read in a state that a run
  from reset reaches. Safe: the model stops where the spec says nothing. -/
  | noValue (r : RegName)
  deriving DecidableEq, Repr

/-- Why an operation is given no meaning (R16: "refused"). -/
inductive Refusal where
  /-- An operation whose meaning is not modelled, by mnemonic. Raised by no arm of this model. Safe. -/
  | notModelled (mnemonic : String)
  /-- A command issued while the core is not idle (R263, U7). Raised by the two commands. Safe. -/
  | busy
  /-- A response read while none is ready (R263, U7). Raised by the host's read. Safe. -/
  | responseNotReady
  /-- `len(PW) > MAX_PW_LEN` (R72). Raised by the two commands and by `DERIVE`. Safe. -/
  | passwordTooLong
  /-- `len(IN) > CAP_IN` (R72, R238). Raised by the two commands. Safe. -/
  | overCapacity
  /-- A plaintext, or the ciphertext of a container, above `MAX_PT_LEN` (R72). Raised by the two commands,
  `SEAL` and `OPEN`. Safe. -/
  | dataTooLong
  /-- A unit operation called with an operand of a length outside its contract (R90, R180, R191). Raised
  by `DERIVE`, `SEAL` and `OPEN`. Safe. -/
  | operandShape
  /-- A reserved `UOP` code (R81, U1). Raised by `step`. Safe. -/
  | reservedUop (code : BitVec 3)
  /-- A unit call with the wrong number of operands (R153). Raised by `step`. Safe. -/
  | operandCount (code : BitVec 3) (found : Nat)
  deriving DecidableEq, Repr

/-- `CAP_IN` at reset: the length of the longest container text the other limits leave, so that the
parameter shuts nothing out (DESIGN CHOICE, log 2). -/
abbrev resetCapIn : Nat := 91625968984

/-- The machine right after reset (R36, R260): `pc = IDLE`, every port field and every transient register
without value. -/
def State.reset : State :=
  { pc := .idle
    mode := none, pw := none, inp := none, status := none, out := none
    codec := {}, aead := {}, kdf := {}
    uop := none
    par := { capIn := resetCapIn, trailing := .reject }
    rng := .generator 0
    host := []
    received := [] }

end Sys2Proof.Machine
end

