-- ==== Sys2Proof/Machine/Flags.lean ====
section
/-! DEFINITION. The three internal predicates of `DECRYPT`, the only Boolean conditions of the core
(10_state.md R31): no other flag exists. `B64_OK` is the Boolean of `b64dec` (42_codec.md R162). -/

namespace Sys2Proof.Machine

/-- `B64_OK`: the container text is valid base-64 (R31, R162). -/
def b64OkOf (decoded : Option Bytes) : Bool := decoded.isSome

/-- `LEN_OK`: `len(RAW) ≥ 32` (R31, R151 step D2). -/
def lenOkOf (raw : Bytes) : Bool := decide (Config.minRawLen ≤ raw.length)

/-- `TAG_OK`: the computed tag equals the received tag in all 16 bytes (R31, R191). -/
def tagOkOf (computed received : Bytes) : Bool := decide (computed = received)

/-- The 2-bit code of a status (R73). -/
def statusCode : Status → BitVec 2
  | .ok => 0b00#2
  | .formatError => 0b01#2
  | .authenticationError => 0b10#2
  | .kdfError => 0b11#2

/-- The status an error kind reports (R231). -/
def statusOfKind : ErrorKind → Status
  | .format => .formatError
  | .authentication => .authenticationError
  | .kdf => .kdfError

end Sys2Proof.Machine
end

