-- ==== Sys2Proof/Machine/Operands.lean ====
section
/-! DEFINITION. Operand assembly: byte strings, slices and the byte-order conversions of 00_scope.md R10 to
R12, used by every unit (20_memory.md R54). -/

namespace Sys2Proof.Machine

/-- `slice(b, i, n)`: the `n` bytes at offsets `i .. i+n−1` (R10). -/
def slice (b : Bytes) (i n : Nat) : Bytes := (b.drop i).take n

/-- `xor(a, b)`, bytewise, of two byte strings of equal length (R10). -/
def xorBytes (a b : Bytes) : Bytes := List.zipWith (· ^^^ ·) a b

/-- `n` bytes of value 0x00 (R10: `0^n`). -/
def zeroBytes (n : Nat) : Bytes := List.replicate n 0#8

/-- The `n`-byte little-endian string of `v`: `LE32` is `n = 4`, `LE64` is `n = 8` (R12). -/
def leBytes (n v : Nat) : Bytes := (List.range n).map fun k => BitVec.ofNat 8 (v >>> (8 * k))

/-- `bytes_be(v, n)`, most significant byte first: `BE32` is `n = 4`, `BE64` is `n = 8` (R12). -/
def beBytes (n v : Nat) : Bytes := (leBytes n v).reverse

/-- `int_be(b)`: the natural number a byte string denotes when `b[0]` is the most significant byte (R12). -/
def intBe (b : Bytes) : Nat := b.foldl (fun a x => a * 256 + x.toNat) 0

/-- The number a byte string denotes when `b[0]` is the least significant byte (R12). -/
def intLe (b : Bytes) : Nat := b.foldr (fun x a => x.toNat + 256 * a) 0

/-- `le64_at(b, k)`: `slice(b, 8k, 8)` read as a little-endian `u64` (R12). -/
def le64At (b : Bytes) (k : Nat) : Word64 := BitVec.ofNat 64 (intLe (slice b (8 * k) 8))

/-- The first `n` words of a byte string, each little-endian (R52, R120). -/
def wordsOfBytes (n : Nat) (b : Bytes) : List Word64 := (List.range n).map (le64At b)

/-- Words turned back into bytes, each with `LE64` (R120). -/
def bytesOfWords (ws : List Word64) : Bytes := ws.flatMap fun w => leBytes 8 w.toNat

/-- `ceil(a / b)` for `b > 0` (R220). -/
def ceilDiv (a b : Nat) : Nat := (a + b - 1) / b

end Sys2Proof.Machine
end

