-- ==== Sys2Proof/Machine/Aes.lean ====
section
/-! DEFINITION. The AES-256 block function (44_aes256.md): forward cipher and key expansion. The state is
the flat list `s[0..15]` with row `r`, column `c` at `r + 4c` (R210). -/

namespace Sys2Proof.Machine

/-- Byte `k` of a flat state or word. -/
def byteAt (b : Bytes) (k : Nat) : Byte := b.getD k 0#8

/-- Multiplication by `u` in GF(2^8) modulo 0x11B (R211). -/
def xtime (a : Byte) : Byte := if a.msb then (a <<< 1) ^^^ 0x1B#8 else a <<< 1

/-- The first `n` rounds of the loop of `gf8_mul`: `r` collects, `a` is doubled, `b` is halved (R211). -/
def gf8MulLoop : Nat → Byte → Byte → Byte → Byte
  | 0, _, _, r => r
  | n + 1, a, b, r => gf8MulLoop n (xtime a) (b >>> 1) (if b.getLsbD 0 then r ^^^ a else r)

/-- `gf8_mul(a, b)`; eight rounds empty `b` (R211). -/
def gf8Mul (a b : Byte) : Byte := gf8MulLoop 8 a b 0#8

/-- The multiplicative inverse, `a^254 = a^2 • a^4 • a^8 • a^16 • a^32 • a^64 • a^128`; the inverse of 0x00 is
0x00 (R212). -/
def gf8Inv (a : Byte) : Byte :=
  let a2 := gf8Mul a a
  let a4 := gf8Mul a2 a2
  let a8 := gf8Mul a4 a4
  let a16 := gf8Mul a8 a8
  let a32 := gf8Mul a16 a16
  let a64 := gf8Mul a32 a32
  let a128 := gf8Mul a64 a64
  gf8Mul (gf8Mul (gf8Mul a2 a4) (gf8Mul a8 a16)) (gf8Mul (gf8Mul a32 a64) a128)

/-- The S-box by definition (R212), which governs (R213). -/
def sboxRule (a : Byte) : Byte :=
  let b := gf8Inv a
  b ^^^ b.rotateRight 4 ^^^ b.rotateRight 5 ^^^ b.rotateRight 6 ^^^ b.rotateRight 7 ^^^ 0x63#8

/-- The S-box as a table, sixteen rows by the high digit (R213). -/
def sboxTable : List (List Nat) :=
  [[0x63, 0x7c, 0x77, 0x7b, 0xf2, 0x6b, 0x6f, 0xc5, 0x30, 0x01, 0x67, 0x2b, 0xfe, 0xd7, 0xab, 0x76],
   [0xca, 0x82, 0xc9, 0x7d, 0xfa, 0x59, 0x47, 0xf0, 0xad, 0xd4, 0xa2, 0xaf, 0x9c, 0xa4, 0x72, 0xc0],
   [0xb7, 0xfd, 0x93, 0x26, 0x36, 0x3f, 0xf7, 0xcc, 0x34, 0xa5, 0xe5, 0xf1, 0x71, 0xd8, 0x31, 0x15],
   [0x04, 0xc7, 0x23, 0xc3, 0x18, 0x96, 0x05, 0x9a, 0x07, 0x12, 0x80, 0xe2, 0xeb, 0x27, 0xb2, 0x75],
   [0x09, 0x83, 0x2c, 0x1a, 0x1b, 0x6e, 0x5a, 0xa0, 0x52, 0x3b, 0xd6, 0xb3, 0x29, 0xe3, 0x2f, 0x84],
   [0x53, 0xd1, 0x00, 0xed, 0x20, 0xfc, 0xb1, 0x5b, 0x6a, 0xcb, 0xbe, 0x39, 0x4a, 0x4c, 0x58, 0xcf],
   [0xd0, 0xef, 0xaa, 0xfb, 0x43, 0x4d, 0x33, 0x85, 0x45, 0xf9, 0x02, 0x7f, 0x50, 0x3c, 0x9f, 0xa8],
   [0x51, 0xa3, 0x40, 0x8f, 0x92, 0x9d, 0x38, 0xf5, 0xbc, 0xb6, 0xda, 0x21, 0x10, 0xff, 0xf3, 0xd2],
   [0xcd, 0x0c, 0x13, 0xec, 0x5f, 0x97, 0x44, 0x17, 0xc4, 0xa7, 0x7e, 0x3d, 0x64, 0x5d, 0x19, 0x73],
   [0x60, 0x81, 0x4f, 0xdc, 0x22, 0x2a, 0x90, 0x88, 0x46, 0xee, 0xb8, 0x14, 0xde, 0x5e, 0x0b, 0xdb],
   [0xe0, 0x32, 0x3a, 0x0a, 0x49, 0x06, 0x24, 0x5c, 0xc2, 0xd3, 0xac, 0x62, 0x91, 0x95, 0xe4, 0x79],
   [0xe7, 0xc8, 0x37, 0x6d, 0x8d, 0xd5, 0x4e, 0xa9, 0x6c, 0x56, 0xf4, 0xea, 0x65, 0x7a, 0xae, 0x08],
   [0xba, 0x78, 0x25, 0x2e, 0x1c, 0xa6, 0xb4, 0xc6, 0xe8, 0xdd, 0x74, 0x1f, 0x4b, 0xbd, 0x8b, 0x8a],
   [0x70, 0x3e, 0xb5, 0x66, 0x48, 0x03, 0xf6, 0x0e, 0x61, 0x35, 0x57, 0xb9, 0x86, 0xc1, 0x1d, 0x9e],
   [0xe1, 0xf8, 0x98, 0x11, 0x69, 0xd9, 0x8e, 0x94, 0x9b, 0x1e, 0x87, 0xe9, 0xce, 0x55, 0x28, 0xdf],
   [0x8c, 0xa1, 0x89, 0x0d, 0xbf, 0xe6, 0x42, 0x68, 0x41, 0x99, 0x2d, 0x0f, 0xb0, 0x54, 0xbb, 0x16]]

/-- `SBOX[a]`, looked up; `sboxRule` says what it must be (`Sys2Proof.Laws.sbox_eq_rule`). -/
def sbox (a : Byte) : Byte :=
  BitVec.ofNat 8 ((sboxTable.getD (a.toNat / 16) []).getD (a.toNat % 16) 0)

/-! ### Key expansion (R214) -/

/-- `RotWord((a0, a1, a2, a3)) = (a1, a2, a3, a0)`. -/
def rotWord (w : Bytes) : Bytes := w.drop 1 ++ w.take 1

/-- `SubWord`: the S-box on every byte. -/
def subWord (w : Bytes) : Bytes := w.map sbox

/-- `Rcon[j] = u^(j−1)`, in the first byte of the word; `j` is 1 .. 7. -/
def rconWord (j : Nat) : Bytes := [1#8 <<< (j - 1), 0#8, 0#8, 0#8]

/-- The word that is added to `w[i − 8]` to give `w[i]`, from `t = w[i − 1]`. -/
def expandTerm (i : Nat) (t : Bytes) : Bytes :=
  if i % 8 = 0 then xorBytes (subWord (rotWord t)) (rconWord (i / 8))
  else if i % 8 = 4 then subWord t
  else t

/-- One more word at the end of `w[0..i−1]`. -/
def expandWord (w : List Bytes) (i : Nat) : List Bytes :=
  w ++ [xorBytes (w.getD (i - 8) []) (expandTerm i (w.getD (i - 1) []))]

/-- The 60 words of the expanded key. -/
def expandedWords (key : Bytes) : List Bytes :=
  (List.range' 8 52).foldl expandWord ((List.range 8).map fun i => slice key (4 * i) 4)

/-- `KeyExpansion(key)`: `RK[r]` is `w[4r] ‖ w[4r+1] ‖ w[4r+2] ‖ w[4r+3]`, `r` = 0 .. 14. -/
def keyExpansion (key : Bytes) : List Bytes :=
  let w := expandedWords key
  (List.range 15).map fun r => ((w.drop (4 * r)).take 4).flatten

/-! ### The round operations -/

/-- SubBytes (R215). -/
def subBytes (s : Bytes) : Bytes := s.map sbox

/-- ShiftRows (R216): `s'[r + 4c] = s[r + 4((c + r) mod 4)]`. -/
def shiftRows (s : Bytes) : Bytes :=
  (List.range 16).map fun k => byteAt s (k % 4 + 4 * ((k / 4 + k % 4) % 4))

/-- One column of MixColumns (R217). -/
def mixColumn (a0 a1 a2 a3 : Byte) : Bytes :=
  [gf8Mul 2#8 a0 ^^^ gf8Mul 3#8 a1 ^^^ a2 ^^^ a3,
   a0 ^^^ gf8Mul 2#8 a1 ^^^ gf8Mul 3#8 a2 ^^^ a3,
   a0 ^^^ a1 ^^^ gf8Mul 2#8 a2 ^^^ gf8Mul 3#8 a3,
   gf8Mul 3#8 a0 ^^^ a1 ^^^ a2 ^^^ gf8Mul 2#8 a3]

/-- MixColumns (R217): all four columns, each from the old values. -/
def mixColumns (s : Bytes) : Bytes :=
  (List.range 4).flatMap fun c =>
    mixColumn (byteAt s (4 * c)) (byteAt s (4 * c + 1)) (byteAt s (4 * c + 2)) (byteAt s (4 * c + 3))

/-- AddRoundKey (R218): `s[k] xor RK[r][k]` for `k` in 0..15. -/
def addRoundKey (s rk : Bytes) : Bytes := (List.range 16).map fun k => byteAt s k ^^^ byteAt rk k

/-- Round key `r`. -/
def roundKey (rks : List Bytes) (r : Nat) : Bytes := rks.getD r []

/-- One of the rounds 1 .. 13 (R219). -/
def aesRound (rks : List Bytes) (s : Bytes) (r : Nat) : Bytes :=
  addRoundKey (mixColumns (shiftRows (subBytes s))) (roundKey rks r)

/-- `AES256(RK, in)` (R219): the last round has no MixColumns. -/
def aes256 (rks : List Bytes) (input : Bytes) : Bytes :=
  let s := (List.range' 1 13).foldl (aesRound rks) (addRoundKey input (roundKey rks 0))
  addRoundKey (shiftRows (subBytes s)) (roundKey rks 14)

end Sys2Proof.Machine
end

