-- ==== Sys2Proof/Machine/Gcm.lean ====
section
/-! DEFINITION. Galois/Counter Mode (43_aead.md R183 to R189). -/

namespace Sys2Proof.Machine

/-- A block as an element of GF(2^128): `X = int_be(block)` (R184). -/
def elemOfBlock (b : Bytes) : Elem128 := BitVec.ofNat 128 (intBe b)

/-- The block of an element (R184). -/
def blockOfElem (x : Elem128) : Bytes := beBytes 16 x.toNat

/-- `V` times `u`: a shift to the right, reduced by `R = 11100001 ‖ 0^120` (R184). -/
def mulByU (v : Elem128) : Elem128 :=
  if v.getLsbD 0 then (v >>> 1) ^^^ 0xE1000000000000000000000000000000#128 else v >>> 1

/-- One turn of the loop of `gf128_mul`, for bit `x_i = X[127 − i]`, on the pair `(Z, V)` (R184). -/
def gf128Turn (x : Elem128) (zv : Elem128 × Elem128) (i : Nat) : Elem128 × Elem128 :=
  (if x.getLsbD (127 - i) then zv.1 ^^^ zv.2 else zv.1, mulByU zv.2)

/-- The product `X • Y` (R184). -/
def gf128Mul (x y : Elem128) : Elem128 := ((List.range 128).foldl (gf128Turn x) (0#128, y)).1

/-- The first `m` blocks of `GHASH`, from accumulator `y` (R185). -/
def ghashBlocks (h : Elem128) : Nat → Elem128 → Bytes → Elem128
  | 0, y, _ => y
  | m + 1, y, data => ghashBlocks h m (gf128Mul (y ^^^ elemOfBlock (data.take 16)) h) (data.drop 16)

/-- `GHASH(H, data)` for data whose length is a multiple of 16 (R185). -/
def ghash (h data : Bytes) : Bytes :=
  blockOfElem (ghashBlocks (elemOfBlock h) (data.length / 16) 0#128 data)

/-- `inc32(cb)`: the last four bytes are a big-endian counter that wraps (R186). -/
def inc32 (cb : Bytes) : Bytes :=
  slice cb 0 12 ++ beBytes 4 ((intBe (slice cb 12 4) + 1) % 4294967296)

/-- The first `m` pieces of `GCTR` from counter block `cb` (R187). The last piece may be short: it uses the
first bytes of the keystream block. -/
def gctrBlocks (rks : List Bytes) : Nat → Bytes → Bytes → Bytes
  | 0, _, _ => []
  | m + 1, cb, x => xorBytes (x.take 16) (aes256 rks cb) ++ gctrBlocks rks m (inc32 cb) (x.drop 16)

/-- `GCTR(RK, icb, x)` (R187). -/
def gctr (rks : List Bytes) (icb x : Bytes) : Bytes := gctrBlocks rks (ceilDiv x.length 16) icb x

/-- The counter block after `m` pieces. -/
def counterAfter (icb : Bytes) : Nat → Bytes
  | 0 => icb
  | m + 1 => inc32 (counterAfter icb m)

/-- The hash subkey `H = AES256(RK, 0^16)` (R183). -/
def hashSubkey (rks : List Bytes) : Bytes := aes256 rks (zeroBytes 16)

/-- The pre-counter block `J0 = NONCE ‖ 00 00 00 01` (R188). -/
def preCounter : Bytes := Config.nonce ++ [0#8, 0#8, 0#8, 1#8]

/-- The length block `BE64(8 * len(AAD)) ‖ BE64(8 * n)` (R189). -/
def lengthBlock (n : Nat) : Bytes := beBytes 8 (8 * Config.aad.length) ++ beBytes 8 (8 * n)

/-- The zero bytes that fill the last block (R189). -/
def fillBytes (n : Nat) : Bytes := zeroBytes ((16 - n % 16) % 16)

/-- `S` of `TagOf`: the GHASH of the ciphertext and its length (R189). -/
def tagHash (h ct : Bytes) : Bytes :=
  ghash h (Config.aad ++ ct ++ fillBytes ct.length ++ lengthBlock ct.length)

/-- `TagOf(RK, H, J0, ct)` (R189). -/
def tagOf (rks : List Bytes) (h j0 ct : Bytes) : Bytes := gctr rks j0 (tagHash h ct)

end Sys2Proof.Machine
end

