-- ==== Sys2Proof/Machine/Ops.lean ====
section
/-! DEFINITION. The named operations over memory and registers: the work area's byte and block accesses
(20_memory.md R14, R50, R52), taking an error and returning from it (60_exceptions.md R234, R237), reset
(70_reset_and_hazards.md R260), the acceptance of a command and the draw (42_codec.md R152). -/

namespace Sys2Proof.Machine

/-- What a step answers. -/
abbrev Out := Host.Outcome State Fault Refusal

/-! ### Memory -/

/-- One byte of a memory; `none` is "no value". -/
def Memory.read (m : Memory) (a : Nat) : Option Byte :=
  (m.find? fun c => c.1 == a).map (·.2)

/-- The cells of a byte string laid down from an address. -/
def cellsAt : Nat → Bytes → Memory
  | _, [] => []
  | a, b :: bs => (a, b) :: cellsAt (a + 1) bs

/-- `MemWrite`: the bytes `bs` from address `a` on (R14). -/
def Memory.write (m : Memory) (a : Nat) (bs : Bytes) : Memory :=
  m.filter (fun c => decide (c.1 < a)) ++ cellsAt a bs ++
    m.filter (fun c => decide (a + bs.length ≤ c.1))

/-- The canonical form: addresses strictly rising, all inside the space `KMEM`. An unlisted address holds
no value, so no entry can equal what one reads as. -/
abbrev Memory.wf (m : Memory) : Prop :=
  m.Pairwise (fun x y => x.1 < y.1) ∧ ∀ c ∈ m, c.1 < Config.kmemBytes

/-- The byte the KDF unit gets at an address: the value there, or any value where nothing has been written
(U4; log 6). -/
def Memory.fetch (m : Memory) (a : Nat) : Byte := (m.read a).getD (Config.kmemResidue a)

/-- `MemRead`: `n` bytes from address `a` on (R14). -/
def Memory.fetchBytes (m : Memory) (a n : Nat) : Bytes := (List.range n).map fun k => m.fetch (a + k)

/-- Block number `k` of a memory, 128 little-endian words (R52). -/
def readBlock (m : Memory) (k : Nat) : List Word64 := wordsOfBytes 128 (m.fetchBytes (1024 * k) 1024)

/-- Store a block (R52). -/
def writeBlock (m : Memory) (k : Nat) (ws : List Word64) : Memory := m.write (1024 * k) (bytesOfWords ws)

/-! ### Taking an error, and leaving it -/

/-- Every transient register goes to no value (R27). -/
def clearTransients (s : State) : State := { s with codec := {}, aead := {}, kdf := {} }

/-- `raise <Kind>` (R234): every transient register to no value, the status code of the kind, an empty
`OUT`, `pc <- RESP`. Nothing is saved. -/
def raise (k : ErrorKind) (s : State) : State :=
  { clearTransients s with status := some (statusOfKind k), out := some [], pc := .resp }

/-- The last step of a command (E5, D6): `STATUS <- OK`, `OUT` written in one piece, `pc <- RESP` (R150,
R151, R57), and the transient registers again hold no value (R27). -/
def respond (result : Bytes) (s : State) : State :=
  { clearTransients s with status := some .ok, out := some result, pc := .resp }

/-- After the host has read a response: `pc <- IDLE` and exactly the state after reset (R26, R237), what
surrounds the core apart. -/
def returnToIdle (s : State) : State :=
  { clearTransients s with
    pc := .idle, mode := none, pw := none, inp := none, status := none, out := none }

/-- The host reads `RSP` (R23, R263): refused unless a response is ready. -/
def readResponse (s : State) : Out :=
  if s.pc = .resp then
    match s.status, s.out with
    | some st, some o => .next { returnToIdle s with received := { status := st, out := o } :: s.received }
    | none, _ => .fault (.noValue .status)
    | some _, none => .fault (.noValue .out)
  else .refused .responseNotReady

/-- Reset, which is also the abort (R260, R240): the state of R36 from any state. What is not the core
(parameters, provider, host) stays. -/
def resetCore (s : State) : State :=
  { State.reset with par := s.par, rng := s.rng, host := s.host, received := s.received }

/-! ### Starting a command -/

/-- The first step of a command: E1 or D1 by `MODE` (R80). -/
def firstLabel (mode : BitVec 1) : Label := if mode = 0#1 then .e1 else .d1

/-- Issue: the descriptor is sampled once, by value (R64, R61); at the start of a command every transient
register holds no value (R27). -/
def accept (c : Command) (s : State) : State :=
  { clearTransients s with
    pc := firstLabel c.mode, mode := some c.mode, pw := some c.pw, inp := some c.inp
    status := none, out := none }

/-! ### The draw -/

/-- `Draw(16)` (R152): the answer and the provider afterwards; `none` where the provider does not answer
(U6). -/
def drawSalt : Provider → Option (Bytes × Provider)
  | .generator n => some ((Config.draw n).toList, .generator (n + 1))
  | .scripted (d :: ds) => some (d.toList, .scripted ds)
  | .scripted [] => none

/-- Read a register that a rule's step needs. -/
def need {α : Type} (r : RegName) (o : Option α) (k : α → Out) : Out :=
  match o with
  | some x => k x
  | none => .fault (.noValue r)

end Sys2Proof.Machine
end

