-- ==== Sys2Proof/Machine/Aead.lean ====
section
/-! DEFINITION. The AEAD engine: the unit operations `SEAL` and `OPEN` (43_aead.md R180 to R195). -/

namespace Sys2Proof.Machine

/-- The ciphertext of a plaintext, and the plaintext of a ciphertext: data blocks start at counter 2
(R187, R188, R190). -/
def cryptData (key x : Bytes) : Bytes := gctr (keyExpansion key) (inc32 preCounter) x

/-- The tag of a ciphertext under a key (R189). -/
def tagFor (key ct : Bytes) : Bytes :=
  tagOf (keyExpansion key) (hashSubkey (keyExpansion key)) preCounter ct

/-- `SEAL(key, pt)`: ciphertext ‖ tag (R190). -/
def sealBytes (key pt : Bytes) : Bytes := cryptData key pt ++ tagFor key (cryptData key pt)

/-- The ciphertext part of `ctt`: all but the last 16 bytes (R77, R191). -/
def cttData (ctt : Bytes) : Bytes := slice ctt 0 (ctt.length - Config.tagLen)

/-- The tag part of `ctt`: the last 16 bytes (R77, R191). -/
def cttTag (ctt : Bytes) : Bytes := slice ctt (ctt.length - Config.tagLen) Config.tagLen

/-- `TAG_OK` of `OPEN(key, ctt)` (R191). -/
def openOk (key ctt : Bytes) : Bool := tagOkOf (tagFor key (cttData ctt)) (cttTag ctt)

/-- `OPEN(key, ctt)`: the plaintext, or nothing (R191, R195). -/
def openBytes (key ctt : Bytes) : Option Bytes :=
  if openOk key ctt then some (cryptData key (cttData ctt)) else none

/-- The engine's registers once the tag over `ct` has been computed (R183, R185, R188, R189): the counter
block and the AES state are those the last `GCTR`, on `J0`, leaves (log 11). -/
def tagRegs (key ct : Bytes) (a : AeadRegs) : AeadRegs :=
  let rk := keyExpansion key
  { a with
    rk := some rk, h := some (hashSubkey rk), j0 := some preCounter
    cb := some (inc32 preCounter), y := some (tagHash (hashSubkey rk) ct)
    s := some (tagHash (hashSubkey rk) ct), t := some (tagFor key ct), aes := some (aes256 rk preCounter) }

/-- The engine's registers after decrypting `ct` of at least one byte: the last counter block used and one
step on, and the last keystream block (R187; log 11). -/
def dataRegs (key ct : Bytes) (a : AeadRegs) : AeadRegs :=
  if ct = [] then a
  else
    let n := ceilDiv ct.length 16
    { a with
      cb := some (counterAfter (inc32 preCounter) n)
      aes := some (aes256 (keyExpansion key) (counterAfter (inc32 preCounter) (n - 1))) }

/-- The unit operation `SEAL` on the state (R190): `CTT` takes the result. -/
def unitSeal (key pt : Bytes) (s : State) : State :=
  { s with
    codec := { s.codec with ctt := some (sealBytes key pt) }
    aead := tagRegs key (cryptData key pt) s.aead }

/-- The unit operation `OPEN` on the state (R191): `TAG_OK` always, `PT` only when it is true. -/
def unitOpen (key ctt : Bytes) (s : State) : State :=
  let a := { tagRegs key (cttData ctt) s.aead with tagOk := some (openOk key ctt) }
  { s with
    codec := { s.codec with pt := openBytes key ctt }
    aead := if openOk key ctt then dataRegs key (cttData ctt) a else a }

/-- The meaning of `SEAL` (R190). -/
def execSeal (key pt : Bytes) (s : State) : Out :=
  if key.length ≠ Config.keyLen then .refused .operandShape
  else if Config.maxPtLen < pt.length then .refused .dataTooLong
  else .next (unitSeal key pt s)

/-- The meaning of `OPEN` (R191). -/
def execOpen (key ctt : Bytes) (s : State) : Out :=
  if key.length ≠ Config.keyLen ∨ ctt.length < Config.tagLen then .refused .operandShape
  else if Config.maxPtLen < ctt.length - Config.tagLen then .refused .dataTooLong
  else .next (unitOpen key ctt s)

end Sys2Proof.Machine
end

