-- ==== Sys2Proof/Machine/Base64.lean ====
section
/-! DEFINITION. The text coder: base-64 (42_codec.md R160 to R163) and the unit operations `B64ENC` and
`B64DEC`. -/

namespace Sys2Proof.Machine

/-- The digit of a value 0..63, as its ASCII byte (R160). -/
def b64Digit (v : Nat) : Byte :=
  if v < 26 then BitVec.ofNat 8 (0x41 + v)
  else if v < 52 then BitVec.ofNat 8 (0x61 + (v - 26))
  else if v < 62 then BitVec.ofNat 8 (0x30 + (v - 52))
  else if v = 62 then 0x2B#8
  else 0x2F#8

/-- The value of a digit; `none` for a byte that is not one of the 64 digits (R160). -/
def b64Value (b : Byte) : Option Nat :=
  let n := b.toNat
  if 0x41 ≤ n ∧ n ≤ 0x5A then some (n - 0x41)
  else if 0x61 ≤ n ∧ n ≤ 0x7A then some (n - 0x61 + 26)
  else if 0x30 ≤ n ∧ n ≤ 0x39 then some (n - 0x30 + 52)
  else if n = 0x2B then some 62
  else if n = 0x2F then some 63
  else none

/-- The pad character `=` (R160). -/
def b64Pad : Byte := 0x3D#8

/-- The digit of the six bits of `n` from bit `lo` up: `digit(n[lo+5:lo])` (R161). -/
def b64DigitAt (n lo : Nat) : Byte := b64Digit (n / 2 ^ lo % 64)

/-- The byte of the eight bits of `n` from bit `lo` up: `n[lo+7:lo]` (R162). -/
def b64ByteAt (n lo : Nat) : Byte := BitVec.ofNat 8 (n / 2 ^ lo % 256)

/-- `B64ENC(raw)` (R161). -/
def b64enc : Bytes → Bytes
  | b0 :: b1 :: b2 :: rest =>
    let n := b0.toNat * 65536 + b1.toNat * 256 + b2.toNat
    b64DigitAt n 18 :: b64DigitAt n 12 :: b64DigitAt n 6 :: b64DigitAt n 0 :: b64enc rest
  | [b0, b1] =>
    let n := b0.toNat * 65536 + b1.toNat * 256
    [b64DigitAt n 18, b64DigitAt n 12, b64DigitAt n 6, b64Pad]
  | [b0] =>
    let n := b0.toNat * 65536
    [b64DigitAt n 18, b64DigitAt n 12, b64Pad, b64Pad]
  | [] => []

/-- How many pads a text ends in (R162). -/
def b64PadCount (text : Bytes) : Nat :=
  if text.drop (text.length - 2) = [b64Pad, b64Pad] then 2
  else if text.drop (text.length - 1) = [b64Pad] then 1
  else 0

/-- The digit values of the body; `none` if a byte of it is not a digit (R162). -/
def b64Values : Bytes → Option (List Nat)
  | [] => some []
  | b :: bs =>
    match b64Value b, b64Values bs with
    | some v, some vs => some (v :: vs)
    | _, _ => none

/-- Regrouping of the digit values: full groups of four, then the three or two values a padded text leaves,
whose unused low bits must be zero under `reject` (R162). -/
def b64Groups (trailing : TrailingBits) : List Nat → Option Bytes
  | d0 :: d1 :: d2 :: d3 :: rest =>
    let n := d0 * 262144 + d1 * 4096 + d2 * 64 + d3
    match b64Groups trailing rest with
    | some bs => some (b64ByteAt n 16 :: b64ByteAt n 8 :: b64ByteAt n 0 :: bs)
    | none => none
  | [d0, d1, d2] =>
    let n := d0 * 262144 + d1 * 4096 + d2 * 64
    if d2 % 4 ≠ 0 ∧ trailing = .reject then none else some [b64ByteAt n 16, b64ByteAt n 8]
  | [d0, d1] =>
    let n := d0 * 262144 + d1 * 4096
    if d1 % 16 ≠ 0 ∧ trailing = .reject then none else some [b64ByteAt n 16]
  | [_] => none
  | [] => some []

/-- `B64DEC(text)`: the decoded bytes, or nothing where the Boolean of R162 is false. -/
def b64dec (trailing : TrailingBits) (text : Bytes) : Option Bytes :=
  if text.length % 4 ≠ 0 then none
  else
    match b64Values (text.take (text.length - b64PadCount text)) with
    | some vs => b64Groups trailing vs
    | none => none

/-- The unit operation `B64ENC` on the state (R161): the text register takes the result. -/
def unitB64enc (raw : Bytes) (s : State) : State :=
  { s with codec := { s.codec with text := some (b64enc raw) } }

/-- The unit operation `B64DEC` on the state (R162): `B64_OK` always, `RAW` only when it is true. -/
def unitB64dec (text : Bytes) (s : State) : State :=
  { s with
    codec := { s.codec with
      raw := b64dec s.par.trailing text, b64Ok := some (b64OkOf (b64dec s.par.trailing text)) } }

/-- The meaning of `B64ENC` (R161): total. -/
def execB64enc (raw : Bytes) (s : State) : Out := .next (unitB64enc raw s)

/-- The meaning of `B64DEC` (R162): total. -/
def execB64dec (text : Bytes) (s : State) : Out := .next (unitB64dec text s)

end Sys2Proof.Machine
end

