-- ==== Sys2Proof/Machine/Blake2b.lean ====
section
/-! DEFINITION. The primitives of the key derivation (41_kdf_primitives.md): BLAKE2b, the variable-length
hash `H'` and the block compression `G`. -/

namespace Sys2Proof.Machine

/-- Word `k` of a vector of words. -/
def wordAt (v : List Word64) (k : Nat) : Word64 := v.getD k 0#64

/-- `rotr64(w, n)` for 0 < `n` < 64 (R11, R120). -/
def rotr64 (w : Word64) (n : Nat) : Word64 := (w >>> n) ||| (w <<< (64 - n))

/-! ### BLAKE2b -/

/-- The initialisation vector (R121). -/
def blakeIv : List Word64 :=
  [0x6A09E667F3BCC908#64, 0xBB67AE8584CAA73B#64, 0x3C6EF372FE94F82B#64, 0xA54FF53A5F1D36F1#64,
   0x510E527FADE682D1#64, 0x9B05688C2B3E6C1F#64, 0x1F83D9ABFB41BD6B#64, 0x5BE0CD19137E2179#64]

/-- The message schedule (R122). -/
def blakeSigma : List (List Nat) :=
  [[0, 1, 2, 3, 4, 5, 6, 7, 8, 9, 10, 11, 12, 13, 14, 15],
   [14, 10, 4, 8, 9, 15, 13, 6, 1, 12, 0, 2, 11, 7, 5, 3],
   [11, 8, 12, 0, 5, 2, 15, 13, 10, 14, 3, 6, 7, 1, 9, 4],
   [7, 9, 3, 1, 13, 12, 11, 14, 2, 6, 5, 10, 4, 0, 15, 8],
   [9, 0, 5, 7, 2, 4, 10, 15, 14, 1, 11, 12, 6, 8, 3, 13],
   [2, 12, 6, 10, 0, 11, 8, 3, 4, 13, 7, 5, 15, 14, 1, 9],
   [12, 5, 1, 15, 14, 13, 4, 10, 0, 7, 6, 3, 9, 2, 8, 11],
   [13, 11, 7, 14, 12, 1, 3, 9, 5, 0, 15, 4, 8, 6, 2, 10],
   [6, 15, 14, 9, 11, 3, 0, 8, 12, 2, 13, 7, 1, 4, 10, 5],
   [10, 2, 8, 4, 7, 6, 1, 5, 15, 11, 9, 14, 3, 12, 13, 0]]

/-- The word positions the eight calls of a round work on, in order: four columns, four diagonals (R124,
R129). -/
def roundPositions : List (Nat × Nat × Nat × Nat) :=
  [(0, 4, 8, 12), (1, 5, 9, 13), (2, 6, 10, 14), (3, 7, 11, 15),
   (0, 5, 10, 15), (1, 6, 11, 12), (2, 7, 8, 13), (3, 4, 9, 14)]

/-- Four words put back at their positions. -/
def setFour (v : List Word64) (p : Nat × Nat × Nat × Nat) (w : Word64 × Word64 × Word64 × Word64) :
    List Word64 :=
  (((v.set p.1 w.1).set p.2.1 w.2.1).set p.2.2.1 w.2.2.1).set p.2.2.2 w.2.2.2

/-- The two half-rounds shared by `Mix` (R123) and `GB` (R128): `add k a b` is the addition into the first
word, with the message word of half `k` where there is one; `add2` the addition into the third. -/
def quarterRound (add : Bool → Word64 → Word64 → Word64) (add2 : Word64 → Word64 → Word64)
    (w : Word64 × Word64 × Word64 × Word64) : Word64 × Word64 × Word64 × Word64 :=
  let a1 := add false w.1 w.2.1
  let d1 := rotr64 (w.2.2.2 ^^^ a1) 32
  let c1 := add2 w.2.2.1 d1
  let b1 := rotr64 (w.2.1 ^^^ c1) 24
  let a2 := add true a1 b1
  let d2 := rotr64 (d1 ^^^ a2) 16
  let c2 := add2 c1 d2
  let b2 := rotr64 (b1 ^^^ c2) 63
  (a2, b2, c2, d2)

/-- The four words at a position. -/
def getFour (v : List Word64) (p : Nat × Nat × Nat × Nat) : Word64 × Word64 × Word64 × Word64 :=
  (wordAt v p.1, wordAt v p.2.1, wordAt v p.2.2.1, wordAt v p.2.2.2)

/-- `Mix(v, a, b, c, d, x, y)` (R123). -/
def mix (v : List Word64) (p : Nat × Nat × Nat × Nat) (x y : Word64) : List Word64 :=
  setFour v p
    (quarterRound (fun second a b => a + b + if second then y else x) (fun c d => c + d) (getFour v p))

/-- Round `r` of the compression: eight calls of `Mix` with the message words of `SIGMA[r mod 10]` (R124). -/
def blakeRound (m : List Word64) (v : List Word64) (r : Nat) : List Word64 :=
  let s := blakeSigma.getD (r % 10) []
  (List.range 8).foldl
    (fun v k =>
      mix v (roundPositions.getD k (0, 0, 0, 0)) (wordAt m (s.getD (2 * k) 0)) (wordAt m (s.getD (2 * k + 1) 0)))
    v

/-- The registers of a BLAKE2b run: chaining value, work vector and message words (R30). -/
structure BlakeRegs where
  h : List Word64
  v : List Word64
  m : List Word64
  deriving DecidableEq, Repr

/-- The work vector before the first round (R124). -/
def blakeStart (h : List Word64) (t : Nat) (last : Bool) : List Word64 :=
  h ++ [wordAt blakeIv 0, wordAt blakeIv 1, wordAt blakeIv 2, wordAt blakeIv 3,
    wordAt blakeIv 4 ^^^ BitVec.ofNat 64 t, wordAt blakeIv 5 ^^^ BitVec.ofNat 64 (t / 18446744073709551616),
    if last then wordAt blakeIv 6 ^^^ 0xFFFFFFFFFFFFFFFF#64 else wordAt blakeIv 6, wordAt blakeIv 7]

/-- The compression `F(h, block, t, last)` (R124), with the words it leaves in `v` and `m`. -/
def blakeCompress (h : List Word64) (block : Bytes) (t : Nat) (last : Bool) : BlakeRegs :=
  let m := wordsOfBytes 16 block
  let v := (List.range 12).foldl (blakeRound m) (blakeStart h t last)
  { h := (List.range 8).map fun i => wordAt h i ^^^ wordAt v i ^^^ wordAt v (i + 8), v := v, m := m }

/-- The chaining value at the start: parameter block folded into `IV` (R125). -/
def blakeInit (nn : Nat) : List Word64 :=
  blakeIv.set 0 (wordAt blakeIv 0 ^^^ 0x01010000#64 ^^^ BitVec.ofNat 64 nn)

/-- The number of blocks: the empty message has one (R125). -/
def blakeBlocks (data : Bytes) : Nat := max 1 (ceilDiv data.length 128)

/-- The run of `BLAKE2b(data, nn)` (R125): every block but the last with `last = false`, then the last one,
filled with zero bytes. -/
def blakeRun (data : Bytes) (nn : Nat) : BlakeRegs :=
  let n := blakeBlocks data
  let h := (List.range (n - 1)).foldl
    (fun h i => (blakeCompress h (slice data (128 * i) 128) (128 * (i + 1)) false).h) (blakeInit nn)
  let rest := data.drop (128 * (n - 1))
  blakeCompress h (rest ++ zeroBytes (128 - rest.length)) data.length true

/-- `BLAKE2b(data, nn)`, 1 ≤ `nn` ≤ 64 (R125). -/
def blake2b (data : Bytes) (nn : Nat) : Bytes := (bytesOfWords (blakeRun data nn).h).take nn

/-! ### The variable-length hash -/

/-- `first32(V[1]) ‖ … ‖ first32(V[rr]) ‖ V[rr+1]` from `v = V[1]`, the last piece of `lastLen` bytes
(R126). -/
def hashChain (lastLen : Nat) : Nat → Bytes → Bytes
  | 0, _ => []
  | 1, v => v.take 32 ++ blake2b v lastLen
  | rr + 2, v => v.take 32 ++ hashChain lastLen (rr + 1) (blake2b v 64)

/-- `H'(data, tlen)` (R126). -/
def hPrime (data : Bytes) (tlen : Nat) : Bytes :=
  if tlen ≤ 64 then blake2b (leBytes 4 tlen ++ data) tlen
  else
    let rr := ceilDiv tlen 32 - 2
    hashChain (tlen - 32 * rr) rr (blake2b (leBytes 4 tlen ++ data) 64)

/-! ### The block compression -/

/-- `fBlaMka(x, y)` (R127, R221): the factors cut to 32 bits, the sum reduced modulo 2^64. -/
def fBlaMka (x y : Word64) : Word64 := x + y + 2#64 * (x &&& 0xFFFFFFFF#64) * (y &&& 0xFFFFFFFF#64)

/-- `GB(v, a, b, c, d)` (R128). -/
def gb (v : List Word64) (p : Nat × Nat × Nat × Nat) : List Word64 :=
  setFour v p (quarterRound (fun _ => fBlaMka) fBlaMka (getFour v p))

/-- The permutation `P` on sixteen words (R129). -/
def permP (v : List Word64) : List Word64 := roundPositions.foldl gb v

/-- `P` applied to the words of a block at sixteen positions and written back to the same places (R130). -/
def permAt (q : List Word64) (idx : List Nat) : List Word64 :=
  (idx.zip (permP (idx.map (wordAt q)))).foldl (fun q iw => q.set iw.1 iw.2) q

/-- The positions of row `i` (R130). -/
def rowPositions (i : Nat) : List Nat := (List.range 16).map fun k => 16 * i + k

/-- The positions of column `i`: `v[2k] = Q[2i + 16k]`, `v[2k+1] = Q[2i + 16k + 1]` (R130). -/
def columnPositions (i : Nat) : List Nat := (List.range 16).map fun k => 2 * i + 16 * (k / 2) + k % 2

/-- Word-wise exclusive or of two blocks. -/
def xorBlock (x y : List Word64) : List Word64 := List.zipWith (· ^^^ ·) x y

/-- The all-zero block. -/
def zeroBlock : List Word64 := List.replicate 128 0#64

/-- The compression `G(X, Y)` (R130): all rows before the first column. -/
def compressG (x y : List Word64) : List Word64 :=
  let r := xorBlock x y
  let rows := (List.range 8).foldl (fun q i => permAt q (rowPositions i)) r
  let q := (List.range 8).foldl (fun q i => permAt q (columnPositions i)) rows
  xorBlock q r

end Sys2Proof.Machine
end

