-- ==== Sys2Proof/Machine/Kdf.lean ====
section
/-! DEFINITION. The Key Derivation Unit: Argon2id (40_kdf.md R90 to R107) and the meaning of `DERIVE`. The
body is written for any cost profile so that 95_test_vectors.md V45 can be held against it; the core has
one profile, `Config.kdfProfile`. -/

namespace Sys2Proof.Machine

open Sys2Proof.Config (KdfProfile kdfProfile)

/-- The consistency conditions of the parameters (R93), the salt being 16 bytes. -/
def profileConsistent (P : KdfProfile) : Bool :=
  decide (4 ≤ P.outLen) && decide (8 * P.lanes ≤ P.memory) && decide (1 ≤ P.lanes) &&
    decide (P.lanes ≤ 16777215) && decide (1 ≤ P.passes) && decide (8 ≤ Config.saltLen)

/-! ### Geometry (R96) -/

/-- `m' = 4 * p * floor(m / (4 * p))`. -/
def blockCount (P : KdfProfile) : Nat := 4 * P.lanes * (P.memory / (4 * P.lanes))

/-- `q = m' / p`, the columns of a lane. -/
def columns (P : KdfProfile) : Nat := blockCount P / P.lanes

/-- `SL = q / 4`, the blocks of a segment. -/
def segmentLen (P : KdfProfile) : Nat := columns P / 4

/-- The number of block `B[l][j]` in the work area (R52). -/
def blockIndex (P : KdfProfile) (l j : Nat) : Nat := columns P * l + j

/-- `x[B][l][j]`. -/
def getB (P : KdfProfile) (k : KdfRegs) (l j : Nat) : List Word64 := readBlock k.kmem (blockIndex P l j)

/-- `x[B][l][j] <- ws`. -/
def setB (P : KdfProfile) (k : KdfRegs) (l j : Nat) (ws : List Word64) : KdfRegs :=
  { k with kmem := writeBlock k.kmem (blockIndex P l j) ws }

/-! ### Initial hash and first columns -/

/-- The input of the initial hash (R95); `K` and `X` are empty. -/
def initialInput (P : KdfProfile) (pw salt : Bytes) : Bytes :=
  leBytes 4 P.lanes ++ leBytes 4 P.outLen ++ leBytes 4 P.memory ++ leBytes 4 P.passes ++
    leBytes 4 P.version ++ leBytes 4 P.kind ++ leBytes 4 pw.length ++ pw ++
    leBytes 4 salt.length ++ salt ++ leBytes 4 0 ++ leBytes 4 0

/-- `InitialHash(P, S)` (R95). -/
def initialHash (P : KdfProfile) (pw salt : Bytes) : Bytes := blake2b (initialInput P pw salt) 64

/-- Column `j` (0 or 1) of lane `l` (R97). -/
def firstBlock (h0 : Bytes) (j l : Nat) : List Word64 :=
  wordsOfBytes 128 (hPrime (h0 ++ leBytes 4 j ++ leBytes 4 l) 1024)

/-- `FillFirstColumns` (R97). -/
def fillFirstColumns (P : KdfProfile) (h0 : Bytes) (k : KdfRegs) : KdfRegs :=
  (List.range P.lanes).foldl
    (fun k l => setB P (setB P k l 0 (firstBlock h0 0 l)) l 1 (firstBlock h0 1 l)) k

/-! ### One block -/

/-- Data-independent addressing: the first half of the first pass (R99). -/
def independent (r s : Nat) : Bool := decide (r = 0 ∧ s < 2)

/-- The input block `Z` at the start of a data-independent segment (R100). -/
def addressInput (P : KdfProfile) (r s l : Nat) : List Word64 :=
  [BitVec.ofNat 64 r, BitVec.ofNat 64 l, BitVec.ofNat 64 s, BitVec.ofNat 64 (blockCount P),
   BitVec.ofNat 64 P.passes, BitVec.ofNat 64 P.kind, 0#64] ++ List.replicate 121 0#64

/-- `NextAddresses()` (R100): the counter `Z[6]` up by one, then `ADDR <- G(ZERO, G(ZERO, Z))`. -/
def nextAddresses (k : KdfRegs) : KdfRegs :=
  let z := (k.z.getD zeroBlock).set 6 (wordAt (k.z.getD zeroBlock) 6 + 1#64)
  { k with z := some z, addr := some (compressG zeroBlock (compressG zeroBlock z)) }

/-- The first index of a segment: columns 0 and 1 are filled already (R98). -/
def firstIndex (r s : Nat) : Nat := if r = 0 ∧ s = 0 then 2 else 0

/-- When `NextAddresses` is called: whenever `i mod 128 = 0`, and once before index 2 in the segments of
pass 0, slice 0 (R100). -/
def needsAddresses (r s i : Nat) : Bool :=
  independent r s && (decide (i % 128 = 0) || decide (r = 0 ∧ s = 0 ∧ i = 2))

/-- The size `W` of the reference area (R103). -/
def referenceArea (P : KdfProfile) (r s i : Nat) (same : Bool) : Nat :=
  let q := columns P
  let sl := segmentLen P
  if r = 0 then
    if s = 0 then i - 1
    else if same then s * sl + i - 1
    else if i = 0 then s * sl - 1 else s * sl
  else if same then q - sl + i - 1
  else if i = 0 then q - sl - 1 else q - sl

/-- The referenced column, from `J1` and the area size `W` (R104). -/
def referenceColumn (P : KdfProfile) (r s w j1 : Nat) : Nat :=
  let xx := (j1 * j1) >>> 32
  let yy := (w * xx) >>> 32
  let rel := w - 1 - yy
  let start := if r = 0 ∨ s = 3 then 0 else (s + 1) * segmentLen P
  (start + rel) % columns P

/-- The reference lane (R102). -/
def referenceLane (P : KdfProfile) (r s l j2 : Nat) : Nat := if r = 0 ∧ s = 0 then l else j2 % P.lanes

/-- One block, (`r`, `s`, `l`, `i`): addressing (R99 to R101), reference (R102 to R104), new block (R105). -/
def fillBlock (P : KdfProfile) (r s l : Nat) (k0 : KdfRegs) (i : Nat) : KdfRegs :=
  let k := if needsAddresses r s i then nextAddresses k0 else k0
  let j := s * segmentLen P + i
  let prev := getB P k l ((j + columns P - 1) % columns P)
  let pr := if independent r s then wordAt (k.addr.getD zeroBlock) (i % 128) else wordAt prev 0
  let j1 := pr.toNat % 4294967296
  let j2 := pr.toNat / 4294967296
  let rl := referenceLane P r s l j2
  let w := referenceArea P r s i (decide (rl = l))
  let ref := getB P k rl (referenceColumn P r s w j1)
  let new := compressG prev ref
  let new := if r = 0 then new else xorBlock new (getB P k l j)
  { setB P k l j new with index := some i }

/-! ### The whole work area -/

/-- `FillSegment(r, s, l)`: the indices in order (R98). -/
def fillSegment (P : KdfProfile) (r s : Nat) (k : KdfRegs) (l : Nat) : KdfRegs :=
  (List.range' (firstIndex r s) (segmentLen P - firstIndex r s)).foldl (fillBlock P r s l)
    { k with
      pass := some r, slice := some s, lane := some l
      z := if independent r s then some (addressInput P r s l) else k.z }

/-- One slice of one pass, the lanes' segments in the order given (R98). The end of it is the
synchronisation point of R62. -/
def fillSlice (P : KdfProfile) (order : List Nat) (r : Nat) (k : KdfRegs) (s : Nat) : KdfRegs :=
  order.foldl (fillSegment P r s) k

/-- All passes, with the lanes of slice (`r`, `s`) taken in the order `order r s`. -/
def fillInOrder (P : KdfProfile) (order : Nat → Nat → List Nat) (k : KdfRegs) : KdfRegs :=
  (List.range P.passes).foldl
    (fun k r => (List.range 4).foldl (fun k s => fillSlice P (order r s) r k s) k) k

/-- "The model's fixed sequential order": lanes 0, 1, 2, 3 (R98). -/
def laneOrder (P : KdfProfile) (_r _s : Nat) : List Nat := List.range P.lanes

/-- `C`: the exclusive or of the last block of every lane (R106). -/
def lastColumn (P : KdfProfile) (k : KdfRegs) : List Word64 :=
  (List.range' 1 (P.lanes - 1)).foldl (fun c l => xorBlock c (getB P k l (columns P - 1)))
    (getB P k 0 (columns P - 1))

/-- The registers before `Finalize`, under a lane order: `H0` (R95), the first columns (R97), all passes
(R98). -/
def deriveFill (P : KdfProfile) (order : Nat → Nat → List Nat) (pw salt : Bytes) (k : KdfRegs) : KdfRegs :=
  let h0 := initialHash P pw salt
  fillInOrder P order (fillFirstColumns P h0 { k with h0 := some h0 })

/-- The key that `Finalize` returns (R106). -/
def finalKey (P : KdfProfile) (k : KdfRegs) : Bytes := hPrime (bytesOfWords (lastColumn P k)) P.outLen

/-- The registers after `Finalize` (R106): `C`, and the words the last hash leaves in the BLAKE2b registers
(log 11). -/
def finalRegs (P : KdfProfile) (k : KdfRegs) : KdfRegs :=
  let b := blakeRun (leBytes 4 P.outLen ++ bytesOfWords (lastColumn P k)) P.outLen
  { k with c := some (lastColumn P k), b2h := some b.h, b2v := some b.v, b2m := some b.m }

/-- The key derived when the KDF registers are as in `k` at the start. That it does not depend on `k` is
R92 with R261. -/
def deriveKeyFrom (P : KdfProfile) (pw salt : Bytes) (k : KdfRegs) : Bytes :=
  finalKey P (deriveFill P (laneOrder P) pw salt k)

/-- `DERIVE(password, salt)` from registers that hold no value (R90, R27). -/
def deriveKey (pw salt : Bytes) : Bytes := deriveKeyFrom kdfProfile pw salt {}

/-- The unit operation `DERIVE` on the state (R90): `KEY` takes the result. -/
def unitDerive (pw salt : Bytes) (s : State) : State :=
  { s with
    codec := { s.codec with key := some (deriveKeyFrom kdfProfile pw salt s.kdf) }
    kdf := finalRegs kdfProfile (deriveFill kdfProfile (laneOrder kdfProfile) pw salt s.kdf) }

/-- `DERIVE` as the sequencer calls it and as its own meaning runs it: `KdfError` before any block is
computed if the parameters are inconsistent (R93, R233), else the derivation. -/
def deriveOrRaise (pw salt : Bytes) (s : State) (k : State → State) : State :=
  if profileConsistent kdfProfile then k (unitDerive pw salt s) else raise .kdf s

/-- The meaning of `DERIVE` (R90). -/
def execDerive (pw salt : Bytes) (s : State) : Out :=
  if Config.maxPwLen < pw.length then .refused .passwordTooLong
  else if salt.length ≠ Config.saltLen then .refused .operandShape
  else .next (deriveOrRaise pw salt s id)

end Sys2Proof.Machine
end

