-- ==== Sys2Proof/Machine/Codec.lean ====
section
/-! DEFINITION. The sequencer of the Authenticated Container Codec: the numbered steps of `ENCRYPT` and
`DECRYPT` (42_codec.md R150, R151), the two commands, and the unit operation `SALTGEN` (R152). -/

namespace Sys2Proof.Machine

/-! ### SALTGEN -/

/-- The unit operation `SALTGEN` on the state (R152): `SALT` takes the draw; `none` while the provider does
not answer (U6). -/
def unitSaltgen (s : State) : Option State :=
  match drawSalt s.rng with
  | some (d, g) => some { s with codec := { s.codec with salt := some d }, rng := g }
  | none => none

/-- The meaning of `SALTGEN` (R152). With a provider that does not answer, nothing happens (U6, D23). -/
def execSaltgen (s : State) : Out :=
  match unitSaltgen s with
  | some s' => .next s'
  | none => .next s

/-! ### The numbered steps of ENCRYPT (R150) -/

/-- E1: `x[SALT] <- Call SALTGEN()`. A provider that does not answer leaves the core at E1 (R152, U6). -/
def stepE1 (s : State) : Out :=
  match unitSaltgen s with
  | some s' => .next { s' with pc := .e2 }
  | none => .next s

/-- E2: `x[KEY] <- Call DERIVE(PW, x[SALT])`. -/
def stepE2 (s : State) : Out :=
  need .pw s.pw fun pw => need .salt s.codec.salt fun salt =>
    .next (deriveOrRaise pw salt s fun s' => { s' with pc := .e3 })

/-- E3: `x[CTT] <- Call SEAL(x[KEY], IN)`. -/
def stepE3 (s : State) : Out :=
  need .key s.codec.key fun key => need .inp s.inp fun inp =>
    .next { unitSeal key inp s with pc := .e4 }

/-- `x[RAW] <- x[SALT] ‖ x[CTT]` (R78, R154). -/
def putRaw (raw : Bytes) (s : State) : State := { s with codec := { s.codec with raw := some raw } }

/-- E4: concatenate, then `text <- Call B64ENC(x[RAW])`. -/
def stepE4 (s : State) : Out :=
  need .salt s.codec.salt fun salt => need .ctt s.codec.ctt fun ctt =>
    .next { unitB64enc (salt ++ ctt) (putRaw (salt ++ ctt) s) with pc := .e5 }

/-- E5: return the text. -/
def stepE5 (s : State) : Out := need .text s.codec.text fun text => .next (respond text s)

/-! ### The numbered steps of DECRYPT (R151) -/

/-- D1: text-decode; `FormatError` if the input is not valid base-64. -/
def stepD1 (s : State) : Out :=
  need .inp s.inp fun inp =>
    .next (if (unitB64dec inp s).codec.b64Ok = some true then { unitB64dec inp s with pc := .d2 }
      else raise .format (unitB64dec inp s))

/-- D2: `FormatError` if the decoded length is less than 32. -/
def stepD2 (s : State) : Out :=
  need .raw s.codec.raw fun raw =>
    .next (if lenOkOf raw then { s with codec := { s.codec with lenOk := some true }, pc := .d3 }
      else raise .format s)

/-- D3: split into the salt (first 16 bytes) and the remainder (R77). -/
def stepD3 (s : State) : Out :=
  need .raw s.codec.raw fun raw =>
    .next { s with
      codec := { s.codec with
        salt := some (slice raw 0 Config.saltLen)
        ctt := some (slice raw Config.saltLen (raw.length - Config.saltLen)) }
      pc := .d4 }

/-- D4: `x[KEY] <- Call DERIVE(PW, x[SALT])`. -/
def stepD4 (s : State) : Out :=
  need .pw s.pw fun pw => need .salt s.codec.salt fun salt =>
    .next (deriveOrRaise pw salt s fun s' => { s' with pc := .d5 })

/-- D5: `Call OPEN(x[KEY], x[CTT])`; `AuthenticationError` if the tag does not verify. -/
def stepD5 (s : State) : Out :=
  need .key s.codec.key fun key => need .ctt s.codec.ctt fun ctt =>
    .next (if (unitOpen key ctt s).aead.tagOk = some true then { unitOpen key ctt s with pc := .d6 }
      else raise .authentication (unitOpen key ctt s))

/-- D6: return the recovered plaintext. -/
def stepD6 (s : State) : Out := need .pt s.codec.pt fun pt => .next (respond pt s)

/-! ### The sequencer -/

/-- One numbered step, the one the step register names (R26, R153). Idle, or with the response ready, the
sequencer takes no step. -/
def seqStep (s : State) : Out :=
  match s.pc with
  | .idle => .next s
  | .e1 => stepE1 s
  | .e2 => stepE2 s
  | .e3 => stepE3 s
  | .e4 => stepE4 s
  | .e5 => stepE5 s
  | .d1 => stepD1 s
  | .d2 => stepD2 s
  | .d3 => stepD3 s
  | .d4 => stepD4 s
  | .d5 => stepD5 s
  | .d6 => stepD6 s
  | .resp => .next s

/-- `n` numbered steps. -/
def runSeq : Nat → State → Out
  | 0, s => .next s
  | n + 1, s =>
    match seqStep s with
    | .next s' => runSeq n s'
    | .fault f => .fault f
    | .refused r => .refused r

/-- More numbered steps than any command has (six, D1 to D6). -/
abbrev commandSteps : Nat := 6

/-- Whether a command lies outside the admitted domain, and why (R72, R238). Decided before its first step
(R236). -/
def refusalOf (c : Command) (par : Params) : Option Refusal :=
  if Config.maxPwLen < c.pw.length then some .passwordTooLong
  else if par.capIn < c.inp.length then some .overCapacity
  else if c.mode = 0#1 then
    if Config.maxPtLen < c.inp.length then some .dataTooLong else none
  else
    match b64dec par.trailing c.inp with
    | some raw =>
      if Config.minRawLen ≤ raw.length ∧ Config.maxPtLen < raw.length - Config.minRawLen then some .dataTooLong
      else none
    | none => none

/-- A command: issued only when the core is idle (R263), refused outside the admitted domain (R238), else
accepted and run for `n` numbered steps. -/
def issueCommand (c : Command) (n : Nat) (s : State) : Out :=
  if s.pc ≠ .idle then .refused .busy
  else
    match refusalOf c s.par with
    | some r => .refused r
    | none => runSeq n (accept c s)

/-- The meaning of `ENCRYPT` (R150): the whole command, "one atomic transition from command to response"
(R57). -/
def execEncrypt (pw inp : Bytes) (s : State) : Out :=
  issueCommand { mode := 0#1, pw := pw, inp := inp } commandSteps s

/-- The meaning of `DECRYPT` (R151): the whole command (R57). -/
def execDecrypt (pw inp : Bytes) (s : State) : Out :=
  issueCommand { mode := 1#1, pw := pw, inp := inp } commandSteps s

end Sys2Proof.Machine
end

