-- ==== Sys2Proof/Machine/Dispatch.lean ====
section
/-! DEFINITION. One arm per operation of spec/opcode_table.json. -/

namespace Sys2Proof.Machine

def exec (i : Instr) (s : State) : Host.Outcome State Fault Refusal :=
  match i with
  | .encrypt pw inp => Sys2Proof.Machine.execEncrypt pw inp s
  | .decrypt pw inp => Sys2Proof.Machine.execDecrypt pw inp s
  | .saltgen => Sys2Proof.Machine.execSaltgen s
  | .derive pw salt => Sys2Proof.Machine.execDerive pw salt s
  | .aeadSeal key pt => Sys2Proof.Machine.execSeal key pt s
  | .aeadOpen key ctt => Sys2Proof.Machine.execOpen key ctt s
  | .b64enc raw => Sys2Proof.Machine.execB64enc raw s
  | .b64dec text => Sys2Proof.Machine.execB64dec text s

end Sys2Proof.Machine
end

