-- ==== Sys2Proof/Machine/Port.lean ====
section
/-! DEFINITION. What happens at the ports: decoding and running what is presented, and the host's moves
(10_state.md R20; 60_exceptions.md R241; 70_reset_and_hazards.md R263). -/

namespace Sys2Proof.Machine

/-- The refusal that answers a decoding error (R81). -/
def refusalOfDecode : DecodeError → Refusal
  | .reservedUop code => .reservedUop code
  | .operandCount code found => .operandCount code found

/-- Decode what is presented and run it. -/
def runPresented (p : Presented) (s : State) : Out :=
  match decode p with
  | .ok i => exec i s
  | .error e => .refused (refusalOfDecode e)

/-- The host's next move, on the state without it (R241). -/
def hostStep (m : HostMove) (s : State) : Out :=
  match m with
  | .issue c => runPresented (.cmd c) s
  | .start c n => issueCommand c n s
  | .wait => runSeq commandSteps s
  | .read => readResponse s
  | .reset => .next (resetCore s)

end Sys2Proof.Machine
end

