-- ==== Sys2Proof/Machine/Step.lean ====
section
/-! DEFINITION. One step of the machine: the unit call at the select lines if there is one, else the host's
next move (10_state.md R20; 60_exceptions.md R241; 70_reset_and_hazards.md R261, R263). -/

namespace Sys2Proof.Machine

/-- One step. A unit call standing at the select lines is served first (log 10). Without a host move the
core goes on with the command in progress; idle or with a response ready it does nothing (R261). -/
def step (s : State) : Host.Outcome State Fault Refusal :=
  match s.uop with
  | some u => runPresented (.uop u) { s with uop := none }
  | none =>
    match s.host with
    | [] => runSeq commandSteps s
    | m :: ms => hostStep m { s with host := ms }

/-- `s` with an operation put where `step` takes its next operation from: a command becomes the host's next
move at an idle core, a unit call stands at the select lines (log 9). -/
def State.present (s : State) (p : Presented) : State :=
  match p with
  | .cmd c => { s with pc := .idle, uop := none, host := .issue c :: s.host }
  | .uop u => { s with uop := some u }

/-- `s` with the operation of a table row's bits presented, every operand bit zero. -/
def State.withFetchWord (s : State) (nbits w : Nat) : State :=
  match presentedOfTableWord nbits w with
  | some p => s.present p
  | none => s

end Sys2Proof.Machine
end

