-- ==== Sys2Proof/WellFormed.lean ====
section
/-! DEFINITION. The operand shapes each operation's contract asks for (30_encoding.md R72; 40_kdf.md R90;
43_aead.md R190, R191). The limits that need the machine (`CAP_IN`, the decoded length of a container)
are checked by `Sys2Proof.Machine.refusalOf`. -/

namespace Sys2Proof

/-- `len(PW) ≤ MAX_PW_LEN` (R72). -/
def pwFits (pw : Bytes) : Bool := decide (pw.length ≤ Config.maxPwLen)

/-- `len(pt) ≤ MAX_PT_LEN` (R72, R192). -/
def ptFits (pt : Bytes) : Bool := decide (pt.length ≤ Config.maxPtLen)

/-- Exactly 16 bytes (R90). -/
def saltFits (salt : Bytes) : Bool := decide (salt.length = Config.saltLen)

/-- Exactly 32 bytes (R180). -/
def keyFits (key : Bytes) : Bool := decide (key.length = Config.keyLen)

/-- At least the 16 bytes of the tag (R191), and a ciphertext inside the length limit (R192). -/
def cttFits (ctt : Bytes) : Bool :=
  decide (Config.tagLen ≤ ctt.length) && decide (ctt.length - Config.tagLen ≤ Config.maxPtLen)

/-- The operands have the shapes the operation's contract asks for. -/
def Instr.wellFormed : Instr → Bool
  | .encrypt pw inp => pwFits pw && ptFits inp
  | .decrypt pw _ => pwFits pw
  | .saltgen => true
  | .derive pw salt => pwFits pw && saltFits salt
  | .aeadSeal key pt => keyFits key && ptFits pt
  | .aeadOpen key ctt => keyFits key && cttFits ctt
  | .b64enc _ => true
  | .b64dec _ => true

end Sys2Proof
end

