-- ==== Sys2Proof/Safety.lean ====
section
/-! DEFINITION. The terms in which claims about runs are stated: which registers hold a value at which label
(10_state.md R27, R28), the widths of the registers (R28 to R30), the admitted domain (30_encoding.md R72),
and the answers of a command (R23). -/

namespace Sys2Proof.Machine

open Sys2Proof.Config (KdfProfile kdfProfile)

/-! ### Which registers hold a value -/

/-- Every transient register holds no value (R27). -/
abbrev transientsClear (s : State) : Prop := s.codec = {} ∧ s.aead = {} ∧ s.kdf = {}

/-- Every port field holds no value (R36). -/
abbrev portsClear (s : State) : Prop :=
  s.mode = none ∧ s.pw = none ∧ s.inp = none ∧ s.status = none ∧ s.out = none

/-- The core between two commands, which is the core after reset (R36, R237). -/
abbrev coreAtRest (s : State) : Prop := s.pc = .idle ∧ portsClear s ∧ transientsClear s ∧ s.uop = none

/-- A command of this mode is in progress: the descriptor is held, there is no response yet (R23). -/
abbrev inProgress (mode : BitVec 1) (s : State) : Prop :=
  s.mode = some mode ∧ s.pw.isSome ∧ s.inp.isSome ∧ s.status = none ∧ s.out = none

/-- A response is held: a status that is not `KdfError` (R233), and an empty output with every error
(R23). -/
abbrev responseHeld (s : State) : Prop :=
  s.mode.isSome ∧ s.pw.isSome ∧ s.inp.isSome ∧ s.out.isSome ∧
    (s.status = some .ok ∨ (s.out = some [] ∧ (s.status = some .formatError ∨ s.status = some .authenticationError)))

/-- Which codec registers hold a value: `SALT`, `KEY`, `CTT`, `RAW`, `PT`, `text`, `B64_OK`, `LEN_OK`. -/
def codecPattern (c : CodecRegs) : List Bool :=
  [c.salt.isSome, c.key.isSome, c.ctt.isSome, c.raw.isSome, c.pt.isSome, c.text.isSome,
    c.b64Ok.isSome, c.lenOk.isSome]

/-- Which of them the numbered steps before a label have written (R28). -/
def writtenBefore : Label → List Bool
  | .idle | .e1 | .d1 | .resp => [false, false, false, false, false, false, false, false]
  | .e2 => [true, false, false, false, false, false, false, false]
  | .e3 => [true, true, false, false, false, false, false, false]
  | .e4 => [true, true, true, false, false, false, false, false]
  | .e5 => [true, true, true, true, false, true, false, false]
  | .d2 => [false, false, false, true, false, false, true, false]
  | .d3 => [false, false, false, true, false, false, true, true]
  | .d4 => [true, false, true, true, false, false, true, true]
  | .d5 => [true, true, true, true, false, false, true, true]
  | .d6 => [true, true, true, true, true, false, true, true]

/-- Labels after the key derivation of the command in progress (R150, R151). -/
def afterDerive : Label → Bool
  | .e3 | .e4 | .e5 | .d5 | .d6 => true
  | _ => false

/-- Labels after the AEAD step of the command in progress (R150, R151). -/
def afterAead : Label → Bool
  | .e4 | .e5 | .d6 => true
  | _ => false

/-- What the ports hold at a label. -/
def portsAt (s : State) : Prop :=
  match s.pc with
  | .idle => portsClear s
  | .e1 | .e2 | .e3 | .e4 | .e5 => inProgress 0#1 s
  | .d1 | .d2 | .d3 | .d4 | .d5 | .d6 => inProgress 1#1 s
  | .resp => responseHeld s

/-- The discipline of the transient registers (R27): at every label exactly the codec registers written by
the earlier steps of the command hold a value, the units' registers hold none before their unit has run,
and between commands nothing holds a value. No unit call stands at the select lines between steps. -/
def disciplined (s : State) : Prop :=
  s.uop = none ∧ portsAt s ∧ codecPattern s.codec = writtenBefore s.pc ∧
    (afterDerive s.pc = false → s.kdf = {}) ∧ (afterAead s.pc = false → s.aead = {})

/-! ### Widths -/

/-- The codec's registers have their widths (R28); `CTT` always has room for the tag. -/
def codecWidths (c : CodecRegs) : Prop :=
  (∀ b ∈ c.salt, b.length = Config.saltLen) ∧ (∀ b ∈ c.key, b.length = Config.keyLen) ∧
    (∀ b ∈ c.ctt, Config.tagLen ≤ b.length)

/-- The widths R28 gives relative to each other, at the labels between the step that writes the wider one
and the end of the command: `CTT` is `len(plaintext) + 16`, `RAW` is `len(CTT) + 16`, `PT` is
`len(CTT) - 16`, and the text is as long as R161 makes it. (Unit calls on an idle core write one of these
registers without the others: log 10.) -/
def containerWidths (s : State) : Prop :=
  (s.pc = .e4 ∨ s.pc = .e5 → ∀ ctt ∈ s.codec.ctt, ∀ inp ∈ s.inp, ctt.length = inp.length + Config.tagLen) ∧
  (s.pc = .e5 ∨ s.pc = .d4 ∨ s.pc = .d5 ∨ s.pc = .d6 →
    ∀ raw ∈ s.codec.raw, ∀ ctt ∈ s.codec.ctt, raw.length = ctt.length + Config.saltLen) ∧
  (s.pc = .d6 → ∀ ctt ∈ s.codec.ctt, ∀ pt ∈ s.codec.pt, ctt.length = pt.length + Config.tagLen) ∧
  (s.pc = .e5 → ∀ raw ∈ s.codec.raw, ∀ text ∈ s.codec.text, text.length = 4 * ((raw.length + 2) / 3))

/-- The AEAD engine's registers have their widths (R29). -/
def aeadWidths (a : AeadRegs) : Prop :=
  (∀ rk ∈ a.rk, rk.length = 15 ∧ ∀ k ∈ rk, k.length = 16) ∧
  (∀ b ∈ a.h, b.length = 16) ∧ (∀ b ∈ a.j0, b.length = 16) ∧ (∀ b ∈ a.cb, b.length = 16) ∧
  (∀ b ∈ a.y, b.length = 16) ∧ (∀ b ∈ a.s, b.length = 16) ∧ (∀ b ∈ a.t, b.length = Config.tagLen) ∧
  (∀ b ∈ a.aes, b.length = 16)

/-- The KDF unit's registers have their widths and ranges (R30). -/
def kdfWidths (k : KdfRegs) : Prop :=
  (∀ b ∈ k.h0, b.length = 64) ∧ (∀ z ∈ k.z, z.length = 128) ∧ (∀ a ∈ k.addr, a.length = 128) ∧
  (∀ c ∈ k.c, c.length = 128) ∧
  (∀ r ∈ k.pass, r < 8) ∧ (∀ s ∈ k.slice, s < 4) ∧ (∀ l ∈ k.lane, l < 4) ∧ (∀ i ∈ k.index, i < 16384) ∧
  (∀ h ∈ k.b2h, h.length = 8) ∧ (∀ v ∈ k.b2v, v.length = 16) ∧ (∀ m ∈ k.b2m, m.length = 16)

/-- Every register that holds a value holds one of its width. The two further clauses make this inductive:
the decoded container is long enough where it is split (step D2), and a unit call stands at the select
lines of an idle core only. -/
def widthsHold (s : State) : Prop :=
  codecWidths s.codec ∧ aeadWidths s.aead ∧ kdfWidths s.kdf ∧ containerWidths s ∧
    (s.pc = .d3 → ∀ raw ∈ s.codec.raw, Config.minRawLen ≤ raw.length) ∧
    (s.uop.isSome → s.pc = .idle)

/-! ### Commands and their answers -/

/-- A command is inside the admitted domain (R72) of the parameters. -/
abbrev inDomain (c : Command) (par : Params) : Prop := refusalOf c par = none

/-- The state with a response of this status and output to the command `c`, everything transient at no
value, and what surrounds the core as in `s` (R23, R27). -/
def responded (c : Command) (st : Status) (o : Bytes) (s : State) : State :=
  { s with
    pc := .resp, mode := some c.mode, pw := some c.pw, inp := some c.inp
    status := some st, out := some o, codec := {}, aead := {}, kdf := {} }

/-- The container text of a plaintext: salt ‖ ciphertext ‖ tag in base-64 (R53, R75, R76). -/
def containerText (pw inp salt : Bytes) : Bytes := b64enc (salt ++ sealBytes (deriveKey pw salt) inp)

/-- The labels in step order (R26). -/
def nextLabel : Label → Label
  | .idle => .idle
  | .e1 => .e2
  | .e2 => .e3
  | .e3 => .e4
  | .e4 => .e5
  | .e5 => .resp
  | .d1 => .d2
  | .d2 => .d3
  | .d3 => .d4
  | .d4 => .d5
  | .d5 => .d6
  | .d6 => .resp
  | .resp => .resp

/-- The byte at a place of a text is no digit, and no pad where a pad may stand: the last place, or the last
but one before a pad (R162). -/
def misplacedByte (text : Bytes) (i : Nat) : Prop :=
  ∃ b, text[i]? = some b ∧ b64Value b = none ∧
    ¬ (b = b64Pad ∧ (i + 1 = text.length ∨ (i + 2 = text.length ∧ text[i + 1]? = some b64Pad)))

/-- The last digit of a padded text has unused bits that are not zero: four bits before two pads, two bits
before one (R162). -/
def unusedBitsSet (text : Bytes) : Prop :=
  ∃ i b v, text[i]? = some b ∧ b64Value b = some v ∧ text[i + 1]? = some b64Pad ∧
    ((i + 3 = text.length ∧ v % 16 ≠ 0) ∨ (i + 2 = text.length ∧ v % 4 ≠ 0))

/-- What makes a text no valid base-64 (R162, R232): its length, a byte in a place where it may not stand, and
under `reject` its unused bits. -/
def malformedText (trailing : TrailingBits) (text : Bytes) : Prop :=
  text.length % 4 ≠ 0 ∨ (∃ i, misplacedByte text i) ∨ (trailing = .reject ∧ unusedBitsSet text)

/-- Two steps of the sequencer's runs one after the other. -/
def andThen (o : Out) (k : State → Out) : Out :=
  match o with
  | .next s => k s
  | .fault f => .fault f
  | .refused r => .refused r

/-- Block `B[rl][z]` has been filled when block (`r`, `s`, `l`, `i`) is computed in the order of R98 and
was completed before the current slice if it lies in another lane (R62, R103, R105). -/
def filledBefore (P : KdfProfile) (r s l i rl z : Nat) : Prop :=
  z < columns P ∧
    (rl = l → z ≠ s * segmentLen P + i ∧ (r = 0 → z < s * segmentLen P + i)) ∧
    (rl ≠ l → (z < s * segmentLen P ∨ (s + 1) * segmentLen P ≤ z) ∧ (r = 0 → z < s * segmentLen P))

end Sys2Proof.Machine
end

