-- ==== Sys2Proof/Certificates/Slice0/Obligations.lean ====
section
/-! DEFINITION. The statements for the provers. Each docstring names the rules of spec/ it formalises. -/

open Sys2Proof Sys2Proof.Machine
open Sys2Proof.Config (KdfProfile kdfProfile)

/-! ### Encoding -/

/-- R71, R74, R80: decoding an encoded operation gives it back, with every operand. -/
def Obligations.DecodeOfEncodeIsTheOperation : Prop :=
  ∀ i : Instr, decode (encode i) = .ok i

/-- R80, R81: what decodes at all decodes from its own encoding, so no two presented forms mean the same
operation and no reserved form falls through to a neighbour. -/
def Obligations.EachPresentedFormHasOneMeaning : Prop :=
  ∀ (p : Presented) (i : Instr), decode p = .ok i → encode i = p

/-- R81, U1: the two reserved unit codes are refused, whatever operands stand beside them. -/
def Obligations.ReservedUnitCodesAreRefused : Prop :=
  ∀ (s : State) (code : BitVec 3) (operands : List Bytes), code = 0b110#3 ∨ code = 0b111#3 →
    s.uop = some { code := code, operands := operands } →
    step s = .refused (.reservedUop code)

/-- R71, R74 and the opcode table: the table's words, with every operand bit zero, decode to their rows'
operations. How the table word is laid out is the model's choice (log 9). -/
def Obligations.TableWordsDecodeToTheirRows : Prop :=
  decodeTableWord 1 0b0 = some (.encrypt [] []) ∧ decodeTableWord 1 0b1 = some (.decrypt [] []) ∧
  decodeTableWord 3 0b000 = some .saltgen ∧
  decodeTableWord 3 0b001 = some (.derive [] (List.replicate 16 0#8)) ∧
  decodeTableWord 3 0b010 = some (.aeadSeal (List.replicate 32 0#8) []) ∧
  decodeTableWord 3 0b011 = some (.aeadOpen (List.replicate 32 0#8) (List.replicate 16 0#8)) ∧
  decodeTableWord 3 0b100 = some (.b64enc []) ∧ decodeTableWord 3 0b101 = some (.b64dec []) ∧
  decodeTableWord 3 0b110 = none ∧ decodeTableWord 3 0b111 = none

/-! ### The machine's step, reset, the host's moves -/

/-- R20, R74, R80, R241: a step runs the operation that is presented. A unit call at the select lines is
taken off them and run; a command that the host issues is taken off the host's moves and run. (That unit
calls are served first, and the list of moves, are the model's: logs 7 and 10.) -/
def Obligations.StepRunsThePresentedOperation : Prop :=
  (∀ (s : State) (u : UnitCall) (i : Instr), s.uop = some u → decode (.uop u) = .ok i →
    step s = exec i { s with uop := none }) ∧
  (∀ (s : State) (c : Command) (i : Instr) (ms : List HostMove), s.uop = none → s.host = .issue c :: ms →
    decode (.cmd c) = .ok i → step s = exec i { s with host := ms })

/-- R260: a reset takes the core from any state to that of R36, the hardwired constants of R24 keeping
their values. (The host's move list is the model's, log 7.) -/
def Obligations.ResetReachesTheResetStateFromAnyState : Prop :=
  ∀ (s : State) (ms : List HostMove), s.uop = none → s.host = .reset :: ms →
    ∃ t, step s = .next t ∧ coreAtRest t ∧ (∀ a, t.kdf.kmem.read a = none) ∧
      t.par = s.par ∧ t.rng = s.rng ∧ t.host = ms ∧ t.received = s.received ∧
      Config.nonce = List.replicate 12 0#8 ∧ Config.aad = [] ∧
      Config.saltLen = 16 ∧ Config.tagLen = 16 ∧ Config.minRawLen = 32 ∧
      kdfProfile = { lanes := 4, outLen := 32, memory := 262144, passes := 8, version := 0x13, kind := 2 }

/-- R36, R260: right after reset `pc = IDLE` and no port field, no transient register and no byte of the
work area holds a value. (What surrounds the core at reset is the model's choice: logs 1, 2, 7.) -/
def Obligations.ResetStateHoldsNoValue : Prop :=
  State.reset.pc = .idle ∧ portsClear State.reset ∧ transientsClear State.reset ∧
    ∀ a, State.reset.kdf.kmem.read a = none

/-- R261: idle, without a move of the host, the core does nothing. -/
def Obligations.IdleCoreDoesNothing : Prop :=
  ∀ s : State, s.uop = none → s.host = [] → s.pc = .idle → step s = .next s

/-- R263, U7: a command issued while the core is not idle is refused, and so is the reading of a response
that is not ready; nothing else happens. -/
def Obligations.MisuseOfThePortsIsRefused : Prop :=
  (∀ (s : State) (pw inp : Bytes), s.pc ≠ .idle →
    exec (.encrypt pw inp) s = .refused .busy ∧ exec (.decrypt pw inp) s = .refused .busy) ∧
  (∀ (s : State) (ms : List HostMove), s.uop = none → s.host = .read :: ms → s.pc ≠ .resp →
    step s = .refused .responseNotReady)

/-- R237, R26: after the host has read a response, the core is in exactly the state it has after reset,
whatever the response was; the host has got that response. -/
def Obligations.ReadingTheResponseRestoresTheResetState : Prop :=
  ∀ (s : State) (ms : List HostMove) (st : Status) (o : Bytes), s.uop = none → s.host = .read :: ms →
    s.pc = .resp → s.status = some st → s.out = some o →
    step s = .next { State.reset with
      par := s.par, rng := s.rng, host := ms, received := { status := st, out := o } :: s.received }

/-- R234: `raise <Kind>`, from any state: every transient register to no value, the kind's status, an empty
output, `pc <- RESP`; nothing is saved and nothing else changes. -/
def Obligations.RaiseEndsTheCommandWithItsStatus : Prop :=
  ∀ (k : ErrorKind) (s : State),
    raise k s = { s with
      pc := .resp, out := some []
      status := some (match k with
        | .format => .formatError
        | .authentication => .authenticationError
        | .kdf => .kdfError)
      codec := {}, aead := {}, kdf := {} }

/-- R240, R260: a command that the host starts and aborts after any number of its numbered steps leaves the
core as if it had never been issued: no response, no register, only the provider may have answered. -/
def Obligations.AbortLeavesNoTrace : Prop :=
  ∀ (s : State) (c : Command) (n : Nat) (ms : List HostMove), coreAtRest s → inDomain c s.par →
    s.host = .start c n :: .reset :: ms →
    ∃ t, step s = .next t ∧ step t = .next { s with rng := t.rng, host := ms }

/-! ### SALTGEN -/

/-- R152, R9: `SALTGEN` puts the provider's answer, 16 bytes, into `SALT` and changes nothing else but the
provider; every 16-byte value can be the answer; a provider that does not answer leaves everything as it
is (U6). (That the provider is data of the state is the model's choice, log 1.) -/
def Obligations.SaltgenTakesOneDraw : Prop :=
  (∀ (s : State) (d : Bytes) (g : Provider), drawSalt s.rng = some (d, g) →
    d.length = 16 ∧
    exec .saltgen s = .next { s with codec := { s.codec with salt := some d }, rng := g }) ∧
  (∀ n, drawSalt (.generator n) = some ((Config.draw n).toList, .generator (n + 1))) ∧
  (∀ (v : Vector Byte 16) (ds : List (Vector Byte 16)),
    drawSalt (.scripted (v :: ds)) = some (v.toList, .scripted ds)) ∧
  (∀ s : State, drawSalt s.rng = none → exec .saltgen s = .next s)

/-! ### DERIVE -/

/-- R90, R95 to R106: inside its domain `DERIVE` completes from every state; `KEY` takes the 32 bytes of
`Finalize` over the filled work area, `H0` the initial hash, `C` the exclusive or of the last column; of
everything outside `KEY` and the KDF unit nothing changes, and no byte outside `KMEM`'s 268435456 does. -/
def Obligations.DeriveCompletesWithA32ByteKey : Prop :=
  ∀ (s : State) (pw salt : Bytes), pw.length ≤ Config.maxPwLen → salt.length = 16 →
    ∃ t, exec (.derive pw salt) s = .next t ∧
      t.codec.key = some (finalKey kdfProfile (deriveFill kdfProfile (laneOrder kdfProfile) pw salt s.kdf)) ∧
      (∀ key ∈ t.codec.key, key.length = 32) ∧
      t.kdf.h0 = some (initialHash kdfProfile pw salt) ∧
      t.kdf.c = some (lastColumn kdfProfile (deriveFill kdfProfile (laneOrder kdfProfile) pw salt s.kdf)) ∧
      t = { s with codec := { s.codec with key := t.codec.key }, kdf := t.kdf } ∧
      ∀ a, Config.kmemBytes ≤ a → t.kdf.kmem.read a = s.kdf.kmem.read a

/-- R92 (with R261, U4): `DERIVE` is a function of its two operands. Whatever the work area and every
register held before, the key is the one derived from registers that hold no value. -/
def Obligations.DeriveReadsNothingButItsOperands : Prop :=
  ∀ (s t : State) (pw salt : Bytes), pw.length ≤ Config.maxPwLen → salt.length = 16 →
    exec (.derive pw salt) s = .next t → t.codec.key = some (deriveKey pw salt)

/-- R97, R98, R261: `DERIVE` writes every byte of the work area. -/
def Obligations.DeriveWritesTheWholeWorkArea : Prop :=
  ∀ (s t : State) (pw salt : Bytes), pw.length ≤ Config.maxPwLen → salt.length = 16 →
    exec (.derive pw salt) s = .next t →
    ∀ a, a < Config.kmemBytes → (t.kdf.kmem.read a).isSome

/-- R107 (its consequence for whole segments): in whatever order each slice takes its four lanes, every byte
of the work area comes out the same. -/
def Obligations.LaneScheduleDoesNotMatter : Prop :=
  ∀ (order : Nat → Nat → List Nat), (∀ r s, (order r s).Perm [0, 1, 2, 3]) →
    ∀ (pw salt : Bytes) (k : KdfRegs) (a : Nat),
      (deriveFill kdfProfile order pw salt k).kmem.read a =
        (deriveFill kdfProfile (laneOrder kdfProfile) pw salt k).kmem.read a

/-- R103 to R105: the referenced block is never the block being written, never an unfilled block, and in
another lane never a block of the current slice. -/
def Obligations.ReferencedBlockIsFilledBefore : Prop :=
  ∀ (r s l i j1 j2 : Nat), r < 8 → s < 4 → l < 4 → firstIndex r s ≤ i → i < segmentLen kdfProfile →
    j1 < 4294967296 →
    filledBefore kdfProfile r s l i (referenceLane kdfProfile r s l j2)
      (referenceColumn kdfProfile r s
        (referenceArea kdfProfile r s i (decide (referenceLane kdfProfile r s l j2 = l))) j1)

/-- R96, R93, R91: the geometry of the fixed profile, and its consistency. -/
def Obligations.FixedProfileGeometry : Prop :=
  blockCount kdfProfile = 262144 ∧ columns kdfProfile = 65536 ∧ segmentLen kdfProfile = 16384 ∧
    1024 * blockCount kdfProfile = Config.kmemBytes ∧ profileConsistent kdfProfile = true

/-- R52: a stored block reads back as itself, and no other block changes. -/
def Obligations.StoredBlockReadsBack : Prop :=
  ∀ (m : Memory) (k k' : Nat) (ws : List Word64), ws.length = 128 →
    readBlock (writeBlock m k ws) k' = if k' = k then ws else readBlock m k'

/-- R127, R221: the multiply of the mixing function, on naturals. -/
def Obligations.MixingMultiplyWrapsAfterTheSum : Prop :=
  ∀ x y : Word64, (fBlaMka x y).toNat =
    (x.toNat + y.toNat + 2 * (x.toNat % 2 ^ 32) * (y.toNat % 2 ^ 32)) % 2 ^ 64

/-- R130 (its corner cases): `G(X, X)` is the all-zero block, and `G` is symmetric. -/
def Obligations.BlockCompressionCornerCases : Prop :=
  (∀ x : List Word64, x.length = 128 → compressG x x = List.replicate 128 0#64) ∧
  (∀ x y : List Word64, compressG x y = compressG y x)

/-- R125, R126: the hashes answer as many bytes as asked for. -/
def Obligations.HashesAnswerTheLengthAskedFor : Prop :=
  (∀ (data : Bytes) (nn : Nat), 1 ≤ nn → nn ≤ 64 → (blake2b data nn).length = nn) ∧
  (∀ (data : Bytes) (tlen : Nat), 1 ≤ tlen → (hPrime data tlen).length = tlen)

/-! ### SEAL and OPEN -/

/-- R190, R180, R183, R188, R189: inside its domain `SEAL` completes from every state; `CTT` takes ciphertext
‖ tag, 16 bytes more than the plaintext; `RK`, `H`, `J0`, `S` and `T` take their values; outside `CTT` and the
engine nothing changes. (What `CB`, `Y` and the AES state hold afterwards is left to log 11.) -/
def Obligations.SealCompletesWithCiphertextAndTag : Prop :=
  ∀ (s : State) (key pt : Bytes), key.length = 32 → pt.length ≤ Config.maxPtLen →
    ∃ t ct, exec (.aeadSeal key pt) s = .next t ∧
      ct = gctr (keyExpansion key) (inc32 preCounter) pt ∧ ct.length = pt.length ∧
      t.codec.ctt = some (ct ++ tagOf (keyExpansion key) (hashSubkey (keyExpansion key)) preCounter ct) ∧
      (∀ ctt ∈ t.codec.ctt, ctt.length = pt.length + 16) ∧
      t.aead.rk = some (keyExpansion key) ∧ t.aead.h = some (aes256 (keyExpansion key) (zeroBytes 16)) ∧
      t.aead.j0 = some (List.replicate 15 0#8 ++ [1#8]) ∧ t.aead.tagOk = s.aead.tagOk ∧
      t.aead.s = some (tagHash (hashSubkey (keyExpansion key)) ct) ∧
      t.aead.t = some (tagOf (keyExpansion key) (hashSubkey (keyExpansion key)) preCounter ct) ∧
      t = { s with codec := { s.codec with ctt := t.codec.ctt }, aead := t.aead }

/-- R191, R182, R195: inside its domain `OPEN` completes from every state; `TAG_OK` says whether the tag
recomputed over the ciphertext part equals the last 16 bytes; `PT` is the plaintext if so, and no value if
not (that an older `PT` does not stay is the model's, log 22); nothing outside `PT` and the engine's
registers changes. -/
def Obligations.OpenCompletesAndReleasesOnlyVerifiedData : Prop :=
  ∀ (s : State) (key ct tag : Bytes), key.length = 32 → tag.length = 16 → ct.length ≤ Config.maxPtLen →
    ∃ t, exec (.aeadOpen key (ct ++ tag)) s = .next t ∧
      t.aead.t = some (tagFor key ct) ∧ t.aead.tagOk = some (decide (tagFor key ct = tag)) ∧
      (tagFor key ct = tag →
        t.codec.pt = some (gctr (keyExpansion key) (inc32 preCounter) ct) ∧
          (gctr (keyExpansion key) (inc32 preCounter) ct).length = ct.length) ∧
      (tagFor key ct ≠ tag → t.codec.pt = none) ∧
      t = { s with codec := { s.codec with pt := t.codec.pt }, aead := t.aead }

/-- R193: `OPEN` inverts `SEAL`. -/
def Obligations.OpenInvertsSeal : Prop :=
  ∀ (s : State) (key pt : Bytes), key.length = 32 → pt.length ≤ Config.maxPtLen →
    ∃ t, exec (.aeadOpen key (sealBytes key pt)) s = .next t ∧
      t.aead.tagOk = some true ∧ t.codec.pt = some pt

/-- R194 (a): with any other tag of 16 bytes, whatever bits differ, the sealed data do not open. (That `PT` then
holds no value, also where an older one stood, is the model's: log 22.) -/
def Obligations.ChangedTagNeverOpens : Prop :=
  ∀ (s : State) (key pt tag : Bytes), key.length = 32 → pt.length ≤ Config.maxPtLen → tag.length = 16 →
    cryptData key pt ++ tag ≠ sealBytes key pt →
    ∃ t, exec (.aeadOpen key (cryptData key pt ++ tag)) s = .next t ∧
      t.aead.tagOk = some false ∧ t.codec.pt = none

/-- R187: counter mode is its own inverse, keeps the length, and byte `j` of the output depends on byte `j`
of the input only. -/
def Obligations.CounterModeIsABytewiseInvolution : Prop :=
  (∀ (rks : List Bytes) (icb x : Bytes),
    gctr rks icb (gctr rks icb x) = x ∧ (gctr rks icb x).length = x.length) ∧
  (∀ (rks : List Bytes) (icb x y : Bytes) (j : Nat), x.length = y.length → x[j]? = y[j]? →
    (gctr rks icb x)[j]? = (gctr rks icb y)[j]?)

/-- R186: `inc32` leaves the first twelve bytes and adds one to the last four, modulo 2^32. -/
def Obligations.CounterIncrementWrapsInFourBytes : Prop :=
  ∀ cb : Bytes, cb.length = 16 →
    (inc32 cb).length = 16 ∧ (inc32 cb).take 12 = cb.take 12 ∧
      intBe ((inc32 cb).drop 12) = (intBe (cb.drop 12) + 1) % 2 ^ 32

/-- R192: within the length limit the counter blocks of one command are pairwise distinct and distinct from
`J0`. -/
def Obligations.CounterBlocksNeverRepeat : Prop :=
  8 * Config.maxPtLen = 2 ^ 39 - 256 ∧
  ∀ (x : Bytes), x.length ≤ Config.maxPtLen →
    ∀ m, m < ceilDiv x.length 16 →
      counterAfter (inc32 preCounter) m ≠ preCounter ∧
      ∀ k, k < ceilDiv x.length 16 →
        counterAfter (inc32 preCounter) m = counterAfter (inc32 preCounter) k → m = k

/-- R184: the product of GF(2^128) is commutative and associative, distributes over the exclusive or, and
has the identity `8000…00` and the zero. -/
def Obligations.BlockProductIsACommutativeRing : Prop :=
  (∀ x y : Elem128, gf128Mul x y = gf128Mul y x) ∧
  (∀ x y z : Elem128, gf128Mul (gf128Mul x y) z = gf128Mul x (gf128Mul y z)) ∧
  (∀ x y z : Elem128, gf128Mul x (y ^^^ z) = gf128Mul x y ^^^ gf128Mul x z) ∧
  (∀ x : Elem128, gf128Mul x 0x80000000000000000000000000000000#128 = x) ∧
  (∀ x : Elem128, gf128Mul x 0#128 = 0#128)

/-- R219: for every key the block function is injective on the 16-byte blocks (and answers 16 bytes), hence
a permutation of them. -/
def Obligations.BlockFunctionIsAPermutation : Prop :=
  (∀ (rks : List Bytes) (x : Bytes), (aes256 rks x).length = 16) ∧
  (∀ (rks : List Bytes) (x y : Bytes), x.length = 16 → y.length = 16 →
    aes256 rks x = aes256 rks y → x = y)

/-- R215 to R218: the round operations, byte by byte. -/
def Obligations.RoundOperationsActOnTheirBytes : Prop :=
  ∀ (s rk : Bytes) (r c : Nat), s.length = 16 → rk.length = 16 → r < 4 → c < 4 →
    byteAt (subBytes s) (r + 4 * c) = sbox (byteAt s (r + 4 * c)) ∧
    byteAt (shiftRows s) (r + 4 * c) = byteAt s (r + 4 * ((c + r) % 4)) ∧
    byteAt (mixColumns s) (r + 4 * c) =
      gf8Mul 2#8 (byteAt s (r + 4 * c)) ^^^ gf8Mul 3#8 (byteAt s ((r + 1) % 4 + 4 * c)) ^^^
        byteAt s ((r + 2) % 4 + 4 * c) ^^^ byteAt s ((r + 3) % 4 + 4 * c) ∧
    byteAt (addRoundKey s rk) (r + 4 * c) = byteAt s (r + 4 * c) ^^^ byteAt rk (r + 4 * c)

/-! ### The text coder -/

/-- R161, R76: `B64ENC` completes from every state; the text register takes the encoding, of
`4 * ceil(len(raw) / 3)` bytes, each a digit or a pad; nothing else changes. -/
def Obligations.B64encCompletesWithItsText : Prop :=
  ∀ (s : State) (raw : Bytes),
    exec (.b64enc raw) s = .next { s with codec := { s.codec with text := some (b64enc raw) } } ∧
      (b64enc raw).length = 4 * ((raw.length + 2) / 3) ∧
      ∀ b ∈ b64enc raw, (b64Value b).isSome ∨ b = 0x3D#8

/-- R162, R151: `B64DEC` completes from every state; `B64_OK` says whether the text decodes, `RAW` takes the
bytes if it does and no value if not (log 22); nothing else changes. -/
def Obligations.B64decCompletesWithItsVerdict : Prop :=
  ∀ (s : State) (text : Bytes),
    exec (.b64dec text) s = .next { s with codec := { s.codec with
      b64Ok := some (b64dec s.par.trailing text).isSome, raw := b64dec s.par.trailing text } }

/-- R163: decoding inverts encoding under either setting, and under `reject` the accepted texts are exactly
the canonical ones. -/
def Obligations.TextDecodingInvertsEncoding : Prop :=
  (∀ (trailing : TrailingBits) (r : Bytes), b64dec trailing (b64enc r) = some r) ∧
  (∀ t r : Bytes, b64dec .reject t = some r → b64enc r = t)

/-- R162: the two settings differ in the trailing bits only: what `reject` accepts, `ignore` accepts with
the same result. -/
def Obligations.IgnoringTrailingBitsOnlyAcceptsMore : Prop :=
  ∀ t r : Bytes, b64dec .reject t = some r → b64dec .ignore t = some r

/-! ### The two commands -/

/-- R150, R57: inside the admitted domain, on an idle core whose provider answers, `ENCRYPT` completes with
`OK` and the container text of `4 * ceil((len(IN) + 32) / 3)` bytes; the descriptor stays at the port until
the response is read, everything transient holds no value, and nothing else changes. -/
def Obligations.EncryptCompletesWithTheContainerText : Prop :=
  ∀ (s : State) (pw inp d : Bytes) (g : Provider), s.pc = .idle →
    inDomain { mode := 0#1, pw := pw, inp := inp } s.par → drawSalt s.rng = some (d, g) →
    exec (.encrypt pw inp) s = .next
      (responded { mode := 0#1, pw := pw, inp := inp } .ok
        (b64enc (d ++ sealBytes (deriveKey pw d) inp)) { s with rng := g }) ∧
    (b64enc (d ++ sealBytes (deriveKey pw d) inp)).length = 4 * ((inp.length + 32 + 2) / 3)

/-- R151, R236, R57: inside the admitted domain, on an idle core, `DECRYPT` completes, with the first of the
three checks that fails deciding the error and with the plaintext if none does; it makes no draw. -/
def Obligations.DecryptCompletesWithThePlaintextOrTheFirstError : Prop :=
  ∀ (s : State) (pw inp : Bytes), s.pc = .idle → inDomain { mode := 1#1, pw := pw, inp := inp } s.par →
    exec (.decrypt pw inp) s = .next
      (match b64dec s.par.trailing inp with
      | none => responded { mode := 1#1, pw := pw, inp := inp } .formatError [] s
      | some raw =>
        if raw.length < 32 then responded { mode := 1#1, pw := pw, inp := inp } .formatError [] s
        else
          match openBytes (deriveKey pw (raw.take 16)) (raw.drop 16) with
          | none => responded { mode := 1#1, pw := pw, inp := inp } .authenticationError [] s
          | some pt => responded { mode := 1#1, pw := pw, inp := inp } .ok pt s)

/-- R157: the round trip, for every password, plaintext and draw: what `ENCRYPT` returns, `DECRYPT` with the
same password turns back into the plaintext, on any idle core that can hold the text. -/
def Obligations.DecryptInvertsEncrypt : Prop :=
  ∀ (s s' : State) (pw inp d : Bytes) (g : Provider), s.pc = .idle → s'.pc = .idle →
    inDomain { mode := 0#1, pw := pw, inp := inp } s.par → drawSalt s.rng = some (d, g) →
    4 * ((inp.length + 34) / 3) ≤ s'.par.capIn →
    ∃ t t' C, exec (.encrypt pw inp) s = .next t ∧ t.status = some .ok ∧ t.out = some C ∧
      exec (.decrypt pw C) s' = .next t' ∧ t'.status = some .ok ∧ t'.out = some inp

/-- R75, R53: the raw container behind the text that `ENCRYPT` returns is salt, ciphertext, tag, of 16,
`len(IN)` and 16 bytes: the draw, verbatim, the ciphertext of the plaintext under the key derived from
password and draw, and the tag of that ciphertext under that key. -/
def Obligations.ContainerIsSaltCiphertextTag : Prop :=
  ∀ (s : State) (pw inp d : Bytes) (g : Provider), s.pc = .idle →
    inDomain { mode := 0#1, pw := pw, inp := inp } s.par → drawSalt s.rng = some (d, g) →
    ∃ t text ct tag, exec (.encrypt pw inp) s = .next t ∧ t.out = some text ∧
      b64dec .reject text = some (d ++ ct ++ tag) ∧
      ct = cryptData (deriveKey pw d) inp ∧ tag = tagFor (deriveKey pw d) ct ∧
      d.length = 16 ∧ ct.length = inp.length ∧ tag.length = 16

/-- R266: two `ENCRYPT` commands with equal password and plaintext give equal containers if and only if
their draws are equal. -/
def Obligations.ContainersAreEqualIffDrawsAre : Prop :=
  ∀ (s s' : State) (pw inp d d' : Bytes) (g g' : Provider), s.pc = .idle → s'.pc = .idle →
    inDomain { mode := 0#1, pw := pw, inp := inp } s.par →
    inDomain { mode := 0#1, pw := pw, inp := inp } s'.par →
    drawSalt s.rng = some (d, g) → drawSalt s'.rng = some (d', g') →
    ∃ t t', exec (.encrypt pw inp) s = .next t ∧ exec (.encrypt pw inp) s' = .next t' ∧
      (t.out = t'.out ↔ d = d')

/-- R265: under one key, the exclusive or of two ciphertexts of one length is that of the plaintexts. -/
def Obligations.RepeatedKeyLeaksThePlaintextXor : Prop :=
  ∀ (key x y : Bytes), x.length = y.length →
    xorBytes (cryptData key x) (cryptData key y) = xorBytes x y

/-- R34: the outcome of a command depends on nothing but the command, the implementation's parameters and,
for `ENCRYPT`, the draw: two idle cores that differ in everything else answer alike. -/
def Obligations.OutcomeDependsOnTheCommandAlone : Prop :=
  ∀ (s s' : State) (pw inp : Bytes), s.pc = .idle → s'.pc = .idle → s.par = s'.par →
    (inDomain { mode := 1#1, pw := pw, inp := inp } s.par →
      ∃ t t', exec (.decrypt pw inp) s = .next t ∧ exec (.decrypt pw inp) s' = .next t' ∧
        t.pc = .resp ∧ t'.pc = .resp ∧ t.status = t'.status ∧ t.out = t'.out ∧
        t.rng = s.rng ∧ t'.rng = s'.rng) ∧
    (∀ (d : Bytes) (g g' : Provider), inDomain { mode := 0#1, pw := pw, inp := inp } s.par →
      drawSalt s.rng = some (d, g) → drawSalt s'.rng = some (d, g') →
      ∃ t t', exec (.encrypt pw inp) s = .next t ∧ exec (.encrypt pw inp) s' = .next t' ∧
        t.pc = .resp ∧ t'.pc = .resp ∧ t.status = t'.status ∧ t.out = t'.out)

/-- R232, R162: a text does not decode exactly if its length is no multiple of four, or it has a byte that is no
digit in a place where no pad may stand, or, under `reject`, its last digit has unused bits set; and a text
that is malformed so, or decodes to fewer than 32 bytes, or has fewer than 44 bytes, or 44 of which the last
two are pads, gives `FormatError`, whatever the password. -/
def Obligations.MalformedContainersGiveFormatError : Prop :=
  (∀ (trailing : TrailingBits) (text : Bytes), b64dec trailing text = none ↔ malformedText trailing text) ∧
  ∀ (s : State) (pw inp : Bytes), s.pc = .idle → pw.length ≤ Config.maxPwLen → inp.length ≤ s.par.capIn →
    (malformedText s.par.trailing inp ∨
      (∃ raw, b64dec s.par.trailing inp = some raw ∧ raw.length < 32) ∨
      inp.length < 44 ∨ (inp.length = 44 ∧ inp.drop 42 = [b64Pad, b64Pad])) →
    exec (.decrypt pw inp) s =
      .next (responded { mode := 1#1, pw := pw, inp := inp } .formatError [] s)

/-- R72, R238: outside the admitted domain a command is refused: a password, an input or a plaintext that is
too long. (Which refusal names which limit is the model's choice, log 15.) -/
def Obligations.CommandsOutsideTheDomainAreRefused : Prop :=
  ∀ (s : State) (pw inp : Bytes), s.pc = .idle →
    (Config.maxPwLen < pw.length →
      exec (.encrypt pw inp) s = .refused .passwordTooLong ∧
        exec (.decrypt pw inp) s = .refused .passwordTooLong) ∧
    (pw.length ≤ Config.maxPwLen → s.par.capIn < inp.length →
      exec (.encrypt pw inp) s = .refused .overCapacity ∧ exec (.decrypt pw inp) s = .refused .overCapacity) ∧
    (pw.length ≤ Config.maxPwLen → inp.length ≤ s.par.capIn → Config.maxPtLen < inp.length →
      exec (.encrypt pw inp) s = .refused .dataTooLong) ∧
    (∀ raw, pw.length ≤ Config.maxPwLen → inp.length ≤ s.par.capIn →
      b64dec s.par.trailing inp = some raw → Config.maxPtLen + 32 < raw.length →
      exec (.decrypt pw inp) s = .refused .dataTooLong)

/-- R90, R180, R191, R192, R16: a unit operation called outside its contract is refused. -/
def Obligations.UnitCallsOutsideTheirContractAreRefused : Prop :=
  ∀ (s : State) (pw salt key pt ctt : Bytes),
    (Config.maxPwLen < pw.length → exec (.derive pw salt) s = .refused .passwordTooLong) ∧
    (pw.length ≤ Config.maxPwLen → salt.length ≠ 16 → exec (.derive pw salt) s = .refused .operandShape) ∧
    (key.length ≠ 32 → exec (.aeadSeal key pt) s = .refused .operandShape) ∧
    (key.length = 32 → Config.maxPtLen < pt.length → exec (.aeadSeal key pt) s = .refused .dataTooLong) ∧
    (key.length ≠ 32 ∨ ctt.length < 16 → exec (.aeadOpen key ctt) s = .refused .operandShape) ∧
    (key.length = 32 → Config.maxPtLen + 16 < ctt.length → exec (.aeadOpen key ctt) s = .refused .dataTooLong)

/-- R152, U6, D23: with a provider that does not answer, `ENCRYPT` stays at E1 without a response. -/
def Obligations.SilentProviderLeavesEncryptAtE1 : Prop :=
  ∀ (s : State) (pw inp : Bytes), s.pc = .idle → inDomain { mode := 0#1, pw := pw, inp := inp } s.par →
    drawSalt s.rng = none →
    ∃ t, exec (.encrypt pw inp) s = .next t ∧ t.pc = .e1 ∧ t.status = none ∧ t.out = none ∧
      t.rng = s.rng ∧ transientsClear t ∧ runSeq commandSteps t = .next t

/-- R233: no step ends with `STATUS = KdfError`: a state that shows it has it from the state before. -/
def Obligations.KdfErrorIsNeverProduced : Prop :=
  ∀ s t : State, step s = .next t → t.status = some .kdfError → s.status = some .kdfError

/-- R57, R155: a numbered step writes `OUT` only where it ends the command, and then in one piece, with
status `OK` or empty. -/
def Obligations.OutputAppearsOnlyWithTheResponse : Prop :=
  ∀ s t : State, seqStep s = .next t →
    (t.out = s.out ∧ t.status = s.status) ∨
      (t.pc = .resp ∧ (t.status = some .ok ∨ (t.out = some [] ∧ t.status ≠ some .ok)))

/-- R26, R153: a numbered step that completes without raising goes to the next label, and to `RESP` only from
the last step of its command, E5 or D6, which ends it with `OK`; a raise goes to `RESP` from one of the three
checks, with that check's error and an empty output; E1 without an answer of the provider stays where it is,
and so does an idle core or one with its response ready. -/
def Obligations.SequencerFollowsTheLabels : Prop :=
  ∀ s t : State, seqStep s = .next t →
    (t.pc = nextLabel s.pc ∧ (s.pc = .e1 → (drawSalt s.rng).isSome) ∧
      (t.pc = .resp → ((s.pc = .e5 ∨ s.pc = .d6) ∧ t.status = some .ok) ∨ (s.pc = .resp ∧ t = s)) ∧
      (s.pc = .idle → t = s)) ∨
    ((s.pc = .d1 ∨ s.pc = .d2) ∧ t.pc = .resp ∧ t.status = some .formatError ∧ t.out = some []) ∨
    (s.pc = .d5 ∧ t.pc = .resp ∧ t.status = some .authenticationError ∧ t.out = some []) ∨
    (s.pc = .e1 ∧ drawSalt s.rng = none ∧ t = s)

/-- R57, R60: to the host a command is one transition: looking in after any number of its numbered steps and
letting it go on gives what running it through gives. -/
def Obligations.InterruptedCommandEndsAlike : Prop :=
  ∀ (s : State) (c : Command) (n : Nat), s.pc = .idle → inDomain c s.par →
    andThen (issueCommand c n s) (runSeq commandSteps) = issueCommand c commandSteps s

/-- R56, R59, R50: the unit operations other than `DERIVE` leave every byte of `KMEM`, every register of the
KDF unit, the ports and the step register as they are, and so does `DERIVE` with the AEAD engine's
registers and the ports. -/
def Obligations.UnitOperationsKeepToTheirRegisters : Prop :=
  ∀ (s t : State) (i : Instr),
    (i = .saltgen ∨ (∃ key pt, i = .aeadSeal key pt) ∨ (∃ key ctt, i = .aeadOpen key ctt) ∨
      (∃ raw, i = .b64enc raw) ∨ (∃ text, i = .b64dec text) ∨ (∃ pw salt, i = .derive pw salt)) →
    exec i s = .next t →
    t.pc = s.pc ∧ t.mode = s.mode ∧ t.pw = s.pw ∧ t.inp = s.inp ∧ t.status = s.status ∧ t.out = s.out ∧
    t.uop = s.uop ∧ t.par = s.par ∧ t.host = s.host ∧ t.received = s.received ∧
    (i ≠ .saltgen → t.rng = s.rng ∧ t.codec.salt = s.codec.salt) ∧
    ((∀ pw salt, i ≠ .derive pw salt) →
      t.codec.key = s.codec.key ∧ t.kdf = s.kdf ∧ ∀ a, t.kdf.kmem.read a = s.kdf.kmem.read a) ∧
    ((∀ key pt, i ≠ .aeadSeal key pt) → t.codec.ctt = s.codec.ctt) ∧
    ((∀ key ctt, i ≠ .aeadOpen key ctt) → t.codec.pt = s.codec.pt ∧ t.aead.tagOk = s.aead.tagOk) ∧
    ((∀ key pt, i ≠ .aeadSeal key pt) → (∀ key ctt, i ≠ .aeadOpen key ctt) → t.aead = s.aead) ∧
    ((∀ raw, i ≠ .b64enc raw) → t.codec.text = s.codec.text) ∧
    ((∀ text, i ≠ .b64dec text) → t.codec.raw = s.codec.raw ∧ t.codec.b64Ok = s.codec.b64Ok) ∧
    t.codec.lenOk = s.codec.lenOk

/-! ### Invariants that every step keeps -/

/-- R9, R24: no step changes an implementation parameter. -/
def Obligations.ParametersNeverChange : Prop :=
  ∀ s t : State, step s = .next t → t.par = s.par

/-- R36, R27: the state after reset obeys the discipline of the transient registers. -/
def Obligations.DisciplineHoldsAtReset : Prop := disciplined State.reset

/-- R27, R28, R34: every step keeps the discipline: at each label exactly the registers that earlier steps
of the command wrote hold a value, and between commands none does. -/
def Obligations.DisciplineIsKeptByEveryStep : Prop :=
  ∀ s t : State, disciplined s → step s = .next t → disciplined t

/-- R13, R27: in a state that obeys the discipline no step reads a register that holds no value. -/
def Obligations.DisciplinedStatesNeverFault : Prop :=
  ∀ (s : State) (f : Fault), disciplined s → step s ≠ .fault f

/-- R28 to R30: the widths hold at reset. -/
def Obligations.WidthsHoldAtReset : Prop := widthsHold State.reset

/-- R28 to R30: every step keeps the widths of all registers; those that R28 gives relative to a plaintext or to
another register at the labels of a command where both hold a value. -/
def Obligations.WidthsAreKeptByEveryStep : Prop :=
  ∀ s t : State, widthsHold s → step s = .next t → widthsHold t

/-- R50, R52: the work area is in canonical form at reset, and every step keeps it so. (The form is the
model's, log 6.) -/
def Obligations.WorkAreaStaysCanonical : Prop :=
  State.reset.kdf.kmem.wf ∧ ∀ s t : State, s.kdf.kmem.wf → step s = .next t → t.kdf.kmem.wf
end

