-- ==== Sys2Proof/Laws/Base64.lean ====
section
/-! SUPPORT. Laws of the text coder: the length of an encoding, when a body decodes to digit values, when these
regroup, and how many pads a text ends in. -/

namespace Sys2Proof.Laws

open Sys2Proof Sys2Proof.Machine

/-! ### The encoder -/

/-- The encoding of `n` bytes has `4 * ceil(n / 3)` characters (R161). -/
theorem b64enc_length (raw : Bytes) : (b64enc raw).length = 4 * ((raw.length + 2) / 3) := by
  fun_induction b64enc raw with
  | case1 b0 b1 b2 rest n ih => simp only [List.length_cons, ih]; omega
  | case2 => simp
  | case3 => simp
  | case4 => rfl

/-! ### The digit values of a body -/

/-- A body decodes to the values of its bytes, place by place. -/
theorem b64Values_getElem {body : Bytes} {vs : List Nat} (h : b64Values body = some vs) (i : Nat) :
    vs[i]? = body[i]?.bind b64Value := by
  induction body generalizing vs i with
  | nil => cases h; simp
  | cons b bs ih =>
    unfold b64Values at h
    split at h
    · rename_i v vs' hv hvs
      cases h
      cases i with
      | zero => simp [hv]
      | succ i => simpa using ih hvs i
    · cases h

theorem b64Values_length {body : Bytes} {vs : List Nat} (h : b64Values body = some vs) :
    vs.length = body.length := by
  induction body generalizing vs with
  | nil => cases h; rfl
  | cons b bs ih =>
    unfold b64Values at h
    split at h
    · rename_i v vs' hv hvs
      cases h
      simp [ih hvs]
    · cases h

/-- A body does not decode exactly if one of its bytes is no digit. -/
theorem b64Values_eq_none {body : Bytes} : b64Values body = none ↔ ∃ b ∈ body, b64Value b = none := by
  induction body with
  | nil => simp [b64Values]
  | cons b bs ih =>
    unfold b64Values
    rcases hv : b64Value b with _ | v <;> rcases hvs : b64Values bs with _ | vs <;> simp_all

/-! ### The regrouping -/

/-- The regrouping of these values leaves one over, or meets unused bits that are set under `reject`. -/
def GroupsFail (trailing : TrailingBits) (vs : List Nat) : Prop :=
  vs.length % 4 = 1 ∨ (trailing = .reject ∧ ∃ d, vs[vs.length - 1]? = some d ∧
    ((vs.length % 4 = 3 ∧ d % 4 ≠ 0) ∨ (vs.length % 4 = 2 ∧ d % 16 ≠ 0)))

/-- A full group in front changes nothing. -/
theorem groupsFail_cons {trailing : TrailingBits} {d0 d1 d2 d3 : Nat} {vs : List Nat} :
    GroupsFail trailing (d0 :: d1 :: d2 :: d3 :: vs) ↔ GroupsFail trailing vs := by
  unfold GroupsFail
  rw [show (d0 :: d1 :: d2 :: d3 :: vs).length = vs.length + 4 from rfl, Nat.add_mod_right]
  rcases vs with _ | ⟨v, vs⟩
  · simp
  · simp

/-- When the values of a body cannot be regrouped (R162). -/
theorem b64Groups_eq_none {trailing : TrailingBits} {vs : List Nat} :
    b64Groups trailing vs = none ↔ GroupsFail trailing vs := by
  fun_induction b64Groups trailing vs with
  | case1 d0 d1 d2 d3 rest n bs h ih => rw [groupsFail_cons, ← ih, h]; simp
  | case2 d0 d1 d2 d3 rest h ih => rw [groupsFail_cons, ← ih, h]
  | case3 d0 d1 d2 h => simp [GroupsFail, h.1, h.2]
  | case4 d0 d1 d2 n h => simp only [GroupsFail]; simp; tauto
  | case5 d0 d1 h => simp [GroupsFail, h.1, h.2]
  | case6 d0 d1 n h => simp only [GroupsFail]; simp; tauto
  | case7 d => simp [GroupsFail]
  | case8 => simp [GroupsFail]

/-- How many pads a text ends in, by its last two bytes. -/
theorem b64PadCount_cases (text : Bytes) :
    (b64PadCount text = 2 ∧ 2 ≤ text.length ∧ text[text.length - 2]? = some b64Pad ∧
      text[text.length - 1]? = some b64Pad) ∨
    (b64PadCount text = 1 ∧ 1 ≤ text.length ∧ text[text.length - 1]? = some b64Pad ∧
      (2 ≤ text.length → text[text.length - 2]? ≠ some b64Pad)) ∨
    (b64PadCount text = 0 ∧ text[text.length - 1]? ≠ some b64Pad) := by
  unfold b64PadCount
  split
  · rename_i h
    have h2 : 2 ≤ text.length := by have := congrArg List.length h; simp at this; omega
    have e0 := congrArg (·[0]?) h
    have e1 := congrArg (·[1]?) h
    simp only [List.getElem?_drop] at e0 e1
    refine .inl ⟨rfl, h2, by simpa using e0, ?_⟩
    rw [show text.length - 2 + 1 = text.length - 1 by omega] at e1
    simpa using e1
  · rename_i h2
    split
    · rename_i h
      have hl : 1 ≤ text.length := by have := congrArg List.length h; simp at this; omega
      have e0 := congrArg (·[0]?) h
      simp only [List.getElem?_drop] at e0
      have e0 : text[text.length - 1]? = some b64Pad := by simpa using e0
      refine .inr (.inl ⟨rfl, hl, e0, fun hl2 hp => h2 ?_⟩)
      rw [List.drop_eq_getElem_cons (by omega), List.drop_eq_getElem_cons (by omega)]
      have a0 := List.getElem?_eq_some_iff.1 hp
      have a1 := List.getElem?_eq_some_iff.1 e0
      obtain ⟨_, a0⟩ := a0
      obtain ⟨_, a1⟩ := a1
      simp only [a0, show text.length - 2 + 1 = text.length - 1 by omega, a1]
      simp
      omega
    · rename_i h1
      refine .inr (.inr ⟨rfl, fun hp => h1 ?_⟩)
      obtain ⟨hl, a1⟩ := List.getElem?_eq_some_iff.1 hp
      rw [List.drop_eq_getElem_cons hl, a1]
      simp
      omega

/-- The part of a text before its pads. -/
theorem b64dec_body_getElem (text : Bytes) (p i : Nat) :
    (text.take (text.length - p))[i]? = if i < text.length - p then text[i]? else none := by
  rw [List.getElem?_take]

end Sys2Proof.Laws
end

