-- ==== Sys2Proof/Laws/Memory.lean ====
section
/-! SUPPORT. Laws of the memory operations: reading after a write, and the canonical form. -/

namespace Sys2Proof.Laws
open Sys2Proof Sys2Proof.Machine

theorem mem_cellsAt {a : Nat} {bs : Bytes} {c : Host.Cell} (h : c ∈ cellsAt a bs) :
    a ≤ c.1 ∧ c.1 < a + bs.length := by
  induction bs generalizing a with
  | nil => simp [cellsAt] at h
  | cons b bs ih =>
    simp only [cellsAt, List.mem_cons] at h
    rcases h with rfl | h
    · simp
    · have := ih h; simp only [List.length_cons]; omega

theorem cellsAt_rising (a : Nat) (bs : Bytes) : (cellsAt a bs).Pairwise (fun x y => x.1 < y.1) := by
  induction bs generalizing a with
  | nil => simp [cellsAt]
  | cons b bs ih =>
    simp only [cellsAt, List.pairwise_cons]
    exact ⟨fun c hc => by have := mem_cellsAt hc; omega, ih _⟩

theorem find_cellsAt (a x : Nat) (bs : Bytes) :
    ((cellsAt a bs).find? fun c => c.1 == x).map (·.2) = if a ≤ x then bs[x - a]? else none := by
  induction bs generalizing a with
  | nil => simp [cellsAt]
  | cons b bs ih =>
    simp only [cellsAt, List.find?_cons]
    by_cases h : a = x
    · subst h; simp
    · have : (a == x) = false := by simpa using h
      simp only [this, ih]
      by_cases hx : a ≤ x
      · have e : x - a = (x - (a + 1)) + 1 := by omega
        have : a + 1 ≤ x := by omega
        rw [e]; simp [hx, this]
      · have : ¬ a + 1 ≤ x := by omega
        simp [hx, this]

theorem find_filter_of_imp {m : Memory} {p : Host.Cell → Bool} {x : Nat}
    (h : ∀ c : Host.Cell, c.1 = x → p c = true) :
    (m.filter p).find? (fun c => c.1 == x) = m.find? (fun c => c.1 == x) := by
  induction m with
  | nil => rfl
  | cons c m ih =>
    by_cases hp : p c
    · simp only [List.filter_cons, hp, if_true, List.find?_cons, ih]
    · have : c.1 ≠ x := fun e => hp (h c e)
      simp [hp, this, ih]

theorem find_filter_none {m : Memory} {p : Host.Cell → Bool} {x : Nat}
    (h : ∀ c : Host.Cell, c.1 = x → p c = false) :
    (m.filter p).find? (fun c => c.1 == x) = none := by
  simp only [List.find?_eq_none, List.mem_filter]
  rintro c ⟨-, hc⟩ he
  have := h c (by simpa using he)
  simp [this] at hc

/-- Reading a byte after a write: the byte written there, or what was there before. -/
theorem read_write (m : Memory) (a x : Nat) (bs : Bytes) :
    (m.write a bs).read x = if a ≤ x ∧ x < a + bs.length then bs[x - a]? else m.read x := by
  unfold Memory.write Memory.read
  rw [List.find?_append, List.find?_append]
  by_cases h1 : x < a
  · have e1 := find_filter_of_imp (m := m) (p := fun c => decide (c.1 < a)) (x := x) (by rintro c rfl; simpa using h1)
    have e2 := find_filter_none (m := m) (p := fun c => decide (a + bs.length ≤ c.1)) (x := x) (by rintro c rfl; simp; omega)
    have e3 := find_cellsAt a x bs
    simp only [show ¬ a ≤ x by omega, if_false, Option.map_eq_none_iff] at e3
    rw [e1, e2, e3]; simp [show ¬ (a ≤ x ∧ x < a + bs.length) by omega]
  · have e1 := find_filter_none (m := m) (p := fun c => decide (c.1 < a)) (x := x) (by rintro c rfl; simpa using h1)
    have e3 := find_cellsAt a x bs
    simp only [show a ≤ x by omega, if_true] at e3
    by_cases h2 : x < a + bs.length
    · have e2 := find_filter_none (m := m) (p := fun c => decide (a + bs.length ≤ c.1)) (x := x) (by rintro c rfl; simp; omega)
      rw [e1, e2]; simp [show a ≤ x by omega, h2, e3]
    · have e2 := find_filter_of_imp (m := m) (p := fun c => decide (a + bs.length ≤ c.1)) (x := x) (by rintro c rfl; simp; omega)
      rw [List.getElem?_eq_none (by omega), Option.map_eq_none_iff] at e3
      rw [e1, e2, e3]; simp [show ¬ (a ≤ x ∧ x < a + bs.length) by omega]

/-- A write inside `KMEM` keeps the canonical form. -/
theorem wf_write {m : Memory} (h : m.wf) {a : Nat} {bs : Bytes} (hb : a + bs.length ≤ Config.kmemBytes) :
    (m.write a bs).wf := by
  obtain ⟨h1, h2⟩ := h
  refine ⟨?_, ?_⟩
  · unfold Memory.write
    rw [List.pairwise_append, List.pairwise_append]
    refine ⟨⟨h1.filter _, cellsAt_rising _ _, ?_⟩, h1.filter _, ?_⟩
    · intro c hc d hd
      have := mem_cellsAt hd
      simp at hc; omega
    · intro c hc d hd
      simp only [List.mem_append, List.mem_filter, decide_eq_true_eq] at hc hd
      rcases hc with hc | hc
      · omega
      · have := mem_cellsAt hc; omega
  · intro c hc
    simp only [Memory.write, List.mem_append, List.mem_filter] at hc
    rcases hc with (hc | hc) | hc
    · exact h2 c hc.1
    · have := mem_cellsAt hc; omega
    · exact h2 c hc.1

theorem wf_nil : Memory.wf [] := by simp [Memory.wf]

/-- Two memories in canonical form that read alike are equal. -/
theorem eq_of_read_eq {m n : Memory} (hm : m.wf) (hn : n.wf) (h : ∀ a, m.read a = n.read a) : m = n := by
  obtain ⟨hm, -⟩ := hm
  obtain ⟨hn, -⟩ := hn
  induction m generalizing n with
  | nil =>
    cases n with
    | nil => rfl
    | cons d n => have := h d.1; simp [Memory.read] at this
  | cons c m ih =>
    cases n with
    | nil => have := h c.1; simp [Memory.read] at this
    | cons d n =>
      rw [List.pairwise_cons] at hm hn
      have nf : ∀ (l : Memory) (x : Nat), (∀ e ∈ l, x < e.1) → l.read x = none := by
        intro l x hl
        simp only [Memory.read, Option.map_eq_none_iff, List.find?_eq_none]
        intro e he; have := hl e he; simp; omega
      have hk : c.1 = d.1 := by
        rcases lt_trichotomy c.1 d.1 with hlt | heq | hgt
        · have := h c.1
          rw [nf (d :: n) c.1 (by intro e he; rcases List.mem_cons.1 he with rfl | he; exact hlt; have := hn.1 e he; omega)] at this
          simp [Memory.read] at this
        · exact heq
        · have := h d.1
          rw [nf (c :: m) d.1 (by intro e he; rcases List.mem_cons.1 he with rfl | he; exact hgt; have := hm.1 e he; omega)] at this
          simp [Memory.read] at this
      have hv : c.2 = d.2 := by
        have := h c.1; simp [Memory.read, hk] at this; exact this
      have : c = d := Prod.ext hk hv
      subst this
      congr 1
      refine ih ?_ hm.2 hn.2
      intro a
      by_cases ha : c.1 = a
      · subst ha; rw [nf m _ hm.1, nf n _ hn.1]
      · have := h a
        simpa [Memory.read, ha] using this

end Sys2Proof.Laws
end

