-- ==== Sys2Proof/Laws/Bytes.lean ====
section
/-! SUPPORT. Laws of the byte-order conversions (00_scope.md R12) and of the blocks of the work area
(20_memory.md R52). -/

namespace Sys2Proof.Laws

open Sys2Proof Sys2Proof.Machine

/-! ### Byte strings -/

@[simp] theorem leBytes_length (n v : Nat) : (leBytes n v).length = n := by simp [leBytes]

@[simp] theorem beBytes_length (n v : Nat) : (beBytes n v).length = n := by simp [beBytes]

@[simp] theorem zeroBytes_length (n : Nat) : (zeroBytes n).length = n := by simp [zeroBytes]

@[simp] theorem slice_length (b : Bytes) (i n : Nat) : (slice b i n).length = min n (b.length - i) := by
  simp [slice]

@[simp] theorem xorBytes_length (a b : Bytes) : (xorBytes a b).length = min a.length b.length := by
  simp [xorBytes]

theorem leBytes_succ (n v : Nat) : leBytes (n + 1) v = BitVec.ofNat 8 v :: leBytes n (v / 256) := by
  simp only [leBytes, List.range_succ_eq_map, List.map_cons, List.map_map, Nat.mul_zero, Nat.shiftRight_zero]
  congr 1
  refine List.map_congr_left fun k _ => ?_
  simp only [Function.comp, Nat.mul_succ]
  rw [show 8 * k + 8 = 8 + 8 * k by omega, Nat.shiftRight_add, Nat.shiftRight_eq_div_pow v 8]

/-- Reading back what `leBytes` wrote (R12). -/
theorem intLe_leBytes (n v : Nat) : intLe (leBytes n v) = v % 256 ^ n := by
  induction n generalizing v with
  | zero => simp [leBytes, intLe, Nat.mod_one]
  | succ n ih =>
    have e : v % 256 ^ (n + 1) = v % 256 + 256 * (v / 256 % 256 ^ n) := by
      rw [pow_succ']; exact Nat.mod_mul
    rw [leBytes_succ, intLe, List.foldr_cons, ← intLe, ih, BitVec.toNat_ofNat, e]

theorem intBe_eq_intLe_reverse (b : Bytes) : intBe b = intLe b.reverse := by
  simp only [intBe, intLe, List.foldr_reverse]
  congr 1; funext a x; omega

/-- Reading back what `beBytes` wrote (R12). -/
theorem intBe_beBytes (n v : Nat) : intBe (beBytes n v) = v % 256 ^ n := by
  rw [intBe_eq_intLe_reverse, beBytes, List.reverse_reverse, intLe_leBytes]

/-- A byte string is determined by its length and the number it denotes. -/
theorem leBytes_intLe (b : Bytes) : leBytes b.length (intLe b) = b := by
  induction b with
  | nil => rfl
  | cons x b ih =>
    rw [List.length_cons, leBytes_succ]
    have h1 : intLe (x :: b) = x.toNat + 256 * intLe b := rfl
    have hx := x.isLt
    rw [h1, show (x.toNat + 256 * intLe b) / 256 = intLe b by omega, ih]
    congr 1
    apply BitVec.eq_of_toNat_eq
    simp only [BitVec.toNat_ofNat]; omega

@[simp] theorem wordsOfBytes_length (n : Nat) (b : Bytes) : (wordsOfBytes n b).length = n := by
  simp [wordsOfBytes]

@[simp] theorem bytesOfWords_length (ws : List Word64) : (bytesOfWords ws).length = 8 * ws.length := by
  induction ws with
  | nil => rfl
  | cons w ws ih =>
    have e : bytesOfWords (w :: ws) = leBytes 8 w.toNat ++ bytesOfWords ws := rfl
    simp [e, ih]; omega

/-- Words written as bytes read back as themselves (R52, R120). -/
theorem wordsOfBytes_bytesOfWords (ws : List Word64) : wordsOfBytes ws.length (bytesOfWords ws) = ws := by
  induction ws with
  | nil => rfl
  | cons w ws ih =>
    have e : bytesOfWords (w :: ws) = leBytes 8 w.toNat ++ bytesOfWords ws := rfl
    rw [List.length_cons, wordsOfBytes, List.range_succ_eq_map, List.map_cons, List.map_map, e]
    refine List.cons_eq_cons.2 ⟨?_, ?_⟩
    · have h : slice (leBytes 8 w.toNat ++ bytesOfWords ws) (8 * 0) 8 = leBytes 8 w.toNat := by
        rw [slice, Nat.mul_zero, List.drop_zero]
        exact List.take_left' (leBytes_length 8 _)
      rw [le64At, h, intLe_leBytes, Nat.mod_eq_of_lt (by have := w.isLt; omega), BitVec.ofNat_toNat,
        BitVec.setWidth_eq]
    · refine Eq.trans ?_ ih
      rw [wordsOfBytes]
      refine List.map_congr_left fun k _ => ?_
      simp only [Function.comp, le64At, slice]
      have h : (leBytes 8 w.toNat ++ bytesOfWords ws).drop (8 * (k + 1)) = (bytesOfWords ws).drop (8 * k) := by
        rw [List.drop_append, leBytes_length, List.drop_of_length_le (by simp)]
        rw [List.nil_append, show 8 * (k + 1) - 8 = 8 * k by omega]
      rw [Nat.succ_eq_add_one, h]

/-! ### Blocks of the work area -/

@[simp] theorem readBlock_length (m : Memory) (k : Nat) : (readBlock m k).length = 128 := by simp [readBlock]

/-- One byte after a block of 128 words has been stored. -/
theorem read_writeBlock (m : Memory) (k x : Nat) (ws : List Word64) (h : ws.length = 128) :
    (writeBlock m k ws).read x =
      if 1024 * k ≤ x ∧ x < 1024 * k + 1024 then (bytesOfWords ws)[x - 1024 * k]? else m.read x := by
  rw [writeBlock, read_write, bytesOfWords_length, h]

/-- A byte outside the stored block is as before. -/
theorem read_writeBlock_outside (m : Memory) (k x : Nat) (ws : List Word64) (h : ws.length = 128)
    (hx : x / 1024 ≠ k) : (writeBlock m k ws).read x = m.read x := by
  rw [read_writeBlock m k x ws h, if_neg (by omega)]

/-- Storing a block inside `KMEM` keeps the canonical form. -/
theorem wf_writeBlock {m : Memory} (hm : m.wf) {k : Nat} {ws : List Word64} (h : ws.length = 128)
    (hk : k < 262144) : (writeBlock m k ws).wf :=
  wf_write hm (by rw [bytesOfWords_length, h, Config.kmemBytes]; omega)

/-- What a block reads as depends on its own bytes alone. -/
theorem readBlock_congr {m n : Memory} {k : Nat}
    (h : ∀ x, x / 1024 = k → m.read x = n.read x) : readBlock m k = readBlock n k := by
  have e : ∀ b ∈ List.range 1024, m.fetch (1024 * k + b) = n.fetch (1024 * k + b) := fun b hb => by
    have := List.mem_range.1 hb
    rw [Memory.fetch, Memory.fetch, h (1024 * k + b) (by omega)]
  exact congrArg (wordsOfBytes 128) (List.map_congr_left e)

end Sys2Proof.Laws
end

