-- ==== Sys2Proof/Laws/Engines.lean ====
section
/-! SUPPORT. Laws of the engines: the S-box table against its rule, and the lengths of everything the AES, GCM
and BLAKE2b functions answer. -/
namespace Sys2Proof.Laws

open Sys2Proof Sys2Proof.Machine
open Sys2Proof.Config (KdfProfile kdfProfile)

/-! ### AES -/

/-- The table of R213 is the S-box of R212. -/
theorem sbox_eq_rule : ∀ a, sbox a = sboxRule a := by decide +kernel

/-- `gf8Inv` is the multiplicative inverse (R212). -/
theorem gf8Mul_gf8Inv : ∀ a : Byte, a ≠ 0#8 → gf8Mul a (gf8Inv a) = 1#8 := by decide +kernel

@[simp] theorem subBytes_length (s : Bytes) : (subBytes s).length = s.length := by simp [subBytes]
@[simp] theorem shiftRows_length (s : Bytes) : (shiftRows s).length = 16 := by simp [shiftRows]
@[simp] theorem mixColumns_length (s : Bytes) : (mixColumns s).length = 16 := rfl
@[simp] theorem addRoundKey_length (s rk : Bytes) : (addRoundKey s rk).length = 16 := by simp [addRoundKey]
@[simp] theorem aes256_length (rks : List Bytes) (x : Bytes) : (aes256 rks x).length = 16 := by simp [aes256]

@[simp] theorem rconWord_length (j : Nat) : (rconWord j).length = 4 := rfl

theorem expandTerm_length {i : Nat} {t : Bytes} (h : t.length = 4) : (expandTerm i t).length = 4 := by
  unfold expandTerm
  split
  · simp [subWord, rotWord, h]
  · split <;> simp [subWord, h]

theorem expandWord_words {w : List Bytes} {i : Nat} (hw : ∀ x ∈ w, x.length = 4) (hi : 8 ≤ i)
    (hl : w.length = i) : (∀ x ∈ expandWord w i, x.length = 4) ∧ (expandWord w i).length = i + 1 := by
  have g : ∀ j, j < i → (w.getD j []).length = 4 := fun j hj => by
    rw [List.getD_eq_getElem w [] (by omega)]
    exact hw _ (List.getElem_mem _)
  refine ⟨fun x hx => ?_, by simp [expandWord, hl]⟩
  simp only [expandWord, List.mem_append, List.mem_singleton] at hx
  rcases hx with hx | rfl
  · exact hw x hx
  · rw [xorBytes_length, g (i - 8) (by omega), expandTerm_length (g (i - 1) (by omega))]; rfl

theorem expandedWords_words {key : Bytes} (h : key.length = 32) :
    (∀ x ∈ expandedWords key, x.length = 4) ∧ (expandedWords key).length = 60 := by
  have step : ∀ n (w : List Bytes) i, (∀ x ∈ w, x.length = 4) → 8 ≤ i → w.length = i →
      (∀ x ∈ (List.range' i n).foldl expandWord w, x.length = 4) ∧
        ((List.range' i n).foldl expandWord w).length = i + n := by
    intro n
    induction n with
    | zero => intro w i hw _ hl; exact ⟨hw, hl⟩
    | succ n ih =>
      intro w i hw hi hl
      rw [List.range'_succ, List.foldl_cons]
      have := expandWord_words hw hi hl
      obtain ⟨a, b⟩ := ih _ (i + 1) this.1 (by omega) this.2
      exact ⟨a, by rw [b]; omega⟩
  refine step 52 _ 8 (fun x hx => ?_) (le_refl _) (by simp)
  simp only [List.mem_map, List.mem_range] at hx
  obtain ⟨i, hi, rfl⟩ := hx
  simp [h]; omega

/-- Fifteen round keys of 16 bytes (R214). -/
theorem keyExpansion_widths {key : Bytes} (h : key.length = 32) :
    (keyExpansion key).length = 15 ∧ ∀ k ∈ keyExpansion key, k.length = 16 := by
  obtain ⟨hw, hl⟩ := expandedWords_words h
  refine ⟨by simp [keyExpansion], fun k hk => ?_⟩
  simp only [keyExpansion, List.mem_map, List.mem_range] at hk
  obtain ⟨r, hr, rfl⟩ := hk
  have hs : ∀ x ∈ ((expandedWords key).drop (4 * r)).take 4, x.length = 4 := fun x hx =>
    hw x (List.mem_of_mem_drop (List.mem_of_mem_take hx))
  rw [List.length_flatten, List.map_congr_left (g := fun _ => 4) (fun x hx => hs x hx), List.map_const',
    List.sum_replicate, List.length_take, List.length_drop, hl, smul_eq_mul]
  omega

/-! ### GCM -/

theorem inc32_length {cb : Bytes} (h : cb.length = 16) : (inc32 cb).length = 16 := by
  simp [inc32, h]

@[simp] theorem preCounter_length : preCounter.length = 16 := rfl

theorem counterAfter_length {icb : Bytes} (h : icb.length = 16) (n : Nat) :
    (counterAfter icb n).length = 16 := by
  induction n with
  | zero => exact h
  | succ n ih => exact inc32_length ih

@[simp] theorem ghash_length (h data : Bytes) : (ghash h data).length = 16 := by simp [ghash, blockOfElem]

@[simp] theorem tagHash_length (h ct : Bytes) : (tagHash h ct).length = 16 := by simp [tagHash]

theorem gctrBlocks_length (rks : List Bytes) (m : Nat) (cb x : Bytes) :
    (gctrBlocks rks m cb x).length = min (16 * m) x.length := by
  induction m generalizing cb x with
  | zero => simp [gctrBlocks]
  | succ m ih => simp [gctrBlocks, ih]; omega

@[simp] theorem gctr_length (rks : List Bytes) (icb x : Bytes) : (gctr rks icb x).length = x.length := by
  simp only [gctr, gctrBlocks_length, ceilDiv]; omega

@[simp] theorem cryptData_length (key x : Bytes) : (cryptData key x).length = x.length := by simp [cryptData]

@[simp] theorem tagFor_length (key ct : Bytes) : (tagFor key ct).length = 16 := by simp [tagFor, tagOf]

@[simp] theorem sealBytes_length (key pt : Bytes) : (sealBytes key pt).length = pt.length + 16 := by
  simp [sealBytes]

/-- Splitting `ct ‖ tag` gives `ct` and `tag` (R77). -/
theorem cttData_append {ct tag : Bytes} (h : tag.length = 16) : cttData (ct ++ tag) = ct := by
  simp [cttData, slice, h]

theorem cttTag_append {ct tag : Bytes} (h : tag.length = 16) : cttTag (ct ++ tag) = tag := by
  simp [cttTag, slice, h, List.take_of_length_le]

/-! ### BLAKE2b -/

theorem setFour_length (v : List Word64) (p w) : (setFour v p w).length = v.length := by simp [setFour]

theorem mix_length (v : List Word64) (p) (x y : Word64) : (mix v p x y).length = v.length := setFour_length _ _ _

theorem gb_length (v : List Word64) (p) : (gb v p).length = v.length := setFour_length _ _ _

/-- A fold whose step keeps the length keeps it. -/
theorem foldl_length {α β : Type} (f : List α → β → List α) (h : ∀ v b, (f v b).length = v.length)
    (l : List β) (v : List α) : (l.foldl f v).length = v.length := by
  induction l generalizing v with
  | nil => rfl
  | cons b l ih => rw [List.foldl_cons, ih, h]

theorem blakeRound_length (m v : List Word64) (r : Nat) : (blakeRound m v r).length = v.length :=
  foldl_length _ (fun _ _ => mix_length _ _ _ _) _ _

@[simp] theorem blakeCompress_h (h : List Word64) (block : Bytes) (t : Nat) (last : Bool) :
    (blakeCompress h block t last).h.length = 8 := by simp [blakeCompress]

@[simp] theorem blakeCompress_m (h : List Word64) (block : Bytes) (t : Nat) (last : Bool) :
    (blakeCompress h block t last).m.length = 16 := by simp [blakeCompress]

theorem blakeCompress_v (h : List Word64) (block : Bytes) (t : Nat) (last : Bool) :
    (blakeCompress h block t last).v.length = h.length + 8 := by
  simp only [blakeCompress]
  rw [foldl_length _ (fun _ _ => blakeRound_length _ _ _)]
  simp [blakeStart]

theorem blakeChain_length (data : Bytes) (l : List Nat) (h : List Word64) (hh : h.length = 8) :
    (l.foldl (fun h i => (blakeCompress h (slice data (128 * i) 128) (128 * (i + 1)) false).h) h).length = 8 := by
  induction l generalizing h with
  | nil => exact hh
  | cons i l ih => exact ih _ (blakeCompress_h _ _ _ _)

/-- The registers of a run have their widths (R30). -/
theorem blakeRun_widths (data : Bytes) (nn : Nat) :
    (blakeRun data nn).h.length = 8 ∧ (blakeRun data nn).v.length = 16 ∧ (blakeRun data nn).m.length = 16 := by
  refine ⟨blakeCompress_h _ _ _ _, ?_, blakeCompress_m _ _ _ _⟩
  have hi : (blakeInit nn).length = 8 := by simp [blakeInit, blakeIv]
  show (blakeCompress _ _ _ _).v.length = 16
  rw [blakeCompress_v, blakeChain_length data _ _ hi]

theorem blake2b_length_min (data : Bytes) (nn : Nat) : (blake2b data nn).length = min nn 64 := by
  rw [blake2b, List.length_take, bytesOfWords_length, (blakeRun_widths data nn).1]

/-! ### The block compression -/

theorem permP_length (v : List Word64) : (permP v).length = v.length :=
  foldl_length _ gb_length _ _

theorem permAt_length (q : List Word64) (idx : List Nat) : (permAt q idx).length = q.length :=
  foldl_length _ (fun _ _ => by simp) _ _

theorem compressG_length (x y : List Word64) : (compressG x y).length = min x.length y.length := by
  simp only [compressG, xorBlock, List.length_zipWith]
  rw [foldl_length _ (fun _ _ => permAt_length _ _), foldl_length _ (fun _ _ => permAt_length _ _)]
  simp

end Sys2Proof.Laws
end

