-- ==== Sys2Proof/Laws/Kdf.lean ====
section
/-! SUPPORT. Laws of the key derivation: induction over the filling of the work area, what one block does,
the canonical form and the widths of the registers it leaves. -/

namespace Sys2Proof.Laws

open Sys2Proof Sys2Proof.Machine
open Sys2Proof.Config (KdfProfile kdfProfile)

/-! ### The geometry of the fixed profile -/

@[simp] theorem columns_core : columns kdfProfile = 65536 := by decide
@[simp] theorem segmentLen_core : segmentLen kdfProfile = 16384 := by decide
@[simp] theorem lanes_core : kdfProfile.lanes = 4 := rfl

theorem firstIndex_le (r s : Nat) : firstIndex r s ≤ 2 := by unfold firstIndex; split <;> omega

/-! ### Induction over the filling -/

/-- A property kept by every step of a fold over a list is kept by the fold. -/
theorem foldl_keeps {α β : Type} {f : α → β → α} {P : α → Prop} {l : List β}
    (h : ∀ a, ∀ b ∈ l, P a → P (f a b)) {a : α} (ha : P a) : P (l.foldl f a) := by
  induction l generalizing a with
  | nil => exact ha
  | cons b l ih =>
    exact ih (fun a b' hb' => h a b' (List.mem_cons_of_mem _ hb')) (h a b List.mem_cons_self ha)

/-- The registers at the start of a segment (R98, R100). -/
def segmentStart (P : KdfProfile) (r s l : Nat) (k : KdfRegs) : KdfRegs :=
  { k with
    pass := some r, slice := some s, lane := some l
    z := if independent r s then some (addressInput P r s l) else k.z }

/-- What holds before a segment, at its start and after each of its blocks, holds after it. -/
theorem fillSegment_keeps {P : KdfRegs → Prop} {r s l : Nat} {k : KdfRegs}
    (h0 : P (segmentStart kdfProfile r s l k))
    (hb : ∀ k i, firstIndex r s ≤ i → i < 16384 → P k → P (fillBlock kdfProfile r s l k i)) :
    P (fillSegment kdfProfile r s k l) := by
  refine foldl_keeps (fun k i hi hk => hb k i ?_ ?_ hk) h0
  · exact (List.mem_range'_1.1 hi).1
  · have h1 := (List.mem_range'_1.1 hi).2
    have h2 := firstIndex_le r s
    rw [segmentLen_core] at h1
    omega

/-- What the start of a segment and every block keep, the filling in any order of the lanes keeps. -/
theorem fillInOrder_keeps {P : KdfRegs → Prop} {order : Nat → Nat → List Nat}
    (hl : ∀ r s, ∀ l ∈ order r s, l < 4)
    (h0 : ∀ k r s l, r < 8 → s < 4 → l < 4 → P k → P (segmentStart kdfProfile r s l k))
    (hb : ∀ k r s l i, r < 8 → s < 4 → l < 4 → firstIndex r s ≤ i → i < 16384 → P k →
      P (fillBlock kdfProfile r s l k i))
    {k : KdfRegs} (hk : P k) : P (fillInOrder kdfProfile order k) :=
  foldl_keeps (fun _ r hr hk => foldl_keeps (fun _ s hs hk => foldl_keeps (fun k l hm hk =>
    have hr := List.mem_range.1 hr
    have hs := List.mem_range.1 hs
    have hl := hl r s l hm
    fillSegment_keeps (h0 k r s l hr hs hl hk) (fun k i h1 h2 => hb k r s l i hr hs hl h1 h2)) hk) hk) hk

/-- What the first columns, the start of a segment and every block keep holds after the filling. -/
theorem deriveFill_keeps {P : KdfRegs → Prop} {order : Nat → Nat → List Nat} {pw salt : Bytes} {k : KdfRegs}
    (hl : ∀ r s, ∀ l ∈ order r s, l < 4)
    (hk : P { k with h0 := some (initialHash kdfProfile pw salt) })
    (hc : ∀ k l j, l < 4 → j < 2 → P k →
      P (setB kdfProfile k l j (firstBlock (initialHash kdfProfile pw salt) j l)))
    (h0 : ∀ k r s l, r < 8 → s < 4 → l < 4 → P k → P (segmentStart kdfProfile r s l k))
    (hb : ∀ k r s l i, r < 8 → s < 4 → l < 4 → firstIndex r s ≤ i → i < 16384 → P k →
      P (fillBlock kdfProfile r s l k i)) :
    P (deriveFill kdfProfile order pw salt k) :=
  fillInOrder_keeps hl h0 hb (foldl_keeps (fun k l hm hk =>
    hc _ l 1 (List.mem_range.1 hm) (by omega) (hc k l 0 (List.mem_range.1 hm) (by omega) hk)) hk)

theorem laneOrder_lt (r s : Nat) : ∀ l ∈ laneOrder kdfProfile r s, l < 4 := fun l h => by
  simpa [laneOrder] using h

/-! ### One block -/

@[simp] theorem getB_length (P : KdfProfile) (k : KdfRegs) (l j : Nat) : (getB P k l j).length = 128 :=
  readBlock_length _ _

@[simp] theorem firstBlock_length (h0 : Bytes) (j l : Nat) : (firstBlock h0 j l).length = 128 :=
  wordsOfBytes_length _ _

@[simp] theorem xorBlock_length (x y : List Word64) : (xorBlock x y).length = min x.length y.length := by
  simp [xorBlock]

@[simp] theorem zeroBlock_length : zeroBlock.length = 128 := by simp [zeroBlock]

@[simp] theorem addressInput_length (P : KdfProfile) (r s l : Nat) : (addressInput P r s l).length = 128 := by
  simp [addressInput]

/-- A block that is written lies in its place: column `s · 16384 + i` of its lane, inside `KMEM`. -/
theorem column_lt {s i : Nat} (hs : s < 4) (hi : i < 16384) : s * segmentLen kdfProfile + i < 65536 := by
  rw [segmentLen_core]; omega

/-- What one block does: it is written at its own place, 128 words, and of the registers only `Z` and `ADDR`
and the index change. -/
theorem fillBlock_eq (P : KdfProfile) (r s l : Nat) (k : KdfRegs) (i : Nat) :
    ∃ ws, ws.length = 128 ∧
      fillBlock P r s l k i =
        { (if needsAddresses r s i then nextAddresses k else k) with
          kmem := writeBlock k.kmem (blockIndex P l (s * segmentLen P + i)) ws, index := some i } := by
  by_cases hn : needsAddresses r s i = true
  all_goals
    simp only [fillBlock, hn, if_true, Bool.false_eq_true, if_false]
    refine ⟨_, ?_, rfl⟩
    split <;> simp [compressG_length]

theorem wf_setB {k : KdfRegs} (hk : k.kmem.wf) {l j : Nat} {ws : List Word64} (hl : l < 4) (hj : j < 65536)
    (hw : ws.length = 128) : (setB kdfProfile k l j ws).kmem.wf :=
  wf_writeBlock hk hw (by simp [blockIndex]; omega)

/-- The filling keeps the work area canonical. -/
theorem wf_deriveFill {order : Nat → Nat → List Nat} (hl : ∀ r s, ∀ l ∈ order r s, l < 4) {pw salt : Bytes}
    {k : KdfRegs} (hk : k.kmem.wf) : (deriveFill kdfProfile order pw salt k).kmem.wf := by
  refine deriveFill_keeps (P := fun k => k.kmem.wf) hl hk (fun k l j h1 h2 h => ?_) (fun _ _ _ _ _ _ _ h => h)
    (fun k r s l i h1 h2 h3 _ h5 h => ?_)
  · exact wf_setB h h1 (by omega) (by simp)
  · obtain ⟨ws, hw, he⟩ := fillBlock_eq kdfProfile r s l k i
    rw [he]
    exact wf_writeBlock h hw (by simp [blockIndex]; omega)

theorem forall_mem_some {α : Type} {P : α → Prop} {x : α} : (∀ y ∈ some x, P y) ↔ P x := by simp

/-- The registers of the KDF unit that the filling writes have their widths and ranges. -/
def fillWidths (k : KdfRegs) : Prop :=
  (∀ z ∈ k.z, z.length = 128) ∧ (∀ a ∈ k.addr, a.length = 128) ∧
  (∀ r ∈ k.pass, r < 8) ∧ (∀ s ∈ k.slice, s < 4) ∧ (∀ l ∈ k.lane, l < 4) ∧ (∀ i ∈ k.index, i < 16384)

theorem nextAddresses_widths {k : KdfRegs} (h : ∀ z ∈ k.z, z.length = 128) :
    (∀ z ∈ (nextAddresses k).z, z.length = 128) ∧ (∀ a ∈ (nextAddresses k).addr, a.length = 128) := by
  have hz : (k.z.getD zeroBlock).length = 128 := by
    cases hk : k.z with
    | none => simp
    | some z => exact h z hk
  simp only [nextAddresses]
  constructor
  · intro z hm; obtain rfl := Option.mem_some_iff.1 hm; simp [hz]
  · intro a hm; obtain rfl := Option.mem_some_iff.1 hm; simp [compressG_length, hz]

theorem fillWidths_deriveFill {order : Nat → Nat → List Nat} (hl : ∀ r s, ∀ l ∈ order r s, l < 4)
    {pw salt : Bytes} {k : KdfRegs} (hk : fillWidths k) :
    fillWidths (deriveFill kdfProfile order pw salt k) := by
  refine deriveFill_keeps (P := fillWidths) hl hk (fun _ _ _ _ _ h => h) (fun k r s l hr hs hl h => ?_)
    (fun k r s l i _ _ _ _ hi h => ?_)
  · obtain ⟨hz, ha, -, -, -, hi⟩ := h
    refine ⟨fun z hm => ?_, ha, ?_, ?_, ?_, hi⟩
    · simp only [segmentStart] at hm
      split at hm
      · obtain rfl := Option.mem_some_iff.1 hm; simp
      · exact hz z hm
    all_goals intro x hm; obtain rfl := Option.mem_some_iff.1 hm; assumption
  · obtain ⟨ws, -, he⟩ := fillBlock_eq kdfProfile r s l k i
    rw [he]
    obtain ⟨hz, ha, h3, h4, h5, -⟩ := h
    split
    · obtain ⟨hz', ha'⟩ := nextAddresses_widths hz
      exact ⟨hz', ha', h3, h4, h5, fun x hm => by obtain rfl := Option.mem_some_iff.1 hm; exact hi⟩
    · exact ⟨hz, ha, h3, h4, h5, fun x hm => by obtain rfl := Option.mem_some_iff.1 hm; exact hi⟩

/-- The filling leaves `H0` as computed and the registers of `Finalize` alone. -/
theorem deriveFill_rest {order : Nat → Nat → List Nat} (hl : ∀ r s, ∀ l ∈ order r s, l < 4)
    {pw salt : Bytes} {k : KdfRegs} :
    (deriveFill kdfProfile order pw salt k).h0 = some (initialHash kdfProfile pw salt) ∧
      (deriveFill kdfProfile order pw salt k).c = k.c := by
  refine deriveFill_keeps (P := fun k' => k'.h0 = some (initialHash kdfProfile pw salt) ∧ k'.c = k.c)
    hl ⟨rfl, rfl⟩ (fun _ _ _ _ _ h => h) (fun _ _ _ _ _ _ _ h => h) (fun k' r s l i _ _ _ _ _ h => ?_)
  obtain ⟨ws, -, he⟩ := fillBlock_eq kdfProfile r s l k' i
  rw [he]
  split <;> exact h

theorem lastColumn_length (P : KdfProfile) (k : KdfRegs) : (lastColumn P k).length = 128 :=
  foldl_keeps (P := fun c : List Word64 => c.length = 128) (fun c l _ h => by simp [h]) (by simp)

theorem blake2b_length {data : Bytes} {nn : Nat} (h : nn ≤ 64) : (blake2b data nn).length = nn := by
  rw [blake2b_length_min]; omega

@[simp] theorem finalRegs_h0 (P : KdfProfile) (k : KdfRegs) : (finalRegs P k).h0 = k.h0 := rfl

@[simp] theorem finalRegs_c (P : KdfProfile) (k : KdfRegs) : (finalRegs P k).c = some (lastColumn P k) := rfl

@[simp] theorem finalRegs_kmem (P : KdfProfile) (k : KdfRegs) : (finalRegs P k).kmem = k.kmem := rfl

/-- A key is 32 bytes (R90). -/
theorem deriveKeyFrom_length (pw salt : Bytes) (k : KdfRegs) :
    (deriveKeyFrom kdfProfile pw salt k).length = 32 := by
  simp [deriveKeyFrom, finalKey, hPrime, kdfProfile, blake2b_length]

theorem initialHash_length (P : KdfProfile) (pw salt : Bytes) : (initialHash P pw salt).length = 64 := by
  unfold initialHash
  exact blake2b_length (Nat.le_refl 64)

theorem kdfWidths_finalRegs {k : KdfRegs} (h0 : ∀ b ∈ k.h0, b.length = 64) (hf : fillWidths k) :
    kdfWidths (finalRegs kdfProfile k) := by
  obtain ⟨f1, f2, f3, f4, f5, f6⟩ := hf
  unfold finalRegs
  have hb := blakeRun_widths (leBytes 4 kdfProfile.outLen ++ bytesOfWords (lastColumn kdfProfile k))
    kdfProfile.outLen
  generalize blakeRun (leBytes 4 kdfProfile.outLen ++ bytesOfWords (lastColumn kdfProfile k))
    kdfProfile.outLen = b at hb
  have hc := lastColumn_length kdfProfile k
  generalize lastColumn kdfProfile k = c at hc
  exact ⟨h0, f1, f2, forall_mem_some.2 hc, f3, f4, f5, f6, forall_mem_some.2 hb.1,
    forall_mem_some.2 hb.2.1, forall_mem_some.2 hb.2.2⟩

/-- After `DERIVE` the KDF unit's registers have their widths. -/
theorem kdfWidths_unitDerive {pw salt : Bytes} {s : State} (h : kdfWidths s.kdf) :
    kdfWidths (unitDerive pw salt s).kdf := by
  obtain ⟨h0, hz, ha, hc, h1, h2, h3, h4, h5, h6, h7⟩ := h
  refine kdfWidths_finalRegs (fun b hm => ?_) (fillWidths_deriveFill laneOrder_lt ⟨hz, ha, h1, h2, h3, h4⟩)
  rw [(deriveFill_rest laneOrder_lt).1, Option.mem_some_iff] at hm
  rw [← hm]
  exact initialHash_length _ _ _

end Sys2Proof.Laws
end

