-- ==== Sys2Proof/Laws/State.lean ====
section
/-! SUPPORT. One lemma per field of State and per update of State, so that no proof unfolds a record
update. -/

namespace Sys2Proof.Laws

open Sys2Proof Sys2Proof.Machine

/-! ### clearTransients -/

@[simp] theorem clearTransients_pc (s : State) :
    (clearTransients s).pc = s.pc := rfl
@[simp] theorem clearTransients_mode (s : State) :
    (clearTransients s).mode = s.mode := rfl
@[simp] theorem clearTransients_pw (s : State) :
    (clearTransients s).pw = s.pw := rfl
@[simp] theorem clearTransients_inp (s : State) :
    (clearTransients s).inp = s.inp := rfl
@[simp] theorem clearTransients_status (s : State) :
    (clearTransients s).status = s.status := rfl
@[simp] theorem clearTransients_out (s : State) :
    (clearTransients s).out = s.out := rfl
@[simp] theorem clearTransients_codec (s : State) :
    (clearTransients s).codec = {} := rfl
@[simp] theorem clearTransients_aead (s : State) :
    (clearTransients s).aead = {} := rfl
@[simp] theorem clearTransients_kdf (s : State) :
    (clearTransients s).kdf = {} := rfl
@[simp] theorem clearTransients_uop (s : State) :
    (clearTransients s).uop = s.uop := rfl
@[simp] theorem clearTransients_par (s : State) :
    (clearTransients s).par = s.par := rfl
@[simp] theorem clearTransients_rng (s : State) :
    (clearTransients s).rng = s.rng := rfl
@[simp] theorem clearTransients_host (s : State) :
    (clearTransients s).host = s.host := rfl
@[simp] theorem clearTransients_received (s : State) :
    (clearTransients s).received = s.received := rfl

/-! ### raise -/

@[simp] theorem raise_pc (k : ErrorKind) (s : State) :
    (raise k s).pc = .resp := rfl
@[simp] theorem raise_mode (k : ErrorKind) (s : State) :
    (raise k s).mode = s.mode := rfl
@[simp] theorem raise_pw (k : ErrorKind) (s : State) :
    (raise k s).pw = s.pw := rfl
@[simp] theorem raise_inp (k : ErrorKind) (s : State) :
    (raise k s).inp = s.inp := rfl
@[simp] theorem raise_status (k : ErrorKind) (s : State) :
    (raise k s).status = some (statusOfKind k) := rfl
@[simp] theorem raise_out (k : ErrorKind) (s : State) :
    (raise k s).out = some [] := rfl
@[simp] theorem raise_codec (k : ErrorKind) (s : State) :
    (raise k s).codec = {} := rfl
@[simp] theorem raise_aead (k : ErrorKind) (s : State) :
    (raise k s).aead = {} := rfl
@[simp] theorem raise_kdf (k : ErrorKind) (s : State) :
    (raise k s).kdf = {} := rfl
@[simp] theorem raise_uop (k : ErrorKind) (s : State) :
    (raise k s).uop = s.uop := rfl
@[simp] theorem raise_par (k : ErrorKind) (s : State) :
    (raise k s).par = s.par := rfl
@[simp] theorem raise_rng (k : ErrorKind) (s : State) :
    (raise k s).rng = s.rng := rfl
@[simp] theorem raise_host (k : ErrorKind) (s : State) :
    (raise k s).host = s.host := rfl
@[simp] theorem raise_received (k : ErrorKind) (s : State) :
    (raise k s).received = s.received := rfl

/-! ### respond -/

@[simp] theorem respond_pc (o : Bytes) (s : State) :
    (respond o s).pc = .resp := rfl
@[simp] theorem respond_mode (o : Bytes) (s : State) :
    (respond o s).mode = s.mode := rfl
@[simp] theorem respond_pw (o : Bytes) (s : State) :
    (respond o s).pw = s.pw := rfl
@[simp] theorem respond_inp (o : Bytes) (s : State) :
    (respond o s).inp = s.inp := rfl
@[simp] theorem respond_status (o : Bytes) (s : State) :
    (respond o s).status = some .ok := rfl
@[simp] theorem respond_out (o : Bytes) (s : State) :
    (respond o s).out = some o := rfl
@[simp] theorem respond_codec (o : Bytes) (s : State) :
    (respond o s).codec = {} := rfl
@[simp] theorem respond_aead (o : Bytes) (s : State) :
    (respond o s).aead = {} := rfl
@[simp] theorem respond_kdf (o : Bytes) (s : State) :
    (respond o s).kdf = {} := rfl
@[simp] theorem respond_uop (o : Bytes) (s : State) :
    (respond o s).uop = s.uop := rfl
@[simp] theorem respond_par (o : Bytes) (s : State) :
    (respond o s).par = s.par := rfl
@[simp] theorem respond_rng (o : Bytes) (s : State) :
    (respond o s).rng = s.rng := rfl
@[simp] theorem respond_host (o : Bytes) (s : State) :
    (respond o s).host = s.host := rfl
@[simp] theorem respond_received (o : Bytes) (s : State) :
    (respond o s).received = s.received := rfl

/-! ### returnToIdle -/

@[simp] theorem returnToIdle_pc (s : State) :
    (returnToIdle s).pc = .idle := rfl
@[simp] theorem returnToIdle_mode (s : State) :
    (returnToIdle s).mode = none := rfl
@[simp] theorem returnToIdle_pw (s : State) :
    (returnToIdle s).pw = none := rfl
@[simp] theorem returnToIdle_inp (s : State) :
    (returnToIdle s).inp = none := rfl
@[simp] theorem returnToIdle_status (s : State) :
    (returnToIdle s).status = none := rfl
@[simp] theorem returnToIdle_out (s : State) :
    (returnToIdle s).out = none := rfl
@[simp] theorem returnToIdle_codec (s : State) :
    (returnToIdle s).codec = {} := rfl
@[simp] theorem returnToIdle_aead (s : State) :
    (returnToIdle s).aead = {} := rfl
@[simp] theorem returnToIdle_kdf (s : State) :
    (returnToIdle s).kdf = {} := rfl
@[simp] theorem returnToIdle_uop (s : State) :
    (returnToIdle s).uop = s.uop := rfl
@[simp] theorem returnToIdle_par (s : State) :
    (returnToIdle s).par = s.par := rfl
@[simp] theorem returnToIdle_rng (s : State) :
    (returnToIdle s).rng = s.rng := rfl
@[simp] theorem returnToIdle_host (s : State) :
    (returnToIdle s).host = s.host := rfl
@[simp] theorem returnToIdle_received (s : State) :
    (returnToIdle s).received = s.received := rfl

/-! ### resetCore -/

@[simp] theorem resetCore_pc (s : State) :
    (resetCore s).pc = .idle := rfl
@[simp] theorem resetCore_mode (s : State) :
    (resetCore s).mode = none := rfl
@[simp] theorem resetCore_pw (s : State) :
    (resetCore s).pw = none := rfl
@[simp] theorem resetCore_inp (s : State) :
    (resetCore s).inp = none := rfl
@[simp] theorem resetCore_status (s : State) :
    (resetCore s).status = none := rfl
@[simp] theorem resetCore_out (s : State) :
    (resetCore s).out = none := rfl
@[simp] theorem resetCore_codec (s : State) :
    (resetCore s).codec = {} := rfl
@[simp] theorem resetCore_aead (s : State) :
    (resetCore s).aead = {} := rfl
@[simp] theorem resetCore_kdf (s : State) :
    (resetCore s).kdf = {} := rfl
@[simp] theorem resetCore_uop (s : State) :
    (resetCore s).uop = none := rfl
@[simp] theorem resetCore_par (s : State) :
    (resetCore s).par = s.par := rfl
@[simp] theorem resetCore_rng (s : State) :
    (resetCore s).rng = s.rng := rfl
@[simp] theorem resetCore_host (s : State) :
    (resetCore s).host = s.host := rfl
@[simp] theorem resetCore_received (s : State) :
    (resetCore s).received = s.received := rfl

/-! ### accept -/

@[simp] theorem accept_pc (c : Command) (s : State) :
    (accept c s).pc = firstLabel c.mode := rfl
@[simp] theorem accept_mode (c : Command) (s : State) :
    (accept c s).mode = some c.mode := rfl
@[simp] theorem accept_pw (c : Command) (s : State) :
    (accept c s).pw = some c.pw := rfl
@[simp] theorem accept_inp (c : Command) (s : State) :
    (accept c s).inp = some c.inp := rfl
@[simp] theorem accept_status (c : Command) (s : State) :
    (accept c s).status = none := rfl
@[simp] theorem accept_out (c : Command) (s : State) :
    (accept c s).out = none := rfl
@[simp] theorem accept_codec (c : Command) (s : State) :
    (accept c s).codec = {} := rfl
@[simp] theorem accept_aead (c : Command) (s : State) :
    (accept c s).aead = {} := rfl
@[simp] theorem accept_kdf (c : Command) (s : State) :
    (accept c s).kdf = {} := rfl
@[simp] theorem accept_uop (c : Command) (s : State) :
    (accept c s).uop = s.uop := rfl
@[simp] theorem accept_par (c : Command) (s : State) :
    (accept c s).par = s.par := rfl
@[simp] theorem accept_rng (c : Command) (s : State) :
    (accept c s).rng = s.rng := rfl
@[simp] theorem accept_host (c : Command) (s : State) :
    (accept c s).host = s.host := rfl
@[simp] theorem accept_received (c : Command) (s : State) :
    (accept c s).received = s.received := rfl

/-! ### putRaw -/

@[simp] theorem putRaw_pc (raw : Bytes) (s : State) :
    (putRaw raw s).pc = s.pc := rfl
@[simp] theorem putRaw_mode (raw : Bytes) (s : State) :
    (putRaw raw s).mode = s.mode := rfl
@[simp] theorem putRaw_pw (raw : Bytes) (s : State) :
    (putRaw raw s).pw = s.pw := rfl
@[simp] theorem putRaw_inp (raw : Bytes) (s : State) :
    (putRaw raw s).inp = s.inp := rfl
@[simp] theorem putRaw_status (raw : Bytes) (s : State) :
    (putRaw raw s).status = s.status := rfl
@[simp] theorem putRaw_out (raw : Bytes) (s : State) :
    (putRaw raw s).out = s.out := rfl
@[simp] theorem putRaw_codec (raw : Bytes) (s : State) :
    (putRaw raw s).codec = { s.codec with raw := some raw } := rfl
@[simp] theorem putRaw_aead (raw : Bytes) (s : State) :
    (putRaw raw s).aead = s.aead := rfl
@[simp] theorem putRaw_kdf (raw : Bytes) (s : State) :
    (putRaw raw s).kdf = s.kdf := rfl
@[simp] theorem putRaw_uop (raw : Bytes) (s : State) :
    (putRaw raw s).uop = s.uop := rfl
@[simp] theorem putRaw_par (raw : Bytes) (s : State) :
    (putRaw raw s).par = s.par := rfl
@[simp] theorem putRaw_rng (raw : Bytes) (s : State) :
    (putRaw raw s).rng = s.rng := rfl
@[simp] theorem putRaw_host (raw : Bytes) (s : State) :
    (putRaw raw s).host = s.host := rfl
@[simp] theorem putRaw_received (raw : Bytes) (s : State) :
    (putRaw raw s).received = s.received := rfl

/-! ### unitDerive -/

@[simp] theorem unitDerive_pc (pw salt : Bytes) (s : State) :
    (unitDerive pw salt s).pc = s.pc := rfl
@[simp] theorem unitDerive_mode (pw salt : Bytes) (s : State) :
    (unitDerive pw salt s).mode = s.mode := rfl
@[simp] theorem unitDerive_pw (pw salt : Bytes) (s : State) :
    (unitDerive pw salt s).pw = s.pw := rfl
@[simp] theorem unitDerive_inp (pw salt : Bytes) (s : State) :
    (unitDerive pw salt s).inp = s.inp := rfl
@[simp] theorem unitDerive_status (pw salt : Bytes) (s : State) :
    (unitDerive pw salt s).status = s.status := rfl
@[simp] theorem unitDerive_out (pw salt : Bytes) (s : State) :
    (unitDerive pw salt s).out = s.out := rfl
@[simp] theorem unitDerive_codec (pw salt : Bytes) (s : State) :
    (unitDerive pw salt s).codec = { s.codec with key := some (deriveKeyFrom Config.kdfProfile pw salt s.kdf) } := rfl
@[simp] theorem unitDerive_aead (pw salt : Bytes) (s : State) :
    (unitDerive pw salt s).aead = s.aead := rfl
@[simp] theorem unitDerive_kdf (pw salt : Bytes) (s : State) :
    (unitDerive pw salt s).kdf = finalRegs Config.kdfProfile
      (deriveFill Config.kdfProfile (laneOrder Config.kdfProfile) pw salt s.kdf) := rfl
@[simp] theorem unitDerive_uop (pw salt : Bytes) (s : State) :
    (unitDerive pw salt s).uop = s.uop := rfl
@[simp] theorem unitDerive_par (pw salt : Bytes) (s : State) :
    (unitDerive pw salt s).par = s.par := rfl
@[simp] theorem unitDerive_rng (pw salt : Bytes) (s : State) :
    (unitDerive pw salt s).rng = s.rng := rfl
@[simp] theorem unitDerive_host (pw salt : Bytes) (s : State) :
    (unitDerive pw salt s).host = s.host := rfl
@[simp] theorem unitDerive_received (pw salt : Bytes) (s : State) :
    (unitDerive pw salt s).received = s.received := rfl

/-! ### unitSeal -/

@[simp] theorem unitSeal_pc (key pt : Bytes) (s : State) :
    (unitSeal key pt s).pc = s.pc := rfl
@[simp] theorem unitSeal_mode (key pt : Bytes) (s : State) :
    (unitSeal key pt s).mode = s.mode := rfl
@[simp] theorem unitSeal_pw (key pt : Bytes) (s : State) :
    (unitSeal key pt s).pw = s.pw := rfl
@[simp] theorem unitSeal_inp (key pt : Bytes) (s : State) :
    (unitSeal key pt s).inp = s.inp := rfl
@[simp] theorem unitSeal_status (key pt : Bytes) (s : State) :
    (unitSeal key pt s).status = s.status := rfl
@[simp] theorem unitSeal_out (key pt : Bytes) (s : State) :
    (unitSeal key pt s).out = s.out := rfl
@[simp] theorem unitSeal_codec (key pt : Bytes) (s : State) :
    (unitSeal key pt s).codec = { s.codec with ctt := some (sealBytes key pt) } := rfl
@[simp] theorem unitSeal_aead (key pt : Bytes) (s : State) :
    (unitSeal key pt s).aead = tagRegs key (cryptData key pt) s.aead := rfl
@[simp] theorem unitSeal_kdf (key pt : Bytes) (s : State) :
    (unitSeal key pt s).kdf = s.kdf := rfl
@[simp] theorem unitSeal_uop (key pt : Bytes) (s : State) :
    (unitSeal key pt s).uop = s.uop := rfl
@[simp] theorem unitSeal_par (key pt : Bytes) (s : State) :
    (unitSeal key pt s).par = s.par := rfl
@[simp] theorem unitSeal_rng (key pt : Bytes) (s : State) :
    (unitSeal key pt s).rng = s.rng := rfl
@[simp] theorem unitSeal_host (key pt : Bytes) (s : State) :
    (unitSeal key pt s).host = s.host := rfl
@[simp] theorem unitSeal_received (key pt : Bytes) (s : State) :
    (unitSeal key pt s).received = s.received := rfl

/-! ### unitOpen -/

@[simp] theorem unitOpen_pc (key ctt : Bytes) (s : State) :
    (unitOpen key ctt s).pc = s.pc := rfl
@[simp] theorem unitOpen_mode (key ctt : Bytes) (s : State) :
    (unitOpen key ctt s).mode = s.mode := rfl
@[simp] theorem unitOpen_pw (key ctt : Bytes) (s : State) :
    (unitOpen key ctt s).pw = s.pw := rfl
@[simp] theorem unitOpen_inp (key ctt : Bytes) (s : State) :
    (unitOpen key ctt s).inp = s.inp := rfl
@[simp] theorem unitOpen_status (key ctt : Bytes) (s : State) :
    (unitOpen key ctt s).status = s.status := rfl
@[simp] theorem unitOpen_out (key ctt : Bytes) (s : State) :
    (unitOpen key ctt s).out = s.out := rfl
@[simp] theorem unitOpen_codec (key ctt : Bytes) (s : State) :
    (unitOpen key ctt s).codec = { s.codec with pt := openBytes key ctt } := rfl
@[simp] theorem unitOpen_kdf (key ctt : Bytes) (s : State) :
    (unitOpen key ctt s).kdf = s.kdf := rfl
@[simp] theorem unitOpen_uop (key ctt : Bytes) (s : State) :
    (unitOpen key ctt s).uop = s.uop := rfl
@[simp] theorem unitOpen_par (key ctt : Bytes) (s : State) :
    (unitOpen key ctt s).par = s.par := rfl
@[simp] theorem unitOpen_rng (key ctt : Bytes) (s : State) :
    (unitOpen key ctt s).rng = s.rng := rfl
@[simp] theorem unitOpen_host (key ctt : Bytes) (s : State) :
    (unitOpen key ctt s).host = s.host := rfl
@[simp] theorem unitOpen_received (key ctt : Bytes) (s : State) :
    (unitOpen key ctt s).received = s.received := rfl

/-! ### unitB64enc -/

@[simp] theorem unitB64enc_pc (raw : Bytes) (s : State) :
    (unitB64enc raw s).pc = s.pc := rfl
@[simp] theorem unitB64enc_mode (raw : Bytes) (s : State) :
    (unitB64enc raw s).mode = s.mode := rfl
@[simp] theorem unitB64enc_pw (raw : Bytes) (s : State) :
    (unitB64enc raw s).pw = s.pw := rfl
@[simp] theorem unitB64enc_inp (raw : Bytes) (s : State) :
    (unitB64enc raw s).inp = s.inp := rfl
@[simp] theorem unitB64enc_status (raw : Bytes) (s : State) :
    (unitB64enc raw s).status = s.status := rfl
@[simp] theorem unitB64enc_out (raw : Bytes) (s : State) :
    (unitB64enc raw s).out = s.out := rfl
@[simp] theorem unitB64enc_codec (raw : Bytes) (s : State) :
    (unitB64enc raw s).codec = { s.codec with text := some (b64enc raw) } := rfl
@[simp] theorem unitB64enc_aead (raw : Bytes) (s : State) :
    (unitB64enc raw s).aead = s.aead := rfl
@[simp] theorem unitB64enc_kdf (raw : Bytes) (s : State) :
    (unitB64enc raw s).kdf = s.kdf := rfl
@[simp] theorem unitB64enc_uop (raw : Bytes) (s : State) :
    (unitB64enc raw s).uop = s.uop := rfl
@[simp] theorem unitB64enc_par (raw : Bytes) (s : State) :
    (unitB64enc raw s).par = s.par := rfl
@[simp] theorem unitB64enc_rng (raw : Bytes) (s : State) :
    (unitB64enc raw s).rng = s.rng := rfl
@[simp] theorem unitB64enc_host (raw : Bytes) (s : State) :
    (unitB64enc raw s).host = s.host := rfl
@[simp] theorem unitB64enc_received (raw : Bytes) (s : State) :
    (unitB64enc raw s).received = s.received := rfl

/-! ### unitB64dec -/

@[simp] theorem unitB64dec_pc (text : Bytes) (s : State) :
    (unitB64dec text s).pc = s.pc := rfl
@[simp] theorem unitB64dec_mode (text : Bytes) (s : State) :
    (unitB64dec text s).mode = s.mode := rfl
@[simp] theorem unitB64dec_pw (text : Bytes) (s : State) :
    (unitB64dec text s).pw = s.pw := rfl
@[simp] theorem unitB64dec_inp (text : Bytes) (s : State) :
    (unitB64dec text s).inp = s.inp := rfl
@[simp] theorem unitB64dec_status (text : Bytes) (s : State) :
    (unitB64dec text s).status = s.status := rfl
@[simp] theorem unitB64dec_out (text : Bytes) (s : State) :
    (unitB64dec text s).out = s.out := rfl
@[simp] theorem unitB64dec_codec (text : Bytes) (s : State) :
    (unitB64dec text s).codec = { s.codec with
      raw := b64dec s.par.trailing text, b64Ok := some (b64OkOf (b64dec s.par.trailing text)) } := rfl
@[simp] theorem unitB64dec_aead (text : Bytes) (s : State) :
    (unitB64dec text s).aead = s.aead := rfl
@[simp] theorem unitB64dec_kdf (text : Bytes) (s : State) :
    (unitB64dec text s).kdf = s.kdf := rfl
@[simp] theorem unitB64dec_uop (text : Bytes) (s : State) :
    (unitB64dec text s).uop = s.uop := rfl
@[simp] theorem unitB64dec_par (text : Bytes) (s : State) :
    (unitB64dec text s).par = s.par := rfl
@[simp] theorem unitB64dec_rng (text : Bytes) (s : State) :
    (unitB64dec text s).rng = s.rng := rfl
@[simp] theorem unitB64dec_host (text : Bytes) (s : State) :
    (unitB64dec text s).host = s.host := rfl
@[simp] theorem unitB64dec_received (text : Bytes) (s : State) :
    (unitB64dec text s).received = s.received := rfl

/-! ### responded -/

@[simp] theorem responded_pc (c : Command) (st : Status) (o : Bytes) (s : State) :
    (responded c st o s).pc = .resp := rfl
@[simp] theorem responded_mode (c : Command) (st : Status) (o : Bytes) (s : State) :
    (responded c st o s).mode = some c.mode := rfl
@[simp] theorem responded_pw (c : Command) (st : Status) (o : Bytes) (s : State) :
    (responded c st o s).pw = some c.pw := rfl
@[simp] theorem responded_inp (c : Command) (st : Status) (o : Bytes) (s : State) :
    (responded c st o s).inp = some c.inp := rfl
@[simp] theorem responded_status (c : Command) (st : Status) (o : Bytes) (s : State) :
    (responded c st o s).status = some st := rfl
@[simp] theorem responded_out (c : Command) (st : Status) (o : Bytes) (s : State) :
    (responded c st o s).out = some o := rfl
@[simp] theorem responded_codec (c : Command) (st : Status) (o : Bytes) (s : State) :
    (responded c st o s).codec = {} := rfl
@[simp] theorem responded_aead (c : Command) (st : Status) (o : Bytes) (s : State) :
    (responded c st o s).aead = {} := rfl
@[simp] theorem responded_kdf (c : Command) (st : Status) (o : Bytes) (s : State) :
    (responded c st o s).kdf = {} := rfl
@[simp] theorem responded_uop (c : Command) (st : Status) (o : Bytes) (s : State) :
    (responded c st o s).uop = s.uop := rfl
@[simp] theorem responded_par (c : Command) (st : Status) (o : Bytes) (s : State) :
    (responded c st o s).par = s.par := rfl
@[simp] theorem responded_rng (c : Command) (st : Status) (o : Bytes) (s : State) :
    (responded c st o s).rng = s.rng := rfl
@[simp] theorem responded_host (c : Command) (st : Status) (o : Bytes) (s : State) :
    (responded c st o s).host = s.host := rfl
@[simp] theorem responded_received (c : Command) (st : Status) (o : Bytes) (s : State) :
    (responded c st o s).received = s.received := rfl

/-- The tag verdict after `OPEN` (R191). -/
@[simp] theorem unitOpen_tagOk (key ctt : Bytes) (s : State) :
    (unitOpen key ctt s).aead.tagOk = some (openOk key ctt) := by
  unfold unitOpen dataRegs
  by_cases h : openOk key ctt <;> by_cases h' : cttData ctt = [] <;> simp [h, h']

end Sys2Proof.Laws
end

