-- ==== Sys2Proof/Laws/Sequencer.lean ====
section
/-! SUPPORT. What the unit operations, the numbered steps, a command and a step of the machine can do, said
once each. -/

namespace Sys2Proof.Laws

open Sys2Proof Sys2Proof.Machine
open Sys2Proof.Config (kdfProfile)

/-! ### Unit operations -/

/-- The fixed profile is consistent (R93), so no `KdfError` is raised. -/
theorem profileConsistent_core : profileConsistent kdfProfile = true := by decide

/-- With the fixed profile `DERIVE` always derives (R93, R233). -/
@[simp] theorem deriveOrRaise_eq (pw salt : Bytes) (s : State) (k : State → State) :
    deriveOrRaise pw salt s k = k (unitDerive pw salt s) := by
  simp [deriveOrRaise, profileConsistent_core]

/-- A draw is 16 bytes (R152). -/
theorem drawSalt_length {p g : Provider} {d : Bytes} (h : drawSalt p = some (d, g)) : d.length = 16 := by
  unfold drawSalt at h
  split at h <;> simp only [Option.some.injEq, Prod.mk.injEq, reduceCtorEq] at h <;>
    (obtain ⟨rfl, -⟩ := h; simp)

/-- What `SALTGEN` can do. -/
theorem execSaltgen_cases (s : State) :
    (∃ d g, drawSalt s.rng = some (d, g) ∧
      execSaltgen s = .next { s with codec := { s.codec with salt := some d }, rng := g }) ∨
    (drawSalt s.rng = none ∧ execSaltgen s = .next s) := by
  unfold execSaltgen unitSaltgen
  rcases h : drawSalt s.rng with _ | ⟨d, g⟩
  · exact .inr ⟨rfl, rfl⟩
  · exact .inl ⟨d, g, rfl, rfl⟩

/-- When `DERIVE` completes, and with what. -/
theorem execDerive_next {pw salt : Bytes} {s t : State} :
    execDerive pw salt s = .next t ↔
      pw.length ≤ Config.maxPwLen ∧ salt.length = Config.saltLen ∧ t = unitDerive pw salt s := by
  unfold execDerive
  split
  · simp; omega
  · split
    · simp_all
    · simp_all [eq_comm]

/-- When `SEAL` completes, and with what. -/
theorem execSeal_next {key pt : Bytes} {s t : State} :
    execSeal key pt s = .next t ↔
      key.length = Config.keyLen ∧ pt.length ≤ Config.maxPtLen ∧ t = unitSeal key pt s := by
  unfold execSeal
  split
  · simp_all
  · split
    · simp; omega
    · simp_all [eq_comm]

/-- When `OPEN` completes, and with what. -/
theorem execOpen_next {key ctt : Bytes} {s t : State} :
    execOpen key ctt s = .next t ↔
      key.length = Config.keyLen ∧ Config.tagLen ≤ ctt.length ∧
        ctt.length - Config.tagLen ≤ Config.maxPtLen ∧ t = unitOpen key ctt s := by
  unfold execOpen
  split
  · simp; omega
  · split
    · simp; omega
    · simp_all [eq_comm]

/-! ### The sequencer -/

@[simp] theorem need_some {α : Type} (r : RegName) (x : α) (k : α → Out) : need r (some x) k = k x := rfl

theorem need_next {α : Type} {r : RegName} {o : Option α} {k : α → Out} {t : State} :
    need r o k = .next t ↔ ∃ x, o = some x ∧ k x = .next t := by
  cases o <;> simp [need]

/-- What one numbered step can do, label by label (R150, R151). -/
theorem seqStep_cases {s t : State} (h : seqStep s = .next t) :
    ((s.pc = .idle ∨ s.pc = .resp ∨ (s.pc = .e1 ∧ drawSalt s.rng = none)) ∧ t = s) ∨
    (s.pc = .e1 ∧ ∃ d g, drawSalt s.rng = some (d, g) ∧
      t = { s with codec := { s.codec with salt := some d }, rng := g, pc := .e2 }) ∨
    (∃ pw salt, s.pw = some pw ∧ s.codec.salt = some salt ∧
      ((s.pc = .e2 ∧ t = { unitDerive pw salt s with pc := .e3 }) ∨
        (s.pc = .d4 ∧ t = { unitDerive pw salt s with pc := .d5 }))) ∨
    (s.pc = .e3 ∧ ∃ key inp, s.codec.key = some key ∧ s.inp = some inp ∧
      t = { unitSeal key inp s with pc := .e4 }) ∨
    (s.pc = .e4 ∧ ∃ salt ctt, s.codec.salt = some salt ∧ s.codec.ctt = some ctt ∧
      t = { unitB64enc (salt ++ ctt) (putRaw (salt ++ ctt) s) with pc := .e5 }) ∨
    (s.pc = .e5 ∧ ∃ text, s.codec.text = some text ∧ t = respond text s) ∨
    (s.pc = .d1 ∧ ∃ inp, s.inp = some inp ∧
      ((∃ raw, b64dec s.par.trailing inp = some raw ∧ t = { unitB64dec inp s with pc := .d2 }) ∨
        (b64dec s.par.trailing inp = none ∧ t = raise .format (unitB64dec inp s)))) ∨
    (s.pc = .d2 ∧ ∃ raw, s.codec.raw = some raw ∧
      ((32 ≤ raw.length ∧ t = { s with codec := { s.codec with lenOk := some true }, pc := .d3 }) ∨
        (raw.length < 32 ∧ t = raise .format s))) ∨
    (s.pc = .d3 ∧ ∃ raw, s.codec.raw = some raw ∧
      t = { s with
        codec := { s.codec with salt := some (slice raw 0 16), ctt := some (slice raw 16 (raw.length - 16)) }
        pc := .d4 }) ∨
    (s.pc = .d5 ∧ ∃ key ctt, s.codec.key = some key ∧ s.codec.ctt = some ctt ∧
      ((openOk key ctt = true ∧ t = { unitOpen key ctt s with pc := .d6 }) ∨
        (openOk key ctt = false ∧ t = raise .authentication (unitOpen key ctt s)))) ∨
    (s.pc = .d6 ∧ ∃ pt, s.codec.pt = some pt ∧ t = respond pt s) := by
  unfold seqStep at h
  rcases hp : s.pc with _ | _ | _ | _ | _ | _ | _ | _ | _ | _ | _ | _ | _ <;>
    simp only [hp, reduceCtorEq, false_and, true_and, or_false, false_or, and_false, exists_false, or_true]
      at h ⊢
  · simpa [eq_comm] using h
  · unfold stepE1 unitSaltgen at h
    rcases hd : drawSalt s.rng with _ | ⟨d, g⟩ <;> simp only [hd, Host.Outcome.next.injEq] at h
    · exact .inl ⟨rfl, h.symm⟩
    · exact .inr ⟨d, g, rfl, h.symm⟩
  · obtain ⟨pw, h1, h⟩ := need_next.1 h
    obtain ⟨salt, h2, h⟩ := need_next.1 h
    simp only [deriveOrRaise_eq, Host.Outcome.next.injEq] at h
    exact ⟨pw, salt, h1, h2, h.symm⟩
  · obtain ⟨key, h1, h⟩ := need_next.1 h
    obtain ⟨inp, h2, h⟩ := need_next.1 h
    simp only [Host.Outcome.next.injEq] at h
    exact ⟨key, inp, h1, h2, h.symm⟩
  · obtain ⟨salt, h1, h⟩ := need_next.1 h
    obtain ⟨ctt, h2, h⟩ := need_next.1 h
    simp only [Host.Outcome.next.injEq] at h
    exact ⟨salt, ctt, h1, h2, h.symm⟩
  · obtain ⟨text, h1, h⟩ := need_next.1 h
    simp only [Host.Outcome.next.injEq] at h
    exact ⟨text, h1, h.symm⟩
  · obtain ⟨inp, h1, h⟩ := need_next.1 h
    simp only [Host.Outcome.next.injEq, unitB64dec_codec, b64OkOf, Option.some.injEq] at h
    refine ⟨inp, h1, ?_⟩
    rcases hd : b64dec s.par.trailing inp with _ | raw <;> simp only [hd] at h
    · exact .inr ⟨rfl, by simpa [eq_comm, unitB64dec, b64OkOf, hd] using h⟩
    · exact .inl ⟨raw, rfl, by simpa [eq_comm, unitB64dec, b64OkOf, hd] using h⟩
  · obtain ⟨raw, h1, h⟩ := need_next.1 h
    simp only [Host.Outcome.next.injEq, lenOkOf, decide_eq_true_eq] at h
    refine ⟨raw, h1, ?_⟩
    by_cases hl : 32 ≤ raw.length
    · rw [if_pos hl] at h; exact .inl ⟨hl, h.symm⟩
    · rw [if_neg hl] at h; exact .inr ⟨by omega, h.symm⟩
  · obtain ⟨raw, h1, h⟩ := need_next.1 h
    simp only [Host.Outcome.next.injEq] at h
    exact ⟨raw, h1, h.symm⟩
  · obtain ⟨pw, h1, h⟩ := need_next.1 h
    obtain ⟨salt, h2, h⟩ := need_next.1 h
    simp only [deriveOrRaise_eq, Host.Outcome.next.injEq] at h
    exact ⟨pw, salt, h1, h2, h.symm⟩
  · obtain ⟨key, h1, h⟩ := need_next.1 h
    obtain ⟨ctt, h2, h⟩ := need_next.1 h
    simp only [Host.Outcome.next.injEq, unitOpen_tagOk, Option.some.injEq] at h
    refine ⟨key, ctt, h1, h2, ?_⟩
    rcases ho : openOk key ctt <;> simp only [ho, if_true, reduceCtorEq, if_false] at h
    · exact .inr ⟨rfl, h.symm⟩
    · exact .inl ⟨rfl, h.symm⟩
  · obtain ⟨pt, h1, h⟩ := need_next.1 h
    simp only [Host.Outcome.next.injEq] at h
    exact ⟨pt, h1, h.symm⟩
  · simpa [eq_comm] using h

theorem runSeq_succ (n : Nat) (s : State) : runSeq (n + 1) s = andThen (seqStep s) (runSeq n) := by
  rfl

/-- Idle or with a response ready, the sequencer stays where it is. -/
theorem runSeq_rest {s : State} (h : s.pc = .idle ∨ s.pc = .resp) (n : Nat) : runSeq n s = .next s := by
  induction n with
  | zero => rfl
  | succ n ih => rcases h with h | h <;> simp [runSeq, seqStep, h, ih]

/-- Numbered steps add up. -/
theorem runSeq_add (m n : Nat) (s : State) : runSeq (m + n) s = andThen (runSeq m s) (runSeq n) := by
  induction m generalizing s with
  | zero => simp [runSeq, andThen]
  | succ m ih =>
    rw [show m + 1 + n = (m + n) + 1 by omega, runSeq_succ, runSeq_succ]
    rcases seqStep s with s' | f | r
    · exact ih s'
    · rfl
    · rfl

/-- An invariant of the numbered steps is one of their runs. -/
theorem runSeq_keeps {I : State → Prop} (hI : ∀ s t, I s → seqStep s = .next t → I t)
    {n : Nat} {s t : State} (hs : I s) (h : runSeq n s = .next t) : I t := by
  induction n generalizing s with
  | zero => simp only [runSeq, Host.Outcome.next.injEq] at h; exact h ▸ hs
  | succ n ih =>
    rw [runSeq_succ] at h
    rcases hq : seqStep s with s' | f | r <;> simp only [hq, andThen, reduceCtorEq] at h
    exact ih (hI s s' hs hq) h

/-- When a command is accepted. -/
theorem issueCommand_accepts {c : Command} {s : State} (hp : s.pc = .idle) (hd : inDomain c s.par) (n : Nat) :
    issueCommand c n s = runSeq n (accept c s) := by
  simp only [inDomain] at hd
  simp [issueCommand, hp, hd]

/-- A command that answers a next state was accepted. -/
theorem issueCommand_next {c : Command} {n : Nat} {s t : State} (h : issueCommand c n s = .next t) :
    s.pc = .idle ∧ inDomain c s.par ∧ runSeq n (accept c s) = .next t := by
  unfold issueCommand at h
  split at h
  · simp at h
  · rename_i hp
    rcases hr : refusalOf c s.par with _ | r <;> simp only [hr, reduceCtorEq] at h
    exact ⟨by simpa using hp, hr, h⟩

/-- A command answers a next state or a refusal from an idle core, a refusal from any other: what a fault
needs is a run of the sequencer. -/
theorem issueCommand_fault {c : Command} {n : Nat} {s : State} {f : Fault} (h : issueCommand c n s = .fault f) :
    s.pc = .idle ∧ inDomain c s.par ∧ runSeq n (accept c s) = .fault f := by
  unfold issueCommand at h
  split at h
  · simp at h
  · rename_i hp
    rcases hr : refusalOf c s.par with _ | r <;> simp only [hr, reduceCtorEq] at h
    exact ⟨by simpa using hp, hr, h⟩

/-- What reading the response can do. -/
theorem readResponse_next {s t : State} (h : readResponse s = .next t) :
    s.pc = .resp ∧ ∃ st o, s.status = some st ∧ s.out = some o ∧
      t = { returnToIdle s with received := { status := st, out := o } :: s.received } := by
  unfold readResponse at h
  split at h
  · rename_i hp
    rcases h1 : s.status with _ | st <;> rcases h2 : s.out with _ | o <;>
      simp only [h1, h2, reduceCtorEq, Host.Outcome.next.injEq] at h
    exact ⟨hp, st, o, rfl, rfl, h.symm⟩
  · simp at h

/-- What a step can do, if it answers a next state: serve a unit call, let the sequencer go on, or take the
host's next move. -/
theorem step_cases {s t : State} (h : step s = .next t) :
    (∃ u i, s.uop = some u ∧ decode (.uop u) = .ok i ∧ exec i { s with uop := none } = .next t) ∨
    (s.uop = none ∧ ∃ ms s', s' = { s with host := ms } ∧
      (((s.host = [] ∧ ms = []) ∨ s.host = .wait :: ms) ∧ runSeq commandSteps s' = .next t ∨
       (∃ c n, (s.host = .start c n :: ms ∨ s.host = .issue c :: ms) ∧ issueCommand c n s' = .next t) ∨
       (s.host = .read :: ms ∧ readResponse s' = .next t) ∨
       (s.host = .reset :: ms ∧ t = resetCore s'))) := by
  unfold step at h
  rcases hu : s.uop with _ | u
  · refine .inr ⟨rfl, ?_⟩
    rcases hh : s.host with _ | ⟨m, ms⟩ <;> simp only [hu, hh] at h
    · exact ⟨[], s, by cases s; simp_all, .inl ⟨.inl ⟨rfl, rfl⟩, h⟩⟩
    · refine ⟨ms, _, rfl, ?_⟩
      rcases m with c | ⟨c, n⟩ | _ | _ | _ <;> simp only [hostStep, runPresented, decode] at h
      · refine .inr (.inl ⟨c, commandSteps, .inr rfl, ?_⟩)
        unfold decodeCommand at h
        split at h
        · rename_i hm
          simp only [exec, execEncrypt] at h
          rwa [← hm] at h
        · rename_i hm
          simp only [exec, execDecrypt] at h
          have : c.mode = 1#1 := by
            have := c.mode.isLt
            have h0 : c.mode.toNat ≠ 0 := fun e => hm (BitVec.eq_of_toNat_eq (by simpa using e))
            exact BitVec.eq_of_toNat_eq (by simp; omega)
          rwa [← this] at h
      · exact .inr (.inl ⟨c, n, .inl rfl, h⟩)
      · exact .inl ⟨.inr rfl, h⟩
      · exact .inr (.inr (.inl ⟨rfl, h⟩))
      · exact .inr (.inr (.inr ⟨rfl, by simpa [eq_comm] using h⟩))
  · refine .inl ⟨u, ?_⟩
    simp only [hu, runPresented, decode] at h
    rcases hd : decodeUnitCall u with e | i <;> simp only [hd, reduceCtorEq] at h
    exact ⟨i, rfl, hd, h⟩

/-- A unit call decodes to a unit operation (R70, R74). -/
theorem decodeUnitCall_unit {u : UnitCall} {i : Instr} (h : decodeUnitCall u = .ok i) :
    i = .saltgen ∨ (∃ pw salt, i = .derive pw salt) ∨ (∃ key pt, i = .aeadSeal key pt) ∨
      (∃ key ctt, i = .aeadOpen key ctt) ∨ (∃ raw, i = .b64enc raw) ∨ ∃ text, i = .b64dec text := by
  unfold decodeUnitCall at h
  split at h
  · split at h <;> simp_all
  · split at h
    · split at h
      · obtain rfl := Except.ok.inj h; simp
      · simp at h
    · split at h
      · split at h
        · obtain rfl := Except.ok.inj h; simp
        · simp at h
      · split at h
        · split at h
          · obtain rfl := Except.ok.inj h; simp
          · simp at h
        · split at h
          · split at h
            · obtain rfl := Except.ok.inj h; simp
            · simp at h
          · split at h
            · split at h
              · obtain rfl := Except.ok.inj h; simp
              · simp at h
            · simp at h

end Sys2Proof.Laws
end

