-- ==== Sys2Proof/Laws/Invariants.lean ====
section
/-! SUPPORT. How an invariant of the machine is proved: from what its parts keep; and what the units keep. -/

namespace Sys2Proof.Laws

open Sys2Proof Sys2Proof.Machine
open Sys2Proof.Config (KdfProfile kdfProfile)

/-! ### What the units keep -/

theorem aeadWidths_tagRegs {key ct : Bytes} {a : AeadRegs} (hk : key.length = 32) :
    aeadWidths (tagRegs key ct a) := by
  refine ⟨forall_mem_some.2 (keyExpansion_widths hk), forall_mem_some.2 (aes256_length _ _),
    forall_mem_some.2 rfl, forall_mem_some.2 (inc32_length rfl), forall_mem_some.2 (tagHash_length _ _),
    forall_mem_some.2 (tagHash_length _ _), forall_mem_some.2 (tagFor_length _ _),
    forall_mem_some.2 (aes256_length _ _)⟩

theorem aeadWidths_dataRegs {key ct : Bytes} {a : AeadRegs} (h : aeadWidths a) :
    aeadWidths (dataRegs key ct a) := by
  unfold dataRegs
  split
  · exact h
  · obtain ⟨h1, h2, h3, -, h5, h6, h7, -⟩ := h
    exact ⟨h1, h2, h3, forall_mem_some.2 (counterAfter_length (inc32_length rfl) _), h5, h6, h7,
      forall_mem_some.2 (aes256_length _ _)⟩

theorem aeadWidths_unitSeal {key pt : Bytes} {s : State} (hk : key.length = 32) :
    aeadWidths (unitSeal key pt s).aead := aeadWidths_tagRegs hk

theorem aeadWidths_unitOpen {key ctt : Bytes} {s : State} (hk : key.length = 32) :
    aeadWidths (unitOpen key ctt s).aead := by
  have h : aeadWidths { tagRegs key (cttData ctt) s.aead with tagOk := some (openOk key ctt) } :=
    aeadWidths_tagRegs (a := s.aead) hk
  unfold unitOpen
  dsimp only
  split
  · exact aeadWidths_dataRegs h
  · exact h

theorem kdfWidths_empty : kdfWidths {} := by simp [kdfWidths]
theorem aeadWidths_empty : aeadWidths {} := by simp [aeadWidths]
theorem codecWidths_empty : codecWidths {} := by simp [codecWidths]

/-- Between commands and at the first step of one, no register is wide relative to another. -/
theorem containerWidths_of_clear {s : State}
    (h : s.pc = .idle ∨ s.pc = .resp ∨ s.pc = .e1 ∨ s.pc = .d1) : containerWidths s := by
  rcases h with h | h | h | h <;> simp [containerWidths, h]

theorem wf_unitDerive {pw salt : Bytes} {s : State} (h : s.kdf.kmem.wf) :
    (unitDerive pw salt s).kdf.kmem.wf := by
  have hd := wf_deriveFill (order := laneOrder kdfProfile) laneOrder_lt (pw := pw) (salt := salt) h
  unfold unitDerive
  dsimp only
  rwa [finalRegs_kmem]

/-! ### An invariant of the steps from invariants of the parts -/

/-- What a unit operation, a numbered step, the acceptance of a command, the reading of a response, a reset and
the taking of a host move keep, a step keeps. -/
theorem step_keeps {I : State → Prop}
    (hu : ∀ s i t, I s → s.uop.isSome → (∃ u, decodeUnitCall u = .ok i) →
      exec i { s with uop := none } = .next t → I t)
    (hh : ∀ s ms, I s → I { s with host := ms })
    (hs : ∀ s t, I s → seqStep s = .next t → I t)
    (ha : ∀ s c, I s → s.uop = none → I (accept c s))
    (hr : ∀ s r, I s → s.pc = .resp → I { returnToIdle s with received := r })
    (hz : ∀ s, I s → I (resetCore s))
    {s t : State} (h : I s) (he : step s = .next t) : I t := by
  rcases step_cases he with ⟨u, i, h1, h2, h3⟩ | ⟨h1, ms, s', rfl, h2⟩
  · exact hu s i t h (by simp [h1]) ⟨u, h2⟩ h3
  · have h' := hh s ms h
    rcases h2 with ⟨-, h2⟩ | ⟨c, n, -, h2⟩ | ⟨-, h2⟩ | ⟨-, rfl⟩
    · exact runSeq_keeps hs h' h2
    · obtain ⟨-, -, h2⟩ := issueCommand_next h2
      exact runSeq_keeps hs (ha _ c h' h1) h2
    · obtain ⟨h3, st, o, -, -, rfl⟩ := readResponse_next h2
      exact hr _ _ h' h3
    · exact hz _ h'

end Sys2Proof.Laws
end

