-- ==== Sys2Proof/Laws/PerInstr.lean ====
section
/-! SUPPORT. The statements that are made instruction by instruction: the opcode field of each operation's
encoding against its row of spec/opcode_table.json. -/

namespace Sys2Proof.Laws.OpcodeTable

open Sys2Proof

/-- The opcode field of a presented operation, as the number of bits and their value. -/
def opcodeField : Presented → Nat × Nat
  | .cmd c => (1, c.mode.toNat)
  | .uop u => (3, u.code.toNat)

/-- The fixed bits of each row of the opcode table: how many, and their value. -/
def row : Instr → Nat × Nat
  | .encrypt _ _ => (1, 0b0)
  | .decrypt _ _ => (1, 0b1)
  | .saltgen => (3, 0b000)
  | .derive _ _ => (3, 0b001)
  | .aeadSeal _ _ => (3, 0b010)
  | .aeadOpen _ _ => (3, 0b011)
  | .b64enc _ => (3, 0b100)
  | .b64dec _ => (3, 0b101)

/-- The encoding carries the row's opcode, and decodes to an operation of the same row. -/
def Statement (i : Instr) : Prop :=
  opcodeField (encode i) = row i ∧ ∃ j, decode (encode i) = .ok j ∧ row j = row i

theorem encrypt (pw inp : Bytes) : Statement (.encrypt pw inp) := ⟨rfl, _, rfl, rfl⟩
theorem decrypt (pw inp : Bytes) : Statement (.decrypt pw inp) := ⟨rfl, _, rfl, rfl⟩
theorem saltgen : Statement .saltgen := ⟨rfl, _, rfl, rfl⟩
theorem derive (pw salt : Bytes) : Statement (.derive pw salt) := ⟨rfl, _, rfl, rfl⟩
theorem aeadSeal (key pt : Bytes) : Statement (.aeadSeal key pt) := ⟨rfl, _, rfl, rfl⟩
theorem aeadOpen (key ctt : Bytes) : Statement (.aeadOpen key ctt) := ⟨rfl, _, rfl, rfl⟩
theorem b64enc (raw : Bytes) : Statement (.b64enc raw) := ⟨rfl, _, rfl, rfl⟩
theorem b64dec (text : Bytes) : Statement (.b64dec text) := ⟨rfl, _, rfl, rfl⟩

end Sys2Proof.Laws.OpcodeTable
end

