-- ==== Sys2Proof/Tests/Slice0.lean ====
section
/-! SUPPORT. Tests: expected values are the vectors of spec/95_test_vectors.md (named V<n>) or the encodings
written out from 30_encoding.md; then, for every statement with hypotheses, a witness that meets them. -/

namespace Sys2Proof.Tests

open Sys2Proof Sys2Proof.Machine
open Sys2Proof.Config (kdfProfile)

/-! ### Helpers -/

/-- `n` bytes written as one hexadecimal number, first byte first. -/
def hex (n v : Nat) : Bytes := beBytes n v

/-- "correct horse" -/
def horse : Bytes := hex 13 0x636f727265637420686f727365
/-- "attack at dawn" -/
def dawn : Bytes := hex 14 0x61747461636b206174206461776e
/-- The salt 00 01 .. 0f. -/
def salt0f : Bytes := hex 16 0x000102030405060708090a0b0c0d0e0f
/-- The key of V44 for "correct horse" and that salt. -/
def keyV44 : Bytes := hex 32 0x6bfba99938812e5717dec16bab167bac1f816038e5792622a855ff61e55bbb5e
/-- The container text of V60. -/
def textV60 : Bytes :=
  hex 64 0x41414543417751464267634943516f4c4441304f443469526d51656a716e55337634347a746e5874773239445030547964676a424a7255325549354256413d3d

/-- The ciphertext and tag of V60. -/
def cttV60 : Bytes := hex 30 0x88919907a3aa7537bf8e33b675edc36f433f44f27608c126b536508e4154

/-- The core at a label of a command, with the codec registers given. -/
def at_ (l : Label) (mode : BitVec 1) (pw inp : Bytes) (c : CodecRegs) : State :=
  { State.reset with pc := l, mode := some mode, pw := some pw, inp := some inp, codec := c }

/-- Label, status and output of an answer. -/
def answer : Out → Option (Label × Option Status × Option Bytes)
  | .next s => some (s.pc, s.status, s.out)
  | _ => none

/-- The codec registers and the step register of an answer. -/
def codecOf : Out → Option (Label × CodecRegs)
  | .next s => some (s.pc, s.codec)
  | _ => none

/-- The refusal of an answer. -/
def refusalIn : Out → Option Refusal
  | .refused r => some r
  | _ => none

/-! ### WellFormed: each check refuses an ill-formed term -/

theorem test_wf_password_too_long :
    (Instr.encrypt (List.replicate 4294967296 0#8) []).wellFormed = false := by
  rw [Instr.wellFormed, pwFits, List.length_replicate]; decide
theorem test_wf_decrypt_password_too_long :
    (Instr.decrypt (List.replicate 4294967296 0#8) []).wellFormed = false := by
  rw [Instr.wellFormed, pwFits, List.length_replicate]; decide
theorem test_wf_plaintext_too_long :
    (Instr.encrypt [] (List.replicate 68719476705 0#8)).wellFormed = false := by
  rw [Instr.wellFormed, ptFits, List.length_replicate]; decide
theorem test_wf_salt_of_15_bytes : (Instr.derive [] (zeroBytes 15)).wellFormed = false := by decide
theorem test_wf_key_of_31_bytes : (Instr.aeadSeal (zeroBytes 31) []).wellFormed = false := by decide
theorem test_wf_ctt_of_15_bytes : (Instr.aeadOpen (zeroBytes 32) (zeroBytes 15)).wellFormed = false := by decide
theorem test_wf_ctt_too_long :
    (Instr.aeadOpen (zeroBytes 32) (List.replicate 68719476721 0#8)).wellFormed = false := by
  rw [Instr.wellFormed, cttFits, List.length_replicate]; decide
theorem test_wf_accepts : (Instr.aeadOpen (zeroBytes 32) (zeroBytes 16)).wellFormed = true ∧
    (Instr.derive [] (zeroBytes 16)).wellFormed = true ∧ (Instr.encrypt [] []).wellFormed = true := by decide

/-! ### Decoding: the words of R71 and R74, bit by bit -/

/-- R71: `MODE` = 0. -/
theorem test_decode_encrypt :
    decode (.cmd { mode := BitVec.ofBool false, pw := horse, inp := dawn }) = .ok (.encrypt horse dawn) := by
  rfl
/-- R71: `MODE` = 1. -/
theorem test_decode_decrypt :
    decode (.cmd { mode := BitVec.ofBool true, pw := horse, inp := textV60 }) = .ok (.decrypt horse textV60) := by
  rfl
/-- R74: `UOP[2:0]` = 0 0 0. -/
theorem test_decode_saltgen : decode (.uop { code := 0b000#3, operands := [] }) = .ok .saltgen := by rfl
/-- R74: `UOP[2:0]` = 0 0 1. -/
theorem test_decode_derive :
    decode (.uop { code := 0b001#3, operands := [horse, salt0f] }) = .ok (.derive horse salt0f) := by rfl
/-- R74: `UOP[2:0]` = 0 1 0. -/
theorem test_decode_seal :
    decode (.uop { code := 0b010#3, operands := [keyV44, dawn] }) = .ok (.aeadSeal keyV44 dawn) := by rfl
/-- R74: `UOP[2:0]` = 0 1 1. -/
theorem test_decode_open :
    decode (.uop { code := 0b011#3, operands := [keyV44, salt0f] }) = .ok (.aeadOpen keyV44 salt0f) := by rfl
/-- R74: `UOP[2:0]` = 1 0 0. -/
theorem test_decode_b64enc : decode (.uop { code := 0b100#3, operands := [dawn] }) = .ok (.b64enc dawn) := by rfl
/-- R74: `UOP[2:0]` = 1 0 1. -/
theorem test_decode_b64dec :
    decode (.uop { code := 0b101#3, operands := [textV60] }) = .ok (.b64dec textV60) := by rfl
/-- R81: the two reserved codes; and a unit takes exactly its operands (R153). -/
theorem test_decode_rejects :
    decode (.uop { code := 0b110#3, operands := [] }) = .error (.reservedUop 6#3) ∧
      decode (.uop { code := 0b111#3, operands := [] }) = .error (.reservedUop 7#3) ∧
      decode (.uop { code := 0b001#3, operands := [horse] }) = .error (.operandCount 1#3 1) := by
  refine ⟨rfl, rfl, rfl⟩
/-- The table's words in whole bytes: 0 and 1 are the host's commands (log 9), 2 to 5 unit operations, the rest
nothing. -/
theorem test_table_words :
    decodeTableWord 8 0 = some (.encrypt [] []) ∧ decodeTableWord 8 1 = some (.decrypt [] []) ∧
      decodeTableWord 8 2 = some (.aeadSeal (zeroBytes 32) []) ∧
      decodeTableWord 8 3 = some (.aeadOpen (zeroBytes 32) (zeroBytes 16)) ∧
      decodeTableWord 8 4 = some (.b64enc []) ∧ decodeTableWord 8 5 = some (.b64dec []) ∧
      decodeTableWord 8 6 = none ∧ decodeTableWord 8 7 = none ∧ decodeTableWord 8 8 = none ∧
      decodeTableWord 3 0 = some .saltgen ∧ decodeTableWord 3 1 = some (.derive [] (zeroBytes 16)) := by decide
/-- A presented operation runs as the first one after reset. -/
theorem test_first_operation :
    answer (step (State.reset.withFetchWord 1 1)) = some (.resp, some .formatError, some []) ∧
      codecOf (step (State.reset.withFetchWord 3 4)) = some (.idle, { text := some [] }) := by decide

/-- R81, R263: a reserved code and a command at a busy core are refused. -/
theorem test_refusals :
    refusalIn (step { State.reset with uop := some { code := 0b110#3, operands := [] } }) =
        some (.reservedUop 6#3) ∧
      refusalIn (exec (.encrypt [] []) (at_ .d4 1#1 [] [] {})) = some .busy := by decide

/-! ### The engines against the vectors -/

/-- V13, V14, V16. -/
theorem test_aes_parts :
    mixColumn 0xdb 0x13 0x53 0x45 = [0x8e, 0x4d, 0xa1, 0xbc] ∧ gf8Mul 0x57 0x83 = 0xc1 ∧ gf8Inv 0x53 = 0xca ∧
      shiftRows (hex 16 0x000102030405060708090a0b0c0d0e0f) = hex 16 0x00050a0f04090e03080d02070c01060b := by
  decide +kernel
/-- V11, and the last round key of V10. -/
theorem test_aes256 :
    aes256 (keyExpansion (hex 32 0x000102030405060708090a0b0c0d0e0f101112131415161718191a1b1c1d1e1f))
        (hex 16 0x00112233445566778899aabbccddeeff) = hex 16 0x8ea2b7ca516745bfeafc49904b496089 ∧
      roundKey (keyExpansion (hex 32 0x000102030405060708090a0b0c0d0e0f101112131415161718191a1b1c1d1e1f)) 14 =
        hex 16 0x24fc79ccbf0979e9371ac23c6d68de36 := by
  decide +kernel
/-- V20, V21. -/
theorem test_gcm_parts :
    gf128Mul 0x00000000000000000000000000000001#128 0x40000000000000000000000000000000#128 =
        0xe1000000000000000000000000000000#128 ∧
      gf128Mul 0xdc95c078a2408989ad48a21492842087#128 0xdc95c078a2408989ad48a21492842087#128 =
        0xc7c27e834f1e393c2a82d138ce9261b7#128 ∧
      inc32 (hex 16 0xaaaaaaaaaaaaaaaaaaaaaaaa000000ff) = hex 16 0xaaaaaaaaaaaaaaaaaaaaaaaa00000100 ∧
      inc32 (hex 16 0xffffffffffffffffffffffffffffffff) = hex 16 0xffffffffffffffffffffffff00000000 := by
  decide +kernel
/-- V40: "abc", 32 bytes. -/
theorem test_blake2b :
    blake2b (hex 3 0x616263) 32 =
      hex 32 0xbddd813c634239723171ef3fee98579b94964e3bb1cb3e427262c8c068d52319 := by
  decide +kernel
/-- V41: "abc", 65 bytes. -/
theorem test_hPrime :
    hPrime (hex 3 0x616263) 65 =
      hex 65 0x77baa447fe6f777c9bcb519545ce80badaf08ecb973fbb4ff45af7d8b569ec7caad65f72669d05153cdeaa563a162bb5ae4c42214551593816008dc560c5a65391 := by
  decide +kernel
/-- V42: the multiply, and words 0, 1, 2 and 127 of `G` on `X[k] = k`, `Y = 0`. -/
theorem test_block_compression :
    fBlaMka 0xffffffffffffffff#64 0xffffffffffffffff#64 = 0xfffffffc00000000#64 ∧
      ([0, 1, 2, 127].map fun k => wordAt (compressG ((List.range 128).map (BitVec.ofNat 64)) zeroBlock) k) =
        [0xc1b5682006cab594#64, 0xeaf582377f3b0190#64, 0x7d2c74fb13e92fd7#64, 0x364d79fa588abf87#64] := by
  decide +kernel

/-! ### The operations: at most two tests each -/

/-- A source that answers with the salt 00 01 .. 0f. -/
def scripted : State := { State.reset with rng := .scripted [⟨#[0, 1, 2, 3, 4, 5, 6, 7, 8, 9, 10, 11, 12, 13, 14, 15], rfl⟩] }

/-- R152. -/
theorem test_saltgen : codecOf (exec .saltgen scripted) = some (.idle, { salt := some salt0f }) := by decide
/-- U6: no answer, nothing happens. -/
theorem test_saltgen_silent :
    codecOf (exec .saltgen { State.reset with rng := .scripted [] }) = some (.idle, {}) := by decide
/-- V43: the initial hash of `DERIVE`. -/
theorem test_derive_initial_hash :
    initialHash kdfProfile horse salt0f =
      hex 64 0xa3c9f490fcc1a42fd7eb00afa9dd3d87b988045238d13d66b721fc530df152914e377ad6d1b5ca13713e15930a8362f60924c9b24655a62915d32fbbe5949f6d := by
  decide +kernel
/-- V43: word 0 of the first block of lane 3, column 1. -/
theorem test_derive_first_block :
    wordAt (firstBlock (initialHash kdfProfile horse salt0f) 1 3) 0 = 0x810958d382a62c8a#64 := by
  decide +kernel
/-- V23. -/
theorem test_seal :
    codecOf (exec (.aeadSeal (zeroBytes 32) (zeroBytes 16)) State.reset) =
      some (.idle, { ctt := some (hex 32 0xcea7403d4d606b6e074ec5d3baf39d18d0d1c8a799996bf0265b98b5d48ab919) }) := by
  decide +kernel
/-- V26: 14 bytes under the key of V44. -/
theorem test_seal_short_block :
    codecOf (exec (.aeadSeal keyV44 dawn) State.reset) =
      some (.idle, { ctt := some cttV60 }) := by
  decide +kernel
/-- V24: the sealed data of V23 open. -/
theorem test_open :
    codecOf (exec (.aeadOpen (zeroBytes 32)
        (hex 32 0xcea7403d4d606b6e074ec5d3baf39d18d0d1c8a799996bf0265b98b5d48ab919)) State.reset) =
      some (.idle, { pt := some (zeroBytes 16) }) := by
  decide +kernel
/-- V24: the first ciphertext bit flipped. -/
theorem test_open_tampered :
    codecOf (exec (.aeadOpen (zeroBytes 32)
        (hex 32 0x4ea7403d4d606b6e074ec5d3baf39d18d0d1c8a799996bf0265b98b5d48ab919)) State.reset) =
      some (.idle, {}) := by
  decide +kernel
/-- V50: "f", "fo", "foob", `fbff`. -/
theorem test_b64enc :
    b64enc (hex 1 0x66) = hex 4 0x5a673d3d ∧ b64enc (hex 2 0x666f) = hex 4 0x5a6d383d ∧
      b64enc (hex 4 0x666f6f62) = hex 8 0x5a6d397659673d3d ∧ b64enc (hex 2 0xfbff) = hex 4 0x2b2f383d := by decide
/-- The meaning writes the text register (R161). -/
theorem test_b64enc_exec :
    codecOf (exec (.b64enc (hex 1 0x66)) State.reset) = some (.idle, { text := some (hex 4 0x5a673d3d) }) := by
  decide +kernel
/-- V51, V52: `Zm9vYg==` decodes; `Zg=`, `Zg==` ‖ 0a, `====`, `=Zg=`, `Zm9-` do not; `Zh==` under `ignore` only. -/
theorem test_b64dec :
    b64dec .reject (hex 8 0x5a6d397659673d3d) = some (hex 4 0x666f6f62) ∧ b64dec .reject (hex 3 0x5a673d) = none ∧
      b64dec .ignore (hex 5 0x5a673d3d0a) = none ∧ b64dec .ignore (hex 4 0x3d3d3d3d) = none ∧
      b64dec .ignore (hex 4 0x3d5a673d) = none ∧ b64dec .ignore (hex 4 0x5a6d392d) = none ∧
      b64dec .reject (hex 4 0x5a683d3d) = none ∧ b64dec .ignore (hex 4 0x5a683d3d) = some (hex 1 0x66) := by decide
/-- R162: the flag and the register. -/
theorem test_b64dec_exec :
    codecOf (exec (.b64dec (hex 4 0x5a683d3d)) State.reset) = some (.idle, { b64Ok := some false }) := by decide
/-- V60 from E3 on, with the key of V44: the container text. -/
theorem test_encrypt_from_E3 :
    answer (runSeq 3 (at_ .e3 0#1 horse dawn { salt := some salt0f, key := some keyV44 })) =
      some (.resp, some .ok, some textV60) := by
  decide +kernel
/-- E1 (R150). -/
theorem test_encrypt_E1 :
    codecOf (issueCommand { mode := 0#1, pw := horse, inp := dawn } 1 scripted) =
      some (.e2, { salt := some salt0f }) := by decide
/-- V61 from D5 on, with the key of V44. -/
theorem test_decrypt_from_D5 :
    answer (runSeq 2 (at_ .d5 1#1 horse textV60 { key := some keyV44, ctt := some cttV60 })) =
      some (.resp, some .ok, some dawn) := by
  decide +kernel
/-- V67: "not base64!" and "AAAA". -/
theorem test_decrypt_format_errors :
    answer (exec (.decrypt horse (hex 11 0x6e6f742062617365363421)) State.reset) =
        some (.resp, some .formatError, some []) ∧
      answer (exec (.decrypt horse (hex 4 0x41414141)) State.reset) = some (.resp, some .formatError, some []) := by
  decide

/-! ### Witnesses: the hypotheses of each statement can be met together -/

/-- A core at rest whose host has these moves. -/
def withHost (ms : List HostMove) : State := { State.reset with host := ms }

theorem witness_EachPresentedFormHasOneMeaning :
    decode (.uop { code := 0b100#3, operands := [dawn] }) = .ok (.b64enc dawn) := rfl

theorem witness_ReservedUnitCodesAreRefused :
    ({ State.reset with uop := some { code := 0b110#3, operands := [] } } : State).uop =
        some { code := 0b110#3, operands := [] } ∧
      ({ State.reset with uop := some { code := 0b111#3, operands := [[]] } } : State).uop =
        some { code := 0b111#3, operands := [[]] } := ⟨rfl, rfl⟩

theorem witness_StepRunsThePresentedOperation :
    (({ State.reset with uop := some { code := 0b000#3, operands := [] } } : State).uop =
        some { code := 0b000#3, operands := [] } ∧
      decode (.uop { code := 0b000#3, operands := [] }) = .ok .saltgen) ∧
    ((withHost [.issue { mode := 1#1, pw := [], inp := [] }]).uop = none ∧
      (withHost [.issue { mode := 1#1, pw := [], inp := [] }]).host =
        [.issue { mode := 1#1, pw := [], inp := [] }] ∧
      decode (.cmd { mode := 1#1, pw := [], inp := [] }) = .ok (.decrypt [] [])) :=
  ⟨⟨rfl, rfl⟩, rfl, rfl, rfl⟩

theorem witness_ResetReachesTheResetStateFromAnyState :
    ({ at_ .d4 1#1 horse textV60 { salt := some salt0f } with host := [.reset, .wait] } : State).uop = none ∧
      ({ at_ .d4 1#1 horse textV60 { salt := some salt0f } with host := [.reset, .wait] } : State).host =
        .reset :: [.wait] := ⟨rfl, rfl⟩

theorem witness_IdleCoreDoesNothing :
    State.reset.uop = none ∧ State.reset.host = [] ∧ State.reset.pc = .idle := ⟨rfl, rfl, rfl⟩

theorem witness_MisuseOfThePortsIsRefused :
    (at_ .resp 0#1 [] [] {}).pc ≠ .idle ∧ (at_ .e1 0#1 [] [] {}).pc ≠ .idle ∧
      ((withHost [.read]).uop = none ∧ (withHost [.read]).host = .read :: [] ∧ (withHost [.read]).pc ≠ .resp) := by
  decide

theorem witness_ReadingTheResponseRestoresTheResetState :
    ∃ s : State, s.uop = none ∧ s.host = .read :: [] ∧ s.pc = .resp ∧ s.status = some .authenticationError ∧
      s.out = some [] :=
  ⟨{ at_ .resp 1#1 horse textV60 {} with host := [.read], status := some .authenticationError, out := some [] },
    rfl, rfl, rfl, rfl, rfl⟩

theorem witness_AbortLeavesNoTrace :
    coreAtRest (withHost [.start { mode := 0#1, pw := horse, inp := dawn } 3, .reset]) ∧
      inDomain { mode := 0#1, pw := horse, inp := dawn } State.reset.par := by
  refine ⟨⟨rfl, ⟨rfl, rfl, rfl, rfl, rfl⟩, ⟨rfl, rfl, rfl⟩, rfl⟩, by decide⟩

theorem witness_SaltgenTakesOneDraw :
    drawSalt scripted.rng = some (salt0f, .scripted []) ∧
      drawSalt State.reset.rng = some ((Config.draw 0).toList, .generator 1) ∧
      drawSalt (.scripted []) = none := by
  refine ⟨by decide, rfl, rfl⟩

theorem witness_DeriveCompletesWithA32ByteKey :
    horse.length ≤ Config.maxPwLen ∧ salt0f.length = 16 ∧ ([] : Bytes).length ≤ Config.maxPwLen ∧
      (List.replicate 4294967295 0#8 : Bytes).length ≤ Config.maxPwLen := by
  refine ⟨by decide, by decide, by decide, by rw [List.length_replicate]⟩

/-- Also for `DeriveWritesTheWholeWorkArea`. -/
theorem witness_DeriveReadsNothingButItsOperands :
    horse.length ≤ Config.maxPwLen ∧ salt0f.length = 16 ∧
      ∃ t, exec (.derive horse salt0f) State.reset = .next t :=
  ⟨by decide, by decide, _, Laws.execDerive_next.2 ⟨by decide, by decide, rfl⟩⟩

theorem witness_LaneScheduleDoesNotMatter : ∀ _r _s : Nat, [3, 1, 0, 2].Perm [0, 1, 2, 3] := fun _ _ => by decide

/-- The first and the last block of the filling. -/
theorem witness_ReferencedBlockIsFilledBefore :
    ((0 < 8 ∧ 0 < 4 ∧ 3 < 4) ∧ firstIndex 0 0 ≤ 2 ∧ 2 < segmentLen kdfProfile ∧ 0 < 4294967296) ∧
      ((7 < 8 ∧ 3 < 4 ∧ 0 < 4) ∧ firstIndex 7 3 ≤ 16383 ∧ 16383 < segmentLen kdfProfile ∧
        4294967295 < 4294967296) := by decide

/-- Also for `BlockCompressionCornerCases`; the same block (`k' = k`) and another one. -/
theorem witness_StoredBlockReadsBack : zeroBlock.length = 128 ∧ (262143 = 262143) ∧ (0 ≠ 262143) := by
  decide +kernel

theorem witness_HashesAnswerTheLengthAskedFor :
    (1 ≤ 1 ∧ 1 ≤ 64) ∧ (1 ≤ 64 ∧ 64 ≤ 64) ∧ (1 ≤ 65 ∧ (hPrime [] 65).length = 65) := by decide +kernel

/-- Also for `OpenInvertsSeal`: the shortest and the longest plaintext. -/
theorem witness_SealCompletesWithCiphertextAndTag :
    keyV44.length = 32 ∧ ([] : Bytes).length ≤ Config.maxPtLen ∧
      (List.replicate 68719476704 0#8 : Bytes).length ≤ Config.maxPtLen := by
  refine ⟨by decide, by decide, by rw [List.length_replicate]⟩

/-- V22: the tag that matches, and one that does not. -/
theorem witness_OpenCompletesAndReleasesOnlyVerifiedData :
    (zeroBytes 32).length = 32 ∧ (hex 16 0x530f8afbc74536b9a963b4f1c4cb738b).length = 16 ∧
      ([] : Bytes).length ≤ Config.maxPtLen ∧
      tagFor (zeroBytes 32) [] = hex 16 0x530f8afbc74536b9a963b4f1c4cb738b ∧
      tagFor (zeroBytes 32) [] ≠ hex 16 0x530f8afbc74536b9a963b4f1c4cb738a := by decide +kernel

theorem witness_ChangedTagNeverOpens :
    (zeroBytes 32).length = 32 ∧ ([] : Bytes).length ≤ Config.maxPtLen ∧
      (hex 16 0x530f8afbc74536b9a963b4f1c4cb738a).length = 16 ∧
      cryptData (zeroBytes 32) [] ++ hex 16 0x530f8afbc74536b9a963b4f1c4cb738a ≠ sealBytes (zeroBytes 32) [] := by
  decide +kernel

/-- Also for `RepeatedKeyLeaksThePlaintextXor`. -/
theorem witness_CounterModeIsABytewiseInvolution :
    (hex 2 0x6869).length = (hex 2 0x686f).length ∧ (hex 2 0x6869)[0]? = (hex 2 0x686f)[0]? := by decide

theorem witness_CounterIncrementWrapsInFourBytes : (hex 16 0xffffffffffffffffffffffffffffffff).length = 16 := by
  decide

/-- The last counter block of the longest plaintext. -/
theorem witness_CounterBlocksNeverRepeat :
    (List.replicate 68719476704 0#8 : Bytes).length ≤ Config.maxPtLen ∧
      4294967293 < ceilDiv (List.replicate 68719476704 0#8 : Bytes).length 16 := by
  rw [List.length_replicate]; decide

theorem witness_BlockFunctionIsAPermutation :
    (zeroBytes 16).length = 16 ∧ aes256 [] (zeroBytes 16) = aes256 [] (zeroBytes 16) := ⟨by decide, rfl⟩

theorem witness_RoundOperationsActOnTheirBytes :
    salt0f.length = 16 ∧ (zeroBytes 16).length = 16 ∧ 3 < 4 ∧ 0 < 4 := by decide

/-- Also for `IgnoringTrailingBitsOnlyAcceptsMore`. -/
theorem witness_TextDecodingInvertsEncoding : b64dec .reject (hex 4 0x5a673d3d) = some (hex 1 0x66) := by decide

/-- Also for `ContainerIsSaltCiphertextTag`, `DecryptInvertsEncrypt` and `OutcomeDependsOnTheCommandAlone`. -/
theorem witness_EncryptCompletesWithTheContainerText :
    State.reset.pc = .idle ∧ inDomain { mode := 0#1, pw := horse, inp := dawn } State.reset.par ∧
      drawSalt State.reset.rng = some ((Config.draw 0).toList, .generator 1) ∧
      4 * ((dawn.length + 34) / 3) ≤ State.reset.par.capIn := by
  refine ⟨rfl, by decide, rfl, by decide⟩

/-- One text for each case: no base-64, too short, and long enough (V67, V60). -/
theorem witness_DecryptCompletesWithThePlaintextOrTheFirstError :
    State.reset.pc = .idle ∧ inDomain { mode := 1#1, pw := horse, inp := hex 1 0x6e } State.reset.par ∧
      inDomain { mode := 1#1, pw := horse, inp := hex 4 0x41414141 } State.reset.par ∧
      inDomain { mode := 1#1, pw := horse, inp := textV60 } State.reset.par ∧
      ∃ raw, b64dec State.reset.par.trailing textV60 = some raw ∧ ¬ raw.length < 32 := by
  refine ⟨rfl, by decide, by decide, by decide, hex 46 0x000102030405060708090a0b0c0d0e0f88919907a3aa7537bf8e33b675edc36f433f44f27608c126b536508e4154, by decide, by decide⟩

/-- Two cores, equal draws and different ones. -/
theorem witness_ContainersAreEqualIffDrawsAre :
    inDomain { mode := 0#1, pw := horse, inp := dawn } scripted.par ∧
      drawSalt scripted.rng = some (salt0f, .scripted []) ∧
      drawSalt (.scripted [Vector.replicate 16 0xff#8]) = some (List.replicate 16 0xff#8, .scripted []) := by
  decide

/-- A text for each cause (V52, V67, V72): `Zg=`; `Zg=a` and `Zm9-`, malformed in the last two places; `Zh==`, unused
bits; "AAAA", too short; 42 digits and two pads. -/
theorem witness_MalformedContainersGiveFormatError :
    State.reset.pc = .idle ∧ horse.length ≤ Config.maxPwLen ∧
      (List.replicate 42 0x41#8 ++ [b64Pad, b64Pad]).length ≤ State.reset.par.capIn ∧
      malformedText .ignore (hex 3 0x5a673d) ∧ malformedText .ignore (hex 4 0x5a673d61) ∧
      malformedText .ignore (hex 4 0x5a6d392d) ∧ malformedText .reject (hex 4 0x5a683d3d) ∧
      (∃ raw, b64dec State.reset.par.trailing (hex 4 0x41414141) = some raw ∧ raw.length < 32) ∧
      ((List.replicate 42 0x41#8 ++ [b64Pad, b64Pad]).length = 44 ∧
        (List.replicate 42 0x41#8 ++ [b64Pad, b64Pad]).drop 42 = [b64Pad, b64Pad]) := by
  refine ⟨rfl, by decide, by decide, .inl (by decide), .inr (.inl ⟨2, b64Pad, by decide, by decide, by decide⟩),
    .inr (.inl ⟨3, 0x2d#8, by decide, by decide, by decide⟩),
    .inr (.inr ⟨rfl, 1, 0x68#8, 33, by decide, by decide, by decide, by decide⟩),
    ⟨zeroBytes 3, by decide, by decide⟩, by decide⟩

theorem b64Values_zeros (n : Nat) : b64Values (List.replicate n 0x41#8) = some (List.replicate n 0) := by
  induction n with
  | zero => rfl
  | succ n ih => simp [List.replicate_succ, b64Values, ih, show b64Value 0x41#8 = some 0 by decide]

theorem b64Groups_zeros (n : Nat) :
    b64Groups .reject (List.replicate (4 * n) 0) = some (List.replicate (3 * n) 0#8) := by
  induction n with
  | zero => rfl
  | succ n ih =>
    rw [show 4 * (n + 1) = 4 * n + 4 by omega, show 3 * (n + 1) = 3 * n + 3 by omega]
    simp [List.replicate_succ, b64Groups, ih, b64ByteAt]

theorem b64dec_zeros (n : Nat) :
    b64dec .reject (List.replicate (4 * n) 0x41#8) = some (List.replicate (3 * n) 0#8) := by
  have hp : b64PadCount (List.replicate (4 * n) 0x41#8) = 0 := by
    have h2 : b64Pad ∉ List.replicate (4 * n) 0x41#8 := by simp [List.mem_replicate, b64Pad]
    unfold b64PadCount
    rw [if_neg, if_neg]
    · exact fun h => h2 (List.mem_of_mem_drop (h ▸ List.mem_cons_self))
    · exact fun h => h2 (List.mem_of_mem_drop (h ▸ List.mem_cons_self))
  rw [b64dec, hp, List.length_replicate, if_neg (by omega), Nat.sub_zero, List.take_of_length_le (by simp),
    b64Values_zeros]
  exact b64Groups_zeros n

/-- Each limit, passed by one byte (the container by two): password, `CAP_IN`, plaintext, container. -/
theorem witness_CommandsOutsideTheDomainAreRefused :
    Config.maxPwLen < (List.replicate 4294967296 0#8 : Bytes).length ∧
      State.reset.par.capIn < (List.replicate 91625968985 0#8 : Bytes).length ∧
      ((List.replicate 68719476705 0#8 : Bytes).length ≤ State.reset.par.capIn ∧
        Config.maxPtLen < (List.replicate 68719476705 0#8 : Bytes).length) ∧
      ∃ text raw : Bytes, text.length ≤ State.reset.par.capIn ∧
        b64dec State.reset.par.trailing text = some raw ∧ Config.maxPtLen + 32 < raw.length := by
  refine ⟨?_, ?_, ⟨?_, ?_⟩, List.replicate (4 * 22906492246) 0x41#8, List.replicate (3 * 22906492246) 0#8, ?_,
    b64dec_zeros 22906492246, ?_⟩ <;> rw [List.length_replicate] <;> decide

/-- Each contract, missed by one byte. -/
theorem witness_UnitCallsOutsideTheirContractAreRefused :
    Config.maxPwLen < (List.replicate 4294967296 0#8 : Bytes).length ∧ (zeroBytes 15).length ≠ 16 ∧
      (zeroBytes 31).length ≠ 32 ∧ (zeroBytes 32).length = 32 ∧
      Config.maxPtLen < (List.replicate 68719476705 0#8 : Bytes).length ∧ (zeroBytes 15).length < 16 ∧
      Config.maxPtLen + 16 < (List.replicate 68719476721 0#8 : Bytes).length := by
  rw [List.length_replicate, List.length_replicate, List.length_replicate]
  decide

theorem witness_SilentProviderLeavesEncryptAtE1 :
    State.reset.pc = .idle ∧ inDomain { mode := 0#1, pw := [], inp := [] } State.reset.par ∧
      drawSalt (.scripted []) = none := by
  refine ⟨rfl, by decide, rfl⟩

theorem witness_KdfErrorIsNeverProduced :
    ∃ s t : State, step s = .next t ∧ t.status = some .kdfError :=
  ⟨{ State.reset with status := some .kdfError }, _, rfl, rfl⟩

/-- Also for `SequencerFollowsTheLabels`: a step that goes on, one that ends a command, one that raises, one that
waits. -/
theorem witness_OutputAppearsOnlyWithTheResponse :
    (∃ t, seqStep (at_ .e1 0#1 [] [] {}) = .next t ∧ t.pc = .e2) ∧
      (∃ t, seqStep (at_ .e5 0#1 [] [] { text := some [] }) = .next t ∧ t.pc = .resp) ∧
      (∃ t, seqStep (at_ .d2 1#1 [] [] { raw := some [] }) = .next t ∧ t.status = some .formatError) ∧
      (∃ t, seqStep { at_ .e1 0#1 [] [] {} with rng := .scripted [] } = .next t ∧ t.pc = .e1) :=
  ⟨⟨_, rfl, rfl⟩, ⟨_, rfl, rfl⟩, ⟨_, rfl, rfl⟩, _, rfl, rfl⟩

theorem witness_InterruptedCommandEndsAlike :
    State.reset.pc = .idle ∧ inDomain { mode := 1#1, pw := horse, inp := textV60 } State.reset.par := by
  refine ⟨rfl, by decide⟩

theorem witness_UnitOperationsKeepToTheirRegisters :
    (∃ t, exec .saltgen State.reset = .next t) ∧
      (∃ t, exec (.aeadSeal (zeroBytes 32) []) State.reset = .next t) ∧
      (∃ t, exec (.aeadOpen (zeroBytes 32) (zeroBytes 16)) State.reset = .next t) ∧
      (∃ t, exec (.b64enc []) State.reset = .next t) ∧ (∃ t, exec (.b64dec []) State.reset = .next t) ∧
      ∃ t, exec (.derive [] (zeroBytes 16)) State.reset = .next t :=
  ⟨⟨_, rfl⟩, ⟨_, Laws.execSeal_next.2 ⟨by decide, by decide, rfl⟩⟩,
    ⟨_, Laws.execOpen_next.2 ⟨by decide, by decide, by decide, rfl⟩⟩, ⟨_, rfl⟩, ⟨_, rfl⟩,
    _, Laws.execDerive_next.2 ⟨by decide, by decide, rfl⟩⟩

/-- For `DisciplineIsKeptByEveryStep`, `DisciplinedStatesNeverFault`, `WidthsAreKeptByEveryStep`,
`WorkAreaStaysCanonical` and `ParametersNeverChange`: a step from a state of a command in progress. -/
theorem witness_invariants :
    ∃ s t : State, disciplined s ∧ widthsHold s ∧ s.kdf.kmem.wf ∧ step s = .next t := by
  refine ⟨at_ .d1 1#1 [] [] {}, _, ?_, ?_, Laws.wf_nil, rfl⟩
  · simp [disciplined, portsAt, at_, State.reset, codecPattern, writtenBefore, inProgress]
  · simp [widthsHold, at_, State.reset, codecWidths, aeadWidths, kdfWidths, containerWidths]

end Sys2Proof.Tests
end

section
/-! PROOFS. Scope (00_scope.md): no step changes a parameter (R9, R24), and in a disciplined state no step reads
a register that holds no value (R13, R27). -/

namespace Sys2Proof.Proofs

open Sys2Proof Sys2Proof.Machine Sys2Proof.Laws

/-! ### What a unit call, a command and a step can do -/

/-- When a unit call completes, and with what (R90, R152, R161, R162, R190, R191). -/
theorem exec_unit_cases {i : Instr} {s t : State} (hi : ∃ u, decodeUnitCall u = .ok i)
    (h : exec i s = .next t) :
    (i = .saltgen ∧ ((drawSalt s.rng = none ∧ t = s) ∨ ∃ d g, drawSalt s.rng = some (d, g) ∧
      t = { s with codec := { s.codec with salt := some d }, rng := g })) ∨
    (∃ pw salt, i = .derive pw salt ∧ pw.length ≤ Config.maxPwLen ∧ salt.length = Config.saltLen ∧
      t = unitDerive pw salt s) ∨
    (∃ key pt, i = .aeadSeal key pt ∧ key.length = Config.keyLen ∧ pt.length ≤ Config.maxPtLen ∧
      t = unitSeal key pt s) ∨
    (∃ key ctt, i = .aeadOpen key ctt ∧ key.length = Config.keyLen ∧ Config.tagLen ≤ ctt.length ∧
      ctt.length - Config.tagLen ≤ Config.maxPtLen ∧ t = unitOpen key ctt s) ∨
    (∃ raw, i = .b64enc raw ∧ t = unitB64enc raw s) ∨
    (∃ text, i = .b64dec text ∧ t = unitB64dec text s) := by
  obtain ⟨u, hu⟩ := hi
  rcases decodeUnitCall_unit hu with rfl | ⟨pw, salt, rfl⟩ | ⟨key, pt, rfl⟩ | ⟨key, ctt, rfl⟩ | ⟨raw, rfl⟩ |
    ⟨text, rfl⟩
  · refine .inl ⟨rfl, ?_⟩
    rcases execSaltgen_cases s with ⟨d, g, hd, he⟩ | ⟨hd, he⟩
    · exact .inr ⟨d, g, hd, Host.Outcome.next.inj (h.symm.trans he)⟩
    · exact .inl ⟨hd, Host.Outcome.next.inj (h.symm.trans he)⟩
  · exact .inr (.inl ⟨pw, salt, rfl, execDerive_next.1 h⟩)
  · exact .inr (.inr (.inl ⟨key, pt, rfl, execSeal_next.1 h⟩))
  · exact .inr (.inr (.inr (.inl ⟨key, ctt, rfl, execOpen_next.1 h⟩)))
  · exact .inr (.inr (.inr (.inr (.inl ⟨raw, rfl, Host.Outcome.next.inj h.symm⟩))))
  · exact .inr (.inr (.inr (.inr (.inr ⟨text, rfl, Host.Outcome.next.inj h.symm⟩))))

/-- A presented command is issued and run to its response, whatever its mode bit (R80, R57). -/
theorem runPresented_cmd (c : Command) (s : State) :
    runPresented (.cmd c) s = issueCommand c commandSteps s := by
  obtain ⟨mode, pw, inp⟩ := c
  have hm : mode = 0#1 ∨ mode = 1#1 := by bv_omega
  rcases hm with rfl | rfl <;> rfl

/-- Where a step without a unit call at the select lines can fault: in a run of the numbered steps, in a
command's, or in the host's read. -/
theorem step_fault {s : State} {f : Fault} (hu : s.uop = none) (h : step s = .fault f) :
    ∃ ms, runSeq commandSteps { s with host := ms } = .fault f ∨
      (∃ c n, issueCommand c n { s with host := ms } = .fault f) ∨
      readResponse { s with host := ms } = .fault f := by
  unfold step at h
  split at h
  next u hu' => simp [hu] at hu'
  next =>
    split at h
    next hh =>
      refine ⟨[], .inl ?_⟩
      rwa [← hh]
    next m ms _ =>
      refine ⟨ms, ?_⟩
      cases m with
      | issue c => exact .inr (.inl ⟨c, commandSteps, (runPresented_cmd c _).symm.trans h⟩)
      | start c n => exact .inr (.inl ⟨c, n, h⟩)
      | wait => exact .inl h
      | read => exact .inr (.inr h)
      | reset => simp [hostStep] at h

/-! ### Parameters (R9, R24) -/

theorem exec_unit_par {i : Instr} {s t : State} (hi : ∃ u, decodeUnitCall u = .ok i)
    (h : exec i s = .next t) : t.par = s.par := by
  rcases exec_unit_cases hi h with ⟨-, ⟨-, rfl⟩ | ⟨d, g, -, rfl⟩⟩ | ⟨pw, salt, -, -, -, rfl⟩ |
    ⟨key, pt, -, -, -, rfl⟩ | ⟨key, ctt, -, -, -, -, rfl⟩ | ⟨raw, -, rfl⟩ | ⟨text, -, rfl⟩ <;> simp

theorem seqStep_par {s t : State} (h : seqStep s = .next t) : t.par = s.par := by
  rcases seqStep_cases h with ⟨-, rfl⟩ | ⟨-, d, g, -, rfl⟩ |
    ⟨pw, salt, -, -, ⟨-, rfl⟩ | ⟨-, rfl⟩⟩ | ⟨-, key, inp, -, -, rfl⟩ | ⟨-, salt, ctt, -, -, rfl⟩ |
    ⟨-, text, -, rfl⟩ | ⟨-, inp, -, ⟨raw, -, rfl⟩ | ⟨-, rfl⟩⟩ | ⟨-, raw, -, ⟨-, rfl⟩ | ⟨-, rfl⟩⟩ |
    ⟨-, raw, -, rfl⟩ | ⟨-, key, ctt, -, -, ⟨-, rfl⟩ | ⟨-, rfl⟩⟩ | ⟨-, pt, -, rfl⟩ <;> simp

/-- Settles O54: that the parameters are those of a fixed state is an invariant of the steps. -/
theorem parametersNeverChange : Obligations.ParametersNeverChange := by
  intro s t h
  exact step_keeps (I := fun s' => s'.par = s.par)
    (hu := fun _ _ _ hI _ hi he => (exec_unit_par hi he).trans hI)
    (hh := fun _ _ hI => hI)
    (hs := fun _ _ hI he => (seqStep_par he).trans hI)
    (ha := fun _ _ hI _ => hI)
    (hr := fun _ _ hI _ => hI)
    (hz := fun _ hI => hI)
    rfl h

/-! ### Faults are reads of registers without a value (R13) -/

theorem need_fault {α : Type} {r : RegName} {o : Option α} {k : α → Out} {f : Fault} :
    need r o k = .fault f ↔ (o = none ∧ f = .noValue r) ∨ ∃ x, o = some x ∧ k x = .fault f := by
  cases o <;> simp [need, eq_comm]

/-- What a numbered step reads at the label it stands at, one of which a fault finds without a value
(R150, R151). -/
theorem seqStep_fault {s : State} {f : Fault} (h : seqStep s = .fault f) :
    ((s.pc = .e2 ∨ s.pc = .d4) ∧ (s.pw = none ∨ s.codec.salt = none)) ∨
    (s.pc = .e3 ∧ (s.codec.key = none ∨ s.inp = none)) ∨
    (s.pc = .e4 ∧ (s.codec.salt = none ∨ s.codec.ctt = none)) ∨
    (s.pc = .e5 ∧ s.codec.text = none) ∨
    (s.pc = .d1 ∧ s.inp = none) ∨
    ((s.pc = .d2 ∨ s.pc = .d3) ∧ s.codec.raw = none) ∨
    (s.pc = .d5 ∧ (s.codec.key = none ∨ s.codec.ctt = none)) ∨
    (s.pc = .d6 ∧ s.codec.pt = none) := by
  unfold seqStep at h
  cases hp : s.pc <;> simp only [hp, reduceCtorEq] at h
  case e1 =>
    unfold stepE1 at h
    split at h <;> simp at h
  all_goals
    simp only [stepE2, stepE3, stepE4, stepE5, stepD1, stepD2, stepD3, stepD4, stepD5, stepD6, need_fault,
      reduceCtorEq, and_false, exists_false, or_false] at h
    grind

/-- If `I` is kept by the numbered steps and excludes their faults, it excludes those of their runs. -/
theorem runSeq_ne_fault {I : State → Prop} (hI : ∀ s t, I s → seqStep s = .next t → I t)
    (hf : ∀ s f, I s → seqStep s ≠ .fault f) {n : Nat} {s : State} {f : Fault} (hs : I s) :
    runSeq n s ≠ .fault f := by
  induction n generalizing s with
  | zero => simp [runSeq]
  | succ n ih =>
    rw [runSeq_succ]
    cases hq : seqStep s with
    | next s' => exact ih (hI s s' hs hq)
    | fault g => exact absurd hq (hf s g hs)
    | refused r => simp [andThen]

/-! ### The discipline (R27, R28) -/

/-- The acceptance of a command clears the transient registers and fills the ports (R64, R27). -/
theorem disciplined_accept {s : State} (c : Command) (h : s.uop = none) : disciplined (accept c s) := by
  have hm : c.mode = 0#1 ∨ c.mode = 1#1 := by bv_omega
  rcases hm with hm | hm <;>
    simp [disciplined, portsAt, codecPattern, writtenBefore, firstLabel, inProgress, h, hm]

/-- The last step of a command leaves a response and nothing transient (R57, R27). -/
theorem disciplined_respond {s : State} {mode : BitVec 1} (o : Bytes) (hu : s.uop = none)
    (hp : inProgress mode s) : disciplined (respond o s) := by
  obtain ⟨hmode, hpw, hinp, -, -⟩ := hp
  simp [disciplined, portsAt, responseHeld, codecPattern, writtenBefore, hu, hmode, hpw, hinp]

/-- An error that a command can raise leaves its response and nothing transient (R234, R233). -/
theorem disciplined_raise {s : State} {mode : BitVec 1} {k : ErrorKind} (hk : k ≠ .kdf) (hu : s.uop = none)
    (hp : inProgress mode s) : disciplined (raise k s) := by
  obtain ⟨hmode, hpw, hinp, -, -⟩ := hp
  have hst : statusOfKind k = .formatError ∨ statusOfKind k = .authenticationError := by
    cases k <;> simp_all [statusOfKind]
  simp [disciplined, portsAt, responseHeld, codecPattern, writtenBefore, hu, hmode, hpw, hinp, hst]

/-- Every numbered step writes exactly the registers that tell its label from the next (R28). -/
theorem seqStep_disciplined {s t : State} (hs : disciplined s) (h : seqStep s = .next t) : disciplined t := by
  have hd := hs
  obtain ⟨hu, hports, hcodec, hkdf, haead⟩ := hs
  rcases seqStep_cases h with ⟨-, rfl⟩ | ⟨hp, d, g, -, rfl⟩ |
    ⟨pw, salt, -, -, ⟨hp, rfl⟩ | ⟨hp, rfl⟩⟩ | ⟨hp, key, inp, -, -, rfl⟩ | ⟨hp, salt, ctt, -, -, rfl⟩ |
    ⟨hp, text, -, rfl⟩ | ⟨hp, inp, -, ⟨raw, hraw, rfl⟩ | ⟨-, rfl⟩⟩ |
    ⟨hp, raw, -, ⟨-, rfl⟩ | ⟨-, rfl⟩⟩ |
    ⟨hp, raw, -, rfl⟩ | ⟨hp, key, ctt, -, -, ⟨hok, rfl⟩ | ⟨-, rfl⟩⟩ | ⟨hp, pt, -, rfl⟩
  case inl => exact hd
  all_goals
    simp only [portsAt, hp] at hports
    simp only [hp, codecPattern, writtenBefore, List.cons.injEq, and_true] at hcodec
    simp only [hp, afterDerive, afterAead, reduceCtorEq, forall_const, IsEmpty.forall_iff] at hkdf haead
  -- E5 and D6 respond; D1, D2 and D5 may raise; every other step goes on within the command.
  any_goals exact disciplined_respond _ hu hports
  any_goals exact disciplined_raise (by decide) hu hports
  all_goals
    refine ⟨hu, hports, ?_, ?_, ?_⟩
    · simp_all [codecPattern, writtenBefore, openBytes]
    · simp_all [afterDerive]
    · simp_all [afterAead]

/-- Where a numbered step reads a register, the discipline puts a value there (R13, R27). -/
theorem seqStep_ne_fault {s : State} {f : Fault} (hs : disciplined s) : seqStep s ≠ .fault f := by
  obtain ⟨-, hports, hcodec, -, -⟩ := hs
  intro h
  rcases seqStep_fault h with ⟨hp | hp, hn | hn⟩ | ⟨hp, hn | hn⟩ | ⟨hp, hn | hn⟩ | ⟨hp, hn⟩ | ⟨hp, hn⟩ |
    ⟨hp | hp, hn⟩ | ⟨hp, hn | hn⟩ | ⟨hp, hn⟩ <;>
    simp [portsAt, inProgress, codecPattern, writtenBefore, hp, hn] at hports hcodec

theorem runSeq_ne_fault_of_disciplined {n : Nat} {s : State} {f : Fault} (hs : disciplined s) :
    runSeq n s ≠ .fault f :=
  runSeq_ne_fault (fun _ _ => seqStep_disciplined) (fun _ _ => seqStep_ne_fault) hs

/-- With a response ready the discipline puts a status and an output at the port (R23). -/
theorem readResponse_ne_fault {s : State} {f : Fault} (hs : disciplined s) : readResponse s ≠ .fault f := by
  obtain ⟨-, hports, -⟩ := hs
  unfold readResponse
  split
  next hp =>
    simp only [portsAt, hp] at hports
    obtain ⟨-, -, -, hout, hstatus⟩ := hports
    obtain ⟨o, ho⟩ := Option.isSome_iff_exists.1 hout
    rcases hstatus with hst | ⟨-, hst | hst⟩ <;> simp [hst, ho]
  next => simp

/-- Settles O57: each of the three places where a step can fault is reached with the discipline kept. -/
theorem disciplinedStatesNeverFault : Obligations.DisciplinedStatesNeverFault := by
  intro s f hs h
  have hu : s.uop = none := hs.1
  obtain ⟨ms, hrun | ⟨c, n, hcmd⟩ | hread⟩ := step_fault hu h
  · exact runSeq_ne_fault_of_disciplined (s := { s with host := ms }) hs hrun
  · obtain ⟨-, -, hrun⟩ := issueCommand_fault hcmd
    exact runSeq_ne_fault_of_disciplined (disciplined_accept c (s := { s with host := ms }) hu) hrun
  · exact readResponse_ne_fault (s := { s with host := ms }) hs hread

end Sys2Proof.Proofs
end

section
/-! PROOFS. State (10_state.md): the discipline of the transient registers (R27) holds at reset and is kept by every
step, and the sequencer follows the labels (R26). -/

namespace Sys2Proof.Proofs

open Sys2Proof Sys2Proof.Machine Sys2Proof.Laws

/-! ### The discipline at every step (R27, R34) -/

/-- A core between two commands obeys the discipline (R27, R36). -/
theorem disciplined_of_coreAtRest {s : State} (h : coreAtRest s) : disciplined s := by
  obtain ⟨hpc, hports, ⟨hcodec, haead, hkdf⟩, hu⟩ := h
  simpa [disciplined, portsAt, codecPattern, writtenBefore, hpc, hcodec, haead, hkdf, hu] using hports

theorem coreAtRest_resetCore (s : State) : coreAtRest (resetCore s) := by
  simp [coreAtRest, portsClear, transientsClear]

theorem coreAtRest_returnToIdle {s : State} (hu : s.uop = none) : coreAtRest (returnToIdle s) := by
  simp [coreAtRest, portsClear, transientsClear, hu]

/-- Settles O55: after reset the core is at rest. -/
theorem disciplineHoldsAtReset : Obligations.DisciplineHoldsAtReset :=
  disciplined_of_coreAtRest (coreAtRest_resetCore State.reset)

/-- Settles O56: the parts of a step keep the discipline. A disciplined state has no unit call at its select
lines, so none is served. -/
theorem disciplineIsKeptByEveryStep : Obligations.DisciplineIsKeptByEveryStep := by
  intro s t hs h
  refine step_keeps (I := disciplined) ?unit ?host (fun _ _ => seqStep_disciplined) ?accept ?read ?reset hs h
  case unit =>
    intro s i t ⟨hu, _⟩ hcall
    simp [hu] at hcall
  case host => exact fun _ _ hs => hs
  case accept => exact fun _ c _ hu => disciplined_accept c hu
  case read =>
    intro s r ⟨hu, _⟩ _
    exact disciplined_of_coreAtRest (coreAtRest_returnToIdle hu)
  case reset => exact fun s _ => disciplined_of_coreAtRest (coreAtRest_resetCore s)

/-! ### The labels (R26) -/

/-- Settles O51, label by label: the three checks D1, D2 and D5 go on or raise, E1 goes on or waits, every other
label has one way to go. -/
theorem sequencerFollowsTheLabels : Obligations.SequencerFollowsTheLabels := by
  intro s t h
  have hc := seqStep_cases h
  cases hp : s.pc <;>
    simp only [hp, reduceCtorEq, false_and, true_and, or_false, false_or, and_false, exists_false] at hc
  case e1 =>
    rcases hc with ⟨hd, rfl⟩ | ⟨d, g, hd, rfl⟩
    · exact .inr (.inr (.inr ⟨rfl, hd, rfl⟩))
    · exact .inl (by simp [nextLabel, hd])
  case d1 =>
    obtain ⟨inp, -, ⟨raw, -, rfl⟩ | ⟨-, rfl⟩⟩ := hc
    · exact .inl (by simp [nextLabel])
    · exact .inr (.inl ⟨.inl rfl, rfl, rfl, rfl⟩)
  case d2 =>
    obtain ⟨raw, -, ⟨-, rfl⟩ | ⟨-, rfl⟩⟩ := hc
    · exact .inl (by simp [nextLabel])
    · exact .inr (.inl ⟨.inr rfl, rfl, rfl, rfl⟩)
  case d5 =>
    obtain ⟨key, ctt, -, -, ⟨-, rfl⟩ | ⟨-, rfl⟩⟩ := hc
    · exact .inl (by simp [nextLabel])
    · exact .inr (.inr (.inl ⟨rfl, rfl, rfl, rfl⟩))
  case idle | resp =>
    subst hc
    simp [hp, nextLabel]
  case e5 | d6 =>
    obtain ⟨o, -, rfl⟩ := hc
    exact .inl (by simp [nextLabel])
  case d3 =>
    obtain ⟨raw, -, rfl⟩ := hc
    exact .inl (by simp [nextLabel])
  case e2 | e3 | e4 | d4 =>
    obtain ⟨x, y, -, -, rfl⟩ := hc
    exact .inl (by simp [nextLabel])

end Sys2Proof.Proofs
end

section
/-! PROOFS. State (10_state.md): the widths of the registers (R28 to R30) hold at reset and are kept by every step. -/

namespace Sys2Proof.Proofs

open Sys2Proof Sys2Proof.Machine Sys2Proof.Laws
open Sys2Proof.Config (kdfProfile)

/-! ### Writing one register of the codec (R28) -/

theorem codecWidths_salt {c : CodecRegs} {b : Bytes} (h : codecWidths c) (hb : b.length = Config.saltLen) :
    codecWidths { c with salt := some b } := by
  obtain ⟨-, hkey, hctt⟩ := h
  exact ⟨forall_mem_some.2 hb, hkey, hctt⟩

theorem codecWidths_key {c : CodecRegs} {b : Bytes} (h : codecWidths c) (hb : b.length = Config.keyLen) :
    codecWidths { c with key := some b } := by
  obtain ⟨hsalt, -, hctt⟩ := h
  exact ⟨hsalt, forall_mem_some.2 hb, hctt⟩

theorem codecWidths_ctt {c : CodecRegs} {b : Bytes} (h : codecWidths c) (hb : Config.tagLen ≤ b.length) :
    codecWidths { c with ctt := some b } := by
  obtain ⟨hsalt, hkey, -⟩ := h
  exact ⟨hsalt, hkey, forall_mem_some.2 hb⟩

/-! ### The registers of the three units (R28 to R30) -/

/-- The widths that a register has by itself, at whatever label. -/
def registerWidths (s : State) : Prop := codecWidths s.codec ∧ aeadWidths s.aead ∧ kdfWidths s.kdf

theorem widthsHold_iff {s : State} :
    widthsHold s ↔ registerWidths s ∧ containerWidths s ∧
      (s.pc = .d3 → ∀ raw ∈ s.codec.raw, Config.minRawLen ≤ raw.length) ∧ (s.uop.isSome → s.pc = .idle) := by
  simp [widthsHold, registerWidths, and_assoc]

theorem registerWidths_of_transientsClear {s : State} (h : transientsClear s) : registerWidths s := by
  obtain ⟨hcodec, haead, hkdf⟩ := h
  exact ⟨hcodec ▸ codecWidths_empty, haead ▸ aeadWidths_empty, hkdf ▸ kdfWidths_empty⟩

theorem registerWidths_unitDerive {pw salt : Bytes} {s : State} (h : registerWidths s) :
    registerWidths (unitDerive pw salt s) := by
  obtain ⟨hcodec, haead, hkdf⟩ := h
  exact ⟨codecWidths_key hcodec (deriveKeyFrom_length pw salt s.kdf), haead, kdfWidths_unitDerive hkdf⟩

theorem registerWidths_unitSeal {key pt : Bytes} {s : State} (hk : key.length = Config.keyLen)
    (h : registerWidths s) : registerWidths (unitSeal key pt s) := by
  obtain ⟨hcodec, -, hkdf⟩ := h
  exact ⟨codecWidths_ctt hcodec (by simp), aeadWidths_unitSeal hk, hkdf⟩

theorem registerWidths_unitOpen {key ctt : Bytes} {s : State} (hk : key.length = Config.keyLen)
    (h : registerWidths s) : registerWidths (unitOpen key ctt s) := by
  obtain ⟨hcodec, -, hkdf⟩ := h
  exact ⟨hcodec, aeadWidths_unitOpen hk, hkdf⟩

/-- A unit call writes results of their widths (R90, R152, R190, R191). -/
theorem registerWidths_exec_unit {i : Instr} {s t : State} (h : registerWidths s)
    (hi : ∃ u, decodeUnitCall u = .ok i) (he : exec i s = .next t) : registerWidths t := by
  rcases exec_unit_cases hi he with ⟨-, ⟨-, rfl⟩ | ⟨d, g, hd, rfl⟩⟩ | ⟨pw, salt, -, -, -, rfl⟩ |
    ⟨key, pt, -, hk, -, rfl⟩ | ⟨key, ctt, -, hk, -, -, rfl⟩ | ⟨raw, -, rfl⟩ | ⟨text, -, rfl⟩
  · exact h
  · obtain ⟨hcodec, haead, hkdf⟩ := h
    exact ⟨codecWidths_salt hcodec (drawSalt_length hd), haead, hkdf⟩
  · exact registerWidths_unitDerive h
  · exact registerWidths_unitSeal hk h
  · exact registerWidths_unitOpen hk h
  · exact h
  · exact h

/-- A unit call leaves the step register alone (log 10). -/
theorem exec_unit_pc {i : Instr} {s t : State} (hi : ∃ u, decodeUnitCall u = .ok i)
    (h : exec i s = .next t) : t.pc = s.pc := by
  rcases exec_unit_cases hi h with ⟨-, ⟨-, rfl⟩ | ⟨d, g, -, rfl⟩⟩ | ⟨pw, salt, -, -, -, rfl⟩ |
    ⟨key, pt, -, -, -, rfl⟩ | ⟨key, ctt, -, -, -, -, rfl⟩ | ⟨raw, -, rfl⟩ | ⟨text, -, rfl⟩ <;> simp

/-! ### States whose transient registers hold no value, and an idle core -/

/-- Where no transient register holds a value, every width holds. -/
theorem widthsHold_of_transientsClear {s : State} (h : transientsClear s) (hu : s.uop.isSome → s.pc = .idle) :
    widthsHold s := by
  obtain ⟨hcodec, haead, hkdf⟩ := h
  refine widthsHold_iff.2 ⟨registerWidths_of_transientsClear ⟨hcodec, haead, hkdf⟩, ?_, ?_, hu⟩
  · simp [containerWidths, hcodec]
  · simp [hcodec]

/-- On an idle core only the registers' own widths count. -/
theorem widthsHold_of_idle {s : State} (hp : s.pc = .idle) (h : registerWidths s) : widthsHold s :=
  widthsHold_iff.2 ⟨h, containerWidths_of_clear (.inl hp), by simp [hp], fun _ => hp⟩

/-- Settles O58: at reset no register holds a value. -/
theorem widthsHoldAtReset : Obligations.WidthsHoldAtReset :=
  widthsHold_of_transientsClear ⟨rfl, rfl, rfl⟩ fun _ => rfl

/-! ### The numbered steps -/

theorem cttData_length (ctt : Bytes) : (cttData ctt).length = ctt.length - Config.tagLen := by
  simp [cttData]

/-- What `OPEN` releases is 16 bytes shorter than what it was given (R191). -/
theorem openBytes_length {key ctt pt : Bytes} (h : openBytes key ctt = some pt) :
    pt.length = ctt.length - Config.tagLen := by
  unfold openBytes at h
  split at h
  · rw [← Option.some.inj h, cryptData_length, cttData_length]
  · simp at h

/-- Every register that a numbered step writes has its own width (R150, R151). -/
theorem seqStep_registerWidths {s t : State} (hs : widthsHold s) (h : seqStep s = .next t) :
    registerWidths t := by
  obtain ⟨hreg, -, hraw, -⟩ := widthsHold_iff.1 hs
  have hclear : registerWidths (clearTransients s) := registerWidths_of_transientsClear ⟨rfl, rfl, rfl⟩
  have ⟨hcodec, haead, hkdf⟩ := hreg
  have ⟨_, hkey, _⟩ := hcodec
  rcases seqStep_cases h with ⟨-, rfl⟩ | ⟨hp, d, g, hd, rfl⟩ |
    ⟨pw, salt, -, -, ⟨-, rfl⟩ | ⟨-, rfl⟩⟩ | ⟨-, key, inp, hk, -, rfl⟩ | ⟨-, salt, ctt, -, -, rfl⟩ |
    ⟨-, text, -, rfl⟩ | ⟨-, inp, -, ⟨raw, -, rfl⟩ | ⟨-, rfl⟩⟩ | ⟨-, raw, -, ⟨-, rfl⟩ | ⟨-, rfl⟩⟩ |
    ⟨hp, raw, hr, rfl⟩ | ⟨-, key, ctt, hk, -, ⟨-, rfl⟩ | ⟨-, rfl⟩⟩ | ⟨-, pt, -, rfl⟩
  · exact hreg
  · exact ⟨codecWidths_salt hcodec (drawSalt_length hd), haead, hkdf⟩
  · exact registerWidths_unitDerive hreg
  · exact registerWidths_unitDerive hreg
  · exact registerWidths_unitSeal (hkey key hk) hreg
  · exact hreg
  · exact hclear
  · exact hreg
  · exact hclear
  · exact hreg
  · exact hclear
  · have hlen := hraw hp raw hr
    simp only [Config.minRawLen] at hlen
    have hsalt : (slice raw 0 16).length = Config.saltLen := by simp; omega
    have hctt : Config.tagLen ≤ (slice raw 16 (raw.length - 16)).length := by simp [Config.tagLen]; omega
    exact ⟨codecWidths_ctt (codecWidths_salt hcodec hsalt) hctt, haead, hkdf⟩
  · exact registerWidths_unitOpen (hkey key hk) hreg
  · exact hclear
  · exact hclear

/-- Each step of a command gives the containers their widths relative to each other (R28): E3 and D3 give
those of `CTT`, E4 those of `RAW` and the text, D5 that of `PT`. -/
theorem seqStep_containerWidths {s t : State} (hs : widthsHold s) (h : seqStep s = .next t) :
    containerWidths t := by
  obtain ⟨⟨⟨hsalt, -, hctt⟩, -, -⟩, hcont, hraw, -⟩ := widthsHold_iff.1 hs
  have ⟨hcttInp, hrawCtt, _, _⟩ := hcont
  rcases seqStep_cases h with ⟨-, rfl⟩ | ⟨-, d, g, -, rfl⟩ |
    ⟨pw, salt, -, -, ⟨-, rfl⟩ | ⟨hp, rfl⟩⟩ | ⟨-, key, inp, -, hi, rfl⟩ | ⟨hp, salt, ctt, hs, hc, rfl⟩ |
    ⟨-, text, -, rfl⟩ | ⟨-, inp, -, ⟨raw, -, rfl⟩ | ⟨-, rfl⟩⟩ | ⟨-, raw, -, ⟨-, rfl⟩ | ⟨-, rfl⟩⟩ |
    ⟨hp, raw, hr, rfl⟩ | ⟨hp, key, ctt, -, hc, ⟨-, rfl⟩ | ⟨-, rfl⟩⟩ | ⟨-, pt, -, rfl⟩
  -- RESP: nothing is held any more.
  any_goals exact containerWidths_of_clear (.inr (.inl rfl))
  · exact hcont
  · simp [containerWidths]
  · simp [containerWidths]
  · simpa [containerWidths] using hrawCtt (.inr (.inl hp))
  · simp [containerWidths, hi]
  · have hlen := hsalt salt hs
    simpa [containerWidths, hc, b64enc_length, hlen, Nat.add_comm] using hcttInp (.inl hp) ctt hc
  · simp [containerWidths]
  · simp [containerWidths]
  · have hlen := hraw hp raw hr
    have hsplit : raw.length = (slice raw 16 (raw.length - 16)).length + Config.saltLen := by
      simp [Config.minRawLen, Config.saltLen] at hlen ⊢
      omega
    simpa [containerWidths, hr] using hsplit
  · have hraws : ∀ raw ∈ s.codec.raw, raw.length = ctt.length + Config.saltLen :=
      fun raw hr => hrawCtt (.inr (.inr (.inl hp))) raw hr ctt hc
    have hpts : ∀ pt ∈ openBytes key ctt, ctt.length = pt.length + Config.tagLen := fun pt hpt => by
      rw [openBytes_length hpt, Nat.sub_add_cancel (hctt ctt hc)]
    simpa [containerWidths, hc] using And.intro hraws hpts

/-- D3 is entered from D2, which has checked the length of the container (R151, R232). -/
theorem seqStep_raw_length {s t : State} (h : seqStep s = .next t) (ht : t.pc = .d3) :
    ∀ raw ∈ t.codec.raw, Config.minRawLen ≤ raw.length := by
  have hp : s.pc = .d2 := by
    rcases sequencerFollowsTheLabels s t h with ⟨hnext, -⟩ | ⟨-, hresp, -⟩ | ⟨-, hresp, -⟩ | ⟨he1, -, rfl⟩
    · cases hs : s.pc <;> simp [ht, hs, nextLabel] at hnext ⊢
    all_goals simp_all
  have hc := seqStep_cases h
  simp only [hp, reduceCtorEq, false_and, true_and, or_false, false_or, and_false, exists_false] at hc
  obtain ⟨raw, hr, ⟨hlen, rfl⟩ | ⟨-, rfl⟩⟩ := hc
  · simpa [hr] using hlen
  · simp at ht

theorem seqStep_uop {s t : State} (h : seqStep s = .next t) : t.uop = s.uop := by
  rcases seqStep_cases h with ⟨-, rfl⟩ | ⟨-, d, g, -, rfl⟩ |
    ⟨pw, salt, -, -, ⟨-, rfl⟩ | ⟨-, rfl⟩⟩ | ⟨-, key, inp, -, -, rfl⟩ | ⟨-, salt, ctt, -, -, rfl⟩ |
    ⟨-, text, -, rfl⟩ | ⟨-, inp, -, ⟨raw, -, rfl⟩ | ⟨-, rfl⟩⟩ | ⟨-, raw, -, ⟨-, rfl⟩ | ⟨-, rfl⟩⟩ |
    ⟨-, raw, -, rfl⟩ | ⟨-, key, ctt, -, -, ⟨-, rfl⟩ | ⟨-, rfl⟩⟩ | ⟨-, pt, -, rfl⟩ <;> simp

theorem seqStep_idle {s : State} (hp : s.pc = .idle) : seqStep s = .next s := by simp [seqStep, hp]

theorem seqStep_widthsHold {s t : State} (hs : widthsHold s) (h : seqStep s = .next t) : widthsHold t := by
  refine widthsHold_iff.2
    ⟨seqStep_registerWidths hs h, seqStep_containerWidths hs h, seqStep_raw_length h, fun hu => ?_⟩
  obtain ⟨-, -, -, hidle⟩ := widthsHold_iff.1 hs
  have hp : s.pc = .idle := hidle (seqStep_uop h ▸ hu)
  rw [seqStep_idle hp, Host.Outcome.next.injEq] at h
  exact h ▸ hp

/-- Settles O59: the parts of a step keep the widths. A unit call is served on an idle core, a command starts
and ends without values, and the numbered steps keep the widths one by one. -/
theorem widthsAreKeptByEveryStep : Obligations.WidthsAreKeptByEveryStep := by
  intro s t hs h
  refine step_keeps (I := widthsHold) ?unit ?host (fun _ _ => seqStep_widthsHold) ?accept ?read ?reset hs h
  case unit =>
    intro s i t hs hcall hi he
    obtain ⟨hreg, -, -, hidle⟩ := widthsHold_iff.1 hs
    have hpc : t.pc = .idle := (exec_unit_pc hi he).trans (hidle hcall)
    exact widthsHold_of_idle hpc (registerWidths_exec_unit (s := { s with uop := none }) hreg hi he)
  case host => exact fun _ _ hs => hs
  case accept => exact fun _ _ _ hu => widthsHold_of_transientsClear ⟨rfl, rfl, rfl⟩ (by simp [hu])
  case read => exact fun _ _ _ _ => widthsHold_of_transientsClear ⟨rfl, rfl, rfl⟩ fun _ => rfl
  case reset => exact fun _ _ => widthsHold_of_transientsClear ⟨rfl, rfl, rfl⟩ fun _ => rfl

end Sys2Proof.Proofs
end

section
/-! PROOFS. Commands (42_codec.md): from each label on, what the sequencer's run ends with (R150, R151); hence the
response of a command, which depends on the command, the parameters and the draw alone (R34). -/

namespace Sys2Proof.Proofs

open Sys2Proof Sys2Proof.Machine Sys2Proof.Laws

/-- A run is its first numbered step and the run from there. -/
theorem runSeq_step {s t : State} {n : Nat} {o o' : Out} (h : seqStep s = .next t) (hrest : runSeq n t = o)
    (ho : o = o') : runSeq (n + 1) s = o' := by
  rw [runSeq_succ, h, ← ho]
  exact hrest

/-- The key derived in a command is the one of the unit's cleared registers (R27, R92). -/
theorem unitDerive_key {s : State} (hk : s.kdf = {}) (pw salt : Bytes) :
    (unitDerive pw salt s).codec.key = some (deriveKey pw salt) := by
  simp [hk, deriveKey]

/-! ### The rest of an ENCRYPT, from each of its labels (R150) -/

theorem runSeq_e5 {n : Nat} {s : State} {text : Bytes} (hp : s.pc = .e5) (ht : s.codec.text = some text) :
    runSeq (n + 1) s = .next (respond text s) := by
  have hstep : seqStep s = .next (respond text s) := by simp [seqStep, stepE5, hp, ht]
  exact runSeq_step hstep (runSeq_rest (.inr rfl) n) rfl

theorem runSeq_e4 {n : Nat} {s : State} {salt ctt : Bytes} (hp : s.pc = .e4) (hs : s.codec.salt = some salt)
    (hc : s.codec.ctt = some ctt) :
    runSeq (n + 2) s = .next (respond (b64enc (salt ++ ctt)) s) := by
  have hstep : seqStep s = .next { unitB64enc (salt ++ ctt) (putRaw (salt ++ ctt) s) with pc := .e5 } := by
    simp [seqStep, stepE4, hp, hs, hc]
  exact runSeq_step hstep (runSeq_e5 rfl rfl) rfl

theorem runSeq_e3 {n : Nat} {s : State} {salt key inp : Bytes} (hp : s.pc = .e3) (hs : s.codec.salt = some salt)
    (hk : s.codec.key = some key) (hi : s.inp = some inp) :
    runSeq (n + 3) s = .next (respond (b64enc (salt ++ sealBytes key inp)) s) := by
  have hstep : seqStep s = .next { unitSeal key inp s with pc := .e4 } := by
    simp [seqStep, stepE3, hp, hk, hi]
  exact runSeq_step hstep (runSeq_e4 rfl hs rfl) rfl

theorem runSeq_e2 {n : Nat} {s : State} {pw salt inp : Bytes} (hp : s.pc = .e2) (hpw : s.pw = some pw)
    (hs : s.codec.salt = some salt) (hi : s.inp = some inp) (hk : s.kdf = {}) :
    runSeq (n + 4) s = .next (respond (containerText pw inp salt) s) := by
  have hstep : seqStep s = .next { unitDerive pw salt s with pc := .e3 } := by
    simp [seqStep, stepE2, hp, hpw, hs]
  exact runSeq_step hstep (runSeq_e3 rfl hs (unitDerive_key hk pw salt) hi) rfl

theorem runSeq_e1 {n : Nat} {s : State} {pw inp d : Bytes} {g : Provider} (hp : s.pc = .e1) (hpw : s.pw = some pw)
    (hi : s.inp = some inp) (hk : s.kdf = {}) (hd : drawSalt s.rng = some (d, g)) :
    runSeq (n + 5) s = .next (respond (containerText pw inp d) { s with rng := g }) := by
  have hstep : seqStep s = .next { s with codec := { s.codec with salt := some d }, rng := g, pc := .e2 } := by
    simp [seqStep, stepE1, unitSaltgen, hp, hd]
  exact runSeq_step hstep (runSeq_e2 rfl hpw rfl hi hk) rfl

/-! ### The rest of a DECRYPT, from each of its labels (R151) -/

/-- The end of a `DECRYPT` whose `OPEN` answered this plaintext, or none (steps D5, D6). -/
def endOpened (opened : Option Bytes) (s : State) : State :=
  match opened with
  | none => raise .authentication s
  | some pt => respond pt s

/-- The end of a `DECRYPT` with this password whose text decoded to this container, or to none (steps D1 to D6). -/
def endDecoded (pw : Bytes) (decoded : Option Bytes) (s : State) : State :=
  match decoded with
  | none => raise .format s
  | some raw =>
    if raw.length < Config.minRawLen then raise .format s
    else endOpened (openBytes (deriveKey pw (raw.take 16)) (raw.drop 16)) s

theorem runSeq_d6 {n : Nat} {s : State} {pt : Bytes} (hp : s.pc = .d6) (ht : s.codec.pt = some pt) :
    runSeq (n + 1) s = .next (respond pt s) := by
  have hstep : seqStep s = .next (respond pt s) := by simp [seqStep, stepD6, hp, ht]
  exact runSeq_step hstep (runSeq_rest (.inr rfl) n) rfl

theorem runSeq_d5 {n : Nat} {s : State} {key ctt : Bytes} (hp : s.pc = .d5) (hk : s.codec.key = some key)
    (hc : s.codec.ctt = some ctt) :
    runSeq (n + 2) s = .next (endOpened (openBytes key ctt) s) := by
  cases ho : openOk key ctt with
  | true =>
    have hstep : seqStep s = .next { unitOpen key ctt s with pc := .d6 } := by
      simp [seqStep, stepD5, hp, hk, hc, ho]
    have hpt : openBytes key ctt = some (cryptData key (cttData ctt)) := by simp [openBytes, ho]
    rw [hpt]
    exact runSeq_step hstep (runSeq_d6 rfl hpt) rfl
  | false =>
    have hstep : seqStep s = .next (raise .authentication (unitOpen key ctt s)) := by
      simp [seqStep, stepD5, hp, hk, hc, ho]
    have hpt : openBytes key ctt = none := by simp [openBytes, ho]
    rw [hpt]
    exact runSeq_step hstep (runSeq_rest (.inr rfl) (n + 1)) rfl

theorem runSeq_d4 {n : Nat} {s : State} {pw salt ctt : Bytes} (hp : s.pc = .d4) (hpw : s.pw = some pw)
    (hs : s.codec.salt = some salt) (hc : s.codec.ctt = some ctt) (hk : s.kdf = {}) :
    runSeq (n + 3) s = .next (endOpened (openBytes (deriveKey pw salt) ctt) s) := by
  have hstep : seqStep s = .next { unitDerive pw salt s with pc := .d5 } := by
    simp [seqStep, stepD4, hp, hpw, hs]
  exact runSeq_step hstep (runSeq_d5 rfl (unitDerive_key hk pw salt) hc) rfl

theorem runSeq_d3 {n : Nat} {s : State} {pw raw : Bytes} (hp : s.pc = .d3) (hpw : s.pw = some pw)
    (hr : s.codec.raw = some raw) (hk : s.kdf = {}) :
    runSeq (n + 4) s = .next (endOpened (openBytes (deriveKey pw (raw.take 16)) (raw.drop 16)) s) := by
  have hctt : slice raw 16 (raw.length - 16) = raw.drop 16 := List.take_of_length_le (by simp)
  have hsalt : slice raw 0 16 = raw.take 16 := rfl
  have hstep : seqStep s = .next { s with
      codec := { s.codec with salt := some (raw.take 16), ctt := some (raw.drop 16) }, pc := .d4 } := by
    simp [seqStep, stepD3, hp, hr, hctt, hsalt]
  exact runSeq_step hstep (runSeq_d4 rfl hpw rfl rfl hk) rfl

theorem runSeq_d2 {n : Nat} {s : State} {pw raw : Bytes} (hp : s.pc = .d2) (hpw : s.pw = some pw)
    (hr : s.codec.raw = some raw) (hk : s.kdf = {}) :
    runSeq (n + 5) s = .next (endDecoded pw (some raw) s) := by
  by_cases hlen : raw.length < 32
  · have hstep : seqStep s = .next (raise .format s) := by
      simp [seqStep, stepD2, lenOkOf, hp, hr, hlen]
    have hend : endDecoded pw (some raw) s = raise .format s := if_pos hlen
    rw [hend]
    exact runSeq_step hstep (runSeq_rest (.inr rfl) (n + 4)) rfl
  · have hstep : seqStep s = .next { s with codec := { s.codec with lenOk := some true }, pc := .d3 } := by
      simp [seqStep, stepD2, lenOkOf, hp, hr, Nat.not_lt.1 hlen]
    have hend : endDecoded pw (some raw) s =
      endOpened (openBytes (deriveKey pw (raw.take 16)) (raw.drop 16)) s := if_neg hlen
    rw [hend]
    exact runSeq_step hstep (runSeq_d3 rfl hpw hr hk) rfl

theorem runSeq_d1 {n : Nat} {s : State} {pw inp : Bytes} (hp : s.pc = .d1) (hpw : s.pw = some pw)
    (hi : s.inp = some inp) (hk : s.kdf = {}) :
    runSeq (n + 6) s = .next (endDecoded pw (b64dec s.par.trailing inp) s) := by
  cases hb : b64dec s.par.trailing inp with
  | none =>
    have hstep : seqStep s = .next (raise .format (unitB64dec inp s)) := by
      simp [seqStep, stepD1, b64OkOf, hp, hi, hb]
    exact runSeq_step hstep (runSeq_rest (.inr rfl) (n + 5)) rfl
  | some raw =>
    have hstep : seqStep s = .next { unitB64dec inp s with pc := .d2 } := by
      simp [seqStep, stepD1, b64OkOf, hp, hi, hb]
    exact runSeq_step hstep (runSeq_d2 rfl hpw hb hk) rfl

/-! ### The response of a command -/

/-- `ENCRYPT` whose draw is answered ends with the container text (R150, R57). -/
theorem execEncrypt_responds {s : State} {pw inp d : Bytes} {g : Provider} (hp : s.pc = .idle)
    (hdom : inDomain { mode := 0#1, pw := pw, inp := inp } s.par) (hd : drawSalt s.rng = some (d, g)) :
    exec (.encrypt pw inp) s = .next
      (responded { mode := 0#1, pw := pw, inp := inp } .ok (containerText pw inp d) { s with rng := g }) :=
  (issueCommand_accepts hp hdom commandSteps).trans (runSeq_e1 (n := 1) rfl rfl rfl rfl hd)

/-- `DECRYPT` ends as its text, its container and its tag decide (R151, R57). -/
theorem execDecrypt_ends {s : State} {pw inp : Bytes} (hp : s.pc = .idle)
    (hdom : inDomain { mode := 1#1, pw := pw, inp := inp } s.par) :
    exec (.decrypt pw inp) s = .next
      (endDecoded pw (b64dec s.par.trailing inp) (accept { mode := 1#1, pw := pw, inp := inp } s)) :=
  (issueCommand_accepts hp hdom commandSteps).trans (runSeq_d1 rfl rfl rfl rfl)

/-- What a `DECRYPT` answers does not depend on the state it ends in, and that state keeps the provider. -/
theorem endDecoded_answer (pw : Bytes) (decoded : Option Bytes) : ∃ st o, ∀ s : State,
    (endDecoded pw decoded s).pc = .resp ∧ (endDecoded pw decoded s).status = some st ∧
      (endDecoded pw decoded s).out = some o ∧ (endDecoded pw decoded s).rng = s.rng := by
  unfold endDecoded endOpened
  split
  · exact ⟨_, _, fun s => ⟨rfl, rfl, rfl, rfl⟩⟩
  · split
    · exact ⟨_, _, fun s => ⟨rfl, rfl, rfl, rfl⟩⟩
    · split <;> exact ⟨_, _, fun s => ⟨rfl, rfl, rfl, rfl⟩⟩

/-- Settles O44: both commands end as a function of the command, the parameters and the draw. -/
theorem outcomeDependsOnTheCommandAlone : Obligations.OutcomeDependsOnTheCommandAlone := by
  intro s s' pw inp hp hp' hpar
  refine ⟨fun hdom => ?_, fun d g g' hdom hd hd' => ?_⟩
  · have hs := execDecrypt_ends hp hdom
    have hs' := execDecrypt_ends hp' (hpar ▸ hdom)
    rw [← hpar] at hs'
    obtain ⟨st, o, hans⟩ := endDecoded_answer pw (b64dec s.par.trailing inp)
    obtain ⟨hpc, hst, hout, hrng⟩ := hans (accept { mode := 1#1, pw := pw, inp := inp } s)
    obtain ⟨hpc', hst', hout', hrng'⟩ := hans (accept { mode := 1#1, pw := pw, inp := inp } s')
    exact ⟨_, _, hs, hs', hpc, hpc', hst.trans hst'.symm, hout.trans hout'.symm, hrng, hrng'⟩
  · exact ⟨_, _, execEncrypt_responds hp hdom hd, execEncrypt_responds hp' (hpar ▸ hdom) hd',
      rfl, rfl, rfl, rfl⟩

end Sys2Proof.Proofs
end

section
/-! PROOFS. The work area (20_memory.md R52): a stored block reads back; and the block that the filling refers to has
been filled before (40_kdf.md R103 to R105). -/

namespace Sys2Proof.Proofs

open Sys2Proof Sys2Proof.Machine Sys2Proof.Laws
open Sys2Proof.Config (kdfProfile)

/-! ### Blocks of the work area (R52) -/

/-- Each byte of a stored block is fetched again. -/
theorem fetch_writeBlock {m : Memory} {k b : Nat} {ws : List Word64} (hw : ws.length = 128)
    (hb : b < (bytesOfWords ws).length) :
    (writeBlock m k ws).fetch (1024 * k + b) = (bytesOfWords ws)[b] := by
  have hl : b < 1024 := by simpa [hw] using hb
  simp [Memory.fetch, read_writeBlock m k _ ws hw, hl, List.getElem?_eq_getElem hb]

/-- The bytes of a stored block are those of its words. -/
theorem fetchBytes_writeBlock (m : Memory) (k : Nat) {ws : List Word64} (hw : ws.length = 128) :
    (writeBlock m k ws).fetchBytes (1024 * k) 1024 = bytesOfWords ws := by
  refine List.ext_getElem (by simp [Memory.fetchBytes, hw]) fun b _ hb => ?_
  simpa [Memory.fetchBytes] using fetch_writeBlock hw hb

/-- Settles O20: the block that was stored reads as its words, any other as its own bytes, which the store leaves. -/
theorem storedBlockReadsBack : Obligations.StoredBlockReadsBack := by
  intro m k k' ws hw
  split
  next hk =>
    have hwords := wordsOfBytes_bytesOfWords ws
    rw [hw] at hwords
    rw [hk, readBlock, fetchBytes_writeBlock m k hw, hwords]
  next hk =>
    exact readBlock_congr fun x hx => read_writeBlock_outside m k x ws hw (hx ▸ hk)

/-! ### The referenced block (R103, R104) -/

/-- In the own lane and pass 0 the area is every column up to the block before the previous one (R103). -/
theorem referenceArea_own_pass_zero (s i : Nat) :
    referenceArea kdfProfile 0 s i true = s * 16384 + i - 1 := by
  by_cases hs : s = 0 <;> simp [referenceArea, hs]

/-- In another lane and pass 0 the area is what lies before the current slice (R103). -/
theorem referenceArea_other_pass_zero {s i : Nat} (hs : s ≠ 0) :
    0 < referenceArea kdfProfile 0 s i false ∧ referenceArea kdfProfile 0 s i false ≤ s * 16384 := by
  simp only [referenceArea, hs, segmentLen_core, if_true, if_false, Bool.false_eq_true]
  split <;> omega

/-- In the own lane and a later pass the area is the other three slices and the filled part of the current one
(R103). -/
theorem referenceArea_own_later_pass {r s i : Nat} (hr : r ≠ 0) :
    referenceArea kdfProfile r s i true = 49152 + i - 1 := by
  simp [referenceArea, hr]

/-- In another lane and a later pass the area lies in the other three slices (R103). -/
theorem referenceArea_other_later_pass {r s i : Nat} (hr : r ≠ 0) :
    0 < referenceArea kdfProfile r s i false ∧ referenceArea kdfProfile r s i false ≤ 49152 := by
  simp only [referenceArea, hr, columns_core, segmentLen_core, if_false, Bool.false_eq_true]
  split <;> omega

/-- In pass 0 the area starts at column 0, so the referenced column lies below its size (R104). -/
theorem referenceColumn_pass_zero {s w j1 : Nat} (hw : 0 < w) (hq : w ≤ 65536) :
    referenceColumn kdfProfile 0 s w j1 < w := by
  simp only [referenceColumn, true_or, if_true, columns_core, Nat.zero_add]
  omega

/-- In the later passes the area starts at the slice after the current one, cyclically, and the referenced column
lies in it (R104). -/
theorem referenceColumn_later_pass {r s w j1 : Nat} (hr : r ≠ 0) (hw : 0 < w) :
    ∃ rel < w, referenceColumn kdfProfile r s w j1 = ((s + 1) * 16384 + rel) % 65536 := by
  refine ⟨w - 1 - (w * ((j1 * j1) >>> 32)) >>> 32, by omega, ?_⟩
  simp only [referenceColumn, hr, false_or, columns_core, segmentLen_core]
  split <;> omega

/-- In slice 0 of pass 0 the reference lane is the own one (R102). -/
theorem referenceLane_first_slice (l j2 : Nat) : referenceLane kdfProfile 0 0 l j2 = l := by
  simp [referenceLane]

/-- The block that pass 0 refers to was written earlier in that pass (R103, R105). -/
theorem filledBefore_pass_zero {s l i rl j1 : Nat} (hs : s < 4) (hlane : s = 0 → rl = l)
    (hfirst : firstIndex 0 s ≤ i) (hi : i < 16384) :
    filledBefore kdfProfile 0 s l i rl
      (referenceColumn kdfProfile 0 s (referenceArea kdfProfile 0 s i (decide (rl = l))) j1) := by
  simp only [filledBefore, columns_core, segmentLen_core]
  by_cases hl : rl = l
  · have hfirst : s = 0 → 2 ≤ i := fun h => by simpa [firstIndex, h] using hfirst
    rw [decide_eq_true hl, referenceArea_own_pass_zero]
    have hcol : referenceColumn kdfProfile 0 s (s * 16384 + i - 1) j1 < s * 16384 + i - 1 :=
      referenceColumn_pass_zero (by omega) (by omega)
    omega
  · have ⟨hpos, harea⟩ := referenceArea_other_pass_zero (i := i) (fun h => hl (hlane h))
    rw [decide_eq_false hl]
    have hcol := referenceColumn_pass_zero (s := s) (j1 := j1) hpos (by omega)
    omega

/-- The block that a later pass refers to is not the one being written, nor in another lane one of the current slice
(R103, R105). -/
theorem filledBefore_later_pass {r s l i rl j1 : Nat} (hr : r ≠ 0) (hi : i < 16384) :
    filledBefore kdfProfile r s l i rl
      (referenceColumn kdfProfile r s (referenceArea kdfProfile r s i (decide (rl = l))) j1) := by
  simp only [filledBefore, columns_core, segmentLen_core]
  by_cases hl : rl = l
  · rw [decide_eq_true hl, referenceArea_own_later_pass hr]
    obtain ⟨rel, hrel, hcol⟩ := referenceColumn_later_pass (s := s) (w := 49152 + i - 1) (j1 := j1) hr (by omega)
    omega
  · have ⟨hpos, harea⟩ := referenceArea_other_later_pass (s := s) (i := i) hr
    rw [decide_eq_false hl]
    obtain ⟨rel, hrel, hcol⟩ := referenceColumn_later_pass (s := s) (j1 := j1) hr hpos
    omega

/-- Settles O18: in pass 0 the reference area ends before the block being written, in the later passes it is a
window that starts behind the current slice and ends before that block. -/
theorem referencedBlockIsFilledBefore : Obligations.ReferencedBlockIsFilledBefore := by
  intro r s l i j1 j2 _ hs _ hfirst hi _
  rw [segmentLen_core] at hi
  cases r with
  | zero => exact filledBefore_pass_zero hs (fun h => h ▸ referenceLane_first_slice l j2) hfirst hi
  | succ r => exact filledBefore_later_pass (Nat.succ_ne_zero r) hi

end Sys2Proof.Proofs
end

section
/-! PROOFS. The text coder (42_codec.md R160 to R163): decoding inverts encoding, under either setting of the trailing
bits. -/

namespace Sys2Proof.Proofs

open Sys2Proof Sys2Proof.Machine Sys2Proof.Laws

/-! ### One digit (R160) -/

theorem b64Value_b64Digit {v : Nat} (h : v < 64) : b64Value (b64Digit v) = some v := by
  revert v
  decide

theorem b64Digit_ne_pad {v : Nat} (h : v < 64) : b64Digit v ≠ b64Pad := by
  revert v
  decide

/-! ### An encoding is its digits and its pads (R161) -/

/-- The six bits of `n` from bit `lo` up. -/
def sextetAt (n lo : Nat) : Nat := n / 2 ^ lo % 64

/-- The digit values of the encoding of a byte string, in order. -/
def sextets : Bytes → List Nat
  | b0 :: b1 :: b2 :: rest =>
    let n := b0.toNat * 65536 + b1.toNat * 256 + b2.toNat
    sextetAt n 18 :: sextetAt n 12 :: sextetAt n 6 :: sextetAt n 0 :: sextets rest
  | [b0, b1] =>
    let n := b0.toNat * 65536 + b1.toNat * 256
    [sextetAt n 18, sextetAt n 12, sextetAt n 6]
  | [b0] => [sextetAt (b0.toNat * 65536) 18, sextetAt (b0.toNat * 65536) 12]
  | [] => []

/-- How many pads fill the last group of the encoding of `n` bytes. -/
def padsOf (n : Nat) : Nat := (3 - n % 3) % 3

theorem b64DigitAt_eq (n lo : Nat) : b64DigitAt n lo = b64Digit (sextetAt n lo) := rfl

theorem padsOf_add_three (n : Nat) : padsOf (n + 3) = padsOf n := by simp [padsOf]

/-- An encoding is its digits, then its pads. -/
theorem b64enc_eq (raw : Bytes) :
    b64enc raw = (sextets raw).map b64Digit ++ List.replicate (padsOf raw.length) b64Pad := by
  fun_induction b64enc raw with
  | case1 b0 b1 b2 rest n ih => simp [sextets, b64DigitAt_eq, padsOf_add_three, ih, n]
  | case2 b0 b1 n => rfl
  | case3 b0 n => rfl
  | case4 => rfl

theorem sextets_lt (raw : Bytes) : ∀ v ∈ sextets raw, v < 64 := by
  have hlt : ∀ n lo, sextetAt n lo < 64 := fun n lo => Nat.mod_lt _ (by decide)
  fun_induction sextets raw with
  | case1 b0 b1 b2 rest n ih => simpa [hlt] using ih
  | case2 => simp [hlt]
  | case3 => simp [hlt]
  | case4 => simp

/-! ### The decoder on digits and pads (R162) -/

theorem b64Values_map_b64Digit {vs : List Nat} (h : ∀ v ∈ vs, v < 64) :
    b64Values (vs.map b64Digit) = some vs := by
  induction vs with
  | nil => rfl
  | cons v vs ih =>
    obtain ⟨hv, hvs⟩ := List.forall_mem_cons.1 h
    simp [b64Values, b64Value_b64Digit hv, ih hvs]

/-- The pads behind a body without pads are counted: its last two places tell how many there are. -/
theorem b64PadCount_append {body : Bytes} (h : b64Pad ∉ body) {p : Nat} (hp : p ≤ 2) :
    b64PadCount (body ++ List.replicate p b64Pad) = p := by
  have hlen : (body ++ List.replicate p b64Pad).length = body.length + p := by simp
  have hbody : ∀ i, (body ++ List.replicate p b64Pad)[i]? = some b64Pad → body.length ≤ i := fun i hi => by
    by_contra hlt
    rw [List.getElem?_append_left (by omega)] at hi
    exact h (List.mem_of_getElem? hi)
  have hpads : ∀ i, body.length ≤ i → i < body.length + p →
      (body ++ List.replicate p b64Pad)[i]? = some b64Pad := fun i hl hi => by
    rw [List.getElem?_append_right hl, List.getElem?_replicate, if_pos (by omega)]
  have hcases := b64PadCount_cases (body ++ List.replicate p b64Pad)
  rw [hlen] at hcases
  rcases hcases with ⟨hc, hl, h2, -⟩ | ⟨hc, hl, h1, h2⟩ | ⟨hc, h1⟩
  · have := hbody _ h2
    omega
  · have hge := hbody _ h1
    by_contra hne
    exact h2 (by omega) (hpads _ (by omega) (by omega))
  · by_contra hne
    exact h1 (hpads _ (by omega) (by omega))

/-- A byte is the number it was regrouped to. -/
theorem b64ByteAt_eq {n lo : Nat} {b : Byte} (h : n / 2 ^ lo % 256 = b.toNat) : b64ByteAt n lo = b := by
  rw [b64ByteAt, h, BitVec.ofNat_toNat, BitVec.setWidth_eq]

/-- Regrouping the digit values of a byte string gives it back; the unused bits of its last digit are zero. -/
theorem b64Groups_sextets (trailing : TrailingBits) (raw : Bytes) :
    b64Groups trailing (sextets raw) = some raw := by
  fun_induction sextets raw with
  | case1 b0 b1 b2 rest n ih =>
    have h0 := b0.isLt
    have h1 := b1.isLt
    have h2 := b2.isLt
    have hn : sextetAt n 18 * 262144 + sextetAt n 12 * 4096 + sextetAt n 6 * 64 + sextetAt n 0 = n := by
      simp only [sextetAt]
      omega
    simp only [b64Groups, ih, hn]
    rw [b64ByteAt_eq (b := b0), b64ByteAt_eq (b := b1), b64ByteAt_eq (b := b2)] <;> omega
  | case2 b0 b1 n =>
    have h0 := b0.isLt
    have h1 := b1.isLt
    have hunused : sextetAt n 6 % 4 = 0 := by
      simp only [sextetAt]
      omega
    have hn : sextetAt n 18 * 262144 + sextetAt n 12 * 4096 + sextetAt n 6 * 64 = n := by
      simp only [sextetAt]
      omega
    simp only [b64Groups, hunused, hn, ne_eq, not_true_eq_false, false_and, if_false]
    rw [b64ByteAt_eq (b := b0), b64ByteAt_eq (b := b1)] <;> omega
  | case3 b0 =>
    have h0 := b0.isLt
    have hunused : sextetAt (b0.toNat * 65536) 12 % 16 = 0 := by
      simp only [sextetAt]
      omega
    have hn : sextetAt (b0.toNat * 65536) 18 * 262144 + sextetAt (b0.toNat * 65536) 12 * 4096 =
        b0.toNat * 65536 := by
      simp only [sextetAt]
      omega
    simp only [b64Groups, hunused, hn, ne_eq, not_true_eq_false, false_and, if_false]
    rw [b64ByteAt_eq (b := b0)]
    omega
  | case4 => rfl

/-- Decoding inverts encoding (R163). -/
theorem b64dec_b64enc (trailing : TrailingBits) (raw : Bytes) : b64dec trailing (b64enc raw) = some raw := by
  have hlen : (b64enc raw).length % 4 = 0 := by rw [b64enc_length]; omega
  have hpads : b64PadCount (b64enc raw) = padsOf raw.length := by
    rw [b64enc_eq]
    refine b64PadCount_append (fun hmem => ?_) (by unfold padsOf; omega)
    obtain ⟨v, hv, hd⟩ := List.mem_map.1 hmem
    exact b64Digit_ne_pad (sextets_lt raw v hv) hd
  have hbody : (b64enc raw).take ((b64enc raw).length - padsOf raw.length) = (sextets raw).map b64Digit := by
    rw [b64enc_eq]
    exact List.take_left' (by simp)
  rw [b64dec, if_neg (by omega), hpads, hbody, b64Values_map_b64Digit (sextets_lt raw)]
  exact b64Groups_sextets trailing raw

end Sys2Proof.Proofs
end

section
/-! PROOFS. The two commands (42_codec.md): the state in which each ends (R150, R151), what the container text of an
`ENCRYPT` decodes to (R75), where the output is written (R155), and that to the host a command is one transition
(R57). -/

namespace Sys2Proof.Proofs

open Sys2Proof Sys2Proof.Machine Sys2Proof.Laws

/-! ### The state a command ends in (R150, R151, R57) -/

/-- The container text of a plaintext of `n` bytes has `4 * ceil((n + 32) / 3)` characters (R76). -/
theorem containerText_length {pw inp d : Bytes} (hd : d.length = 16) :
    (containerText pw inp d).length = 4 * ((inp.length + 32 + 2) / 3) := by
  rw [containerText, b64enc_length, List.length_append, hd, sealBytes_length]
  omega

/-- Settles O38: the run of `ENCRYPT` ends with the container text, whose salt is a draw of 16 bytes. -/
theorem encryptCompletesWithTheContainerText : Obligations.EncryptCompletesWithTheContainerText :=
  fun _ _ _ _ _ hp hdom hd =>
    ⟨execEncrypt_responds hp hdom hd, containerText_length (drawSalt_length hd)⟩

/-- A raise in a command just accepted is a response with the status of its kind (R234). -/
theorem raise_accept (k : ErrorKind) (c : Command) (s : State) :
    raise k (accept c s) = responded c (statusOfKind k) [] s := rfl

/-- The end of a command just accepted is a response with `OK` (R57). -/
theorem respond_accept (o : Bytes) (c : Command) (s : State) :
    respond o (accept c s) = responded c .ok o s := rfl

/-- Settles O39: `DECRYPT` ends as its text, then the length of its container, then its tag decide. -/
theorem decryptCompletesWithThePlaintextOrTheFirstError :
    Obligations.DecryptCompletesWithThePlaintextOrTheFirstError := by
  intro s pw inp hp hdom
  rw [execDecrypt_ends hp hdom]
  cases b64dec s.par.trailing inp with
  | none => rfl
  | some raw =>
    by_cases hlen : raw.length < 32
    · simp only [endDecoded, if_pos hlen, raise_accept, statusOfKind]
    · simp only [endDecoded, endOpened, if_neg hlen]
      cases openBytes (deriveKey pw (raw.take 16)) (raw.drop 16) <;> rfl

/-- Settles O41: decoding the text gives back the draw and what `SEAL` answered, which is ciphertext and tag. -/
theorem containerIsSaltCiphertextTag : Obligations.ContainerIsSaltCiphertextTag := by
  intro s pw inp d g hp hdom hd
  refine ⟨_, containerText pw inp d, cryptData (deriveKey pw d) inp,
    tagFor (deriveKey pw d) (cryptData (deriveKey pw d) inp), execEncrypt_responds hp hdom hd, rfl, ?_, rfl, rfl,
    drawSalt_length hd, cryptData_length _ _, tagFor_length _ _⟩
  rw [containerText, b64dec_b64enc, sealBytes, List.append_assoc]

/-! ### Where the output is written (R155) -/

/-- Settles O50: only the ends of the commands, E5 and D6, and the raises write `OUT` and `STATUS`. -/
theorem outputAppearsOnlyWithTheResponse : Obligations.OutputAppearsOnlyWithTheResponse := by
  intro s t h
  have hraise : ∀ k s', (raise k s').pc = .resp ∧ ((raise k s').status = some .ok ∨
      ((raise k s').out = some [] ∧ (raise k s').status ≠ some .ok)) :=
    fun k s' => ⟨rfl, .inr ⟨rfl, by cases k <;> simp [statusOfKind]⟩⟩
  rcases seqStep_cases h with ⟨-, rfl⟩ | ⟨-, d, g, -, rfl⟩ |
    ⟨pw, salt, -, -, ⟨-, rfl⟩ | ⟨-, rfl⟩⟩ | ⟨-, key, inp, -, -, rfl⟩ | ⟨-, salt, ctt, -, -, rfl⟩ |
    ⟨-, text, -, rfl⟩ | ⟨-, inp, -, ⟨raw, -, rfl⟩ | ⟨-, rfl⟩⟩ | ⟨-, raw, -, ⟨-, rfl⟩ | ⟨-, rfl⟩⟩ |
    ⟨-, raw, -, rfl⟩ | ⟨-, key, ctt, -, -, ⟨-, rfl⟩ | ⟨-, rfl⟩⟩ | ⟨-, pt, -, rfl⟩
  any_goals exact .inl ⟨rfl, rfl⟩
  any_goals exact .inr ⟨rfl, .inl rfl⟩
  all_goals exact .inr (hraise _ _)

/-! ### A command in pieces (R57, R60) -/

/-- Where the provider does not answer, the run waits at E1 (R152, U6). -/
theorem runSeq_e1_silent {s : State} (hp : s.pc = .e1) (hd : drawSalt s.rng = none) (n : Nat) :
    runSeq n s = .next s := by
  have hstep : seqStep s = .next s := by simp [seqStep, stepE1, unitSaltgen, hp, hd]
  induction n with
  | zero => rfl
  | succ n ih => exact runSeq_step hstep ih rfl

/-- No command has more numbered steps than `commandSteps`: further ones change nothing (R150, R151). -/
theorem runSeq_accept_add (c : Command) (s : State) (n : Nat) :
    runSeq (n + commandSteps) (accept c s) = runSeq commandSteps (accept c s) := by
  obtain ⟨mode, pw, inp⟩ := c
  have hm : mode = 0#1 ∨ mode = 1#1 := by bv_omega
  rcases hm with rfl | rfl
  · cases hd : drawSalt s.rng with
    | none =>
      have hrun := runSeq_e1_silent (s := accept ⟨0#1, pw, inp⟩ s) rfl hd
      exact (hrun (n + commandSteps)).trans (hrun commandSteps).symm
    | some answer =>
      have hrun (m : Nat) := runSeq_e1 (n := m) (s := accept ⟨0#1, pw, inp⟩ s) rfl rfl rfl rfl hd
      exact (hrun (n + 1)).trans (hrun 1).symm
  · have hrun (m : Nat) := runSeq_d1 (n := m) (s := accept ⟨1#1, pw, inp⟩ s) rfl rfl rfl rfl
    exact (hrun n).trans (hrun 0).symm

/-- Settles O52: the numbered steps before and after the look add up, and those beyond the command's last change
nothing. -/
theorem interruptedCommandEndsAlike : Obligations.InterruptedCommandEndsAlike := by
  intro s c n hp hdom
  rw [issueCommand_accepts hp hdom, issueCommand_accepts hp hdom, ← runSeq_add]
  exact runSeq_accept_add c s n

end Sys2Proof.Proofs
end

section
/-! PROOFS. Memory (20_memory.md R50, R56, R59): what each of the six unit operations leaves unchanged. -/

namespace Sys2Proof.Proofs

open Sys2Proof Sys2Proof.Machine Sys2Proof.Laws

/-- The six unit operations are what a unit call can decode to (R74). -/
theorem exists_unitCall {i : Instr}
    (h : i = .saltgen ∨ (∃ key pt, i = .aeadSeal key pt) ∨ (∃ key ctt, i = .aeadOpen key ctt) ∨
      (∃ raw, i = .b64enc raw) ∨ (∃ text, i = .b64dec text) ∨ (∃ pw salt, i = .derive pw salt)) :
    ∃ u, decodeUnitCall u = .ok i := by
  rcases h with rfl | ⟨key, pt, rfl⟩ | ⟨key, ctt, rfl⟩ | ⟨raw, rfl⟩ | ⟨text, rfl⟩ | ⟨pw, salt, rfl⟩
  · exact ⟨⟨0b000#3, []⟩, rfl⟩
  · exact ⟨⟨0b010#3, [key, pt]⟩, rfl⟩
  · exact ⟨⟨0b011#3, [key, ctt]⟩, rfl⟩
  · exact ⟨⟨0b100#3, [raw]⟩, rfl⟩
  · exact ⟨⟨0b101#3, [text]⟩, rfl⟩
  · exact ⟨⟨0b001#3, [pw, salt]⟩, rfl⟩

/-- Settles O53: each of the six writes the registers of its own unit. -/
theorem unitOperationsKeepToTheirRegisters : Obligations.UnitOperationsKeepToTheirRegisters := by
  intro s t i hi h
  rcases exec_unit_cases (exists_unitCall hi) h with ⟨rfl, hsalt⟩ | ⟨pw, salt, rfl, -, -, rfl⟩ |
    ⟨key, pt, rfl, -, -, rfl⟩ | ⟨key, ctt, rfl, -, -, -, rfl⟩ | ⟨raw, rfl, rfl⟩ | ⟨text, rfl, rfl⟩
  case' inl => rcases hsalt with ⟨-, rfl⟩ | ⟨d, g, -, rfl⟩
  -- The step register, the ports and what surrounds the core.
  all_goals refine ⟨rfl, rfl, rfl, rfl, rfl, rfl, rfl, rfl, rfl, rfl, ?_⟩
  -- `SALT`, `KEY` and the KDF unit, `CTT`, `PT`, the engine, the text, `RAW`: each its own operation's alone.
  case inl.inl | inl.inr =>
    -- `SALTGEN`
    exact ⟨fun hne => absurd rfl hne, fun _ => ⟨rfl, rfl, fun _ => rfl⟩, fun _ => rfl, fun _ => ⟨rfl, rfl⟩,
      fun _ _ => rfl, fun _ => rfl, fun _ => ⟨rfl, rfl⟩, rfl⟩
  · -- `DERIVE`
    exact ⟨fun _ => ⟨rfl, rfl⟩, fun hne => absurd rfl (hne pw salt), fun _ => rfl, fun _ => ⟨rfl, rfl⟩,
      fun _ _ => rfl, fun _ => rfl, fun _ => ⟨rfl, rfl⟩, rfl⟩
  · -- `SEAL`
    exact ⟨fun _ => ⟨rfl, rfl⟩, fun _ => ⟨rfl, rfl, fun _ => rfl⟩, fun hne => absurd rfl (hne key pt),
      fun _ => ⟨rfl, rfl⟩, fun hne => absurd rfl (hne key pt), fun _ => rfl, fun _ => ⟨rfl, rfl⟩, rfl⟩
  · -- `OPEN`
    exact ⟨fun _ => ⟨rfl, rfl⟩, fun _ => ⟨rfl, rfl, fun _ => rfl⟩, fun _ => rfl,
      fun hne => absurd rfl (hne key ctt), fun _ hne => absurd rfl (hne key ctt), fun _ => rfl,
      fun _ => ⟨rfl, rfl⟩, rfl⟩
  · -- `B64ENC`
    exact ⟨fun _ => ⟨rfl, rfl⟩, fun _ => ⟨rfl, rfl, fun _ => rfl⟩, fun _ => rfl, fun _ => ⟨rfl, rfl⟩,
      fun _ _ => rfl, fun hne => absurd rfl (hne raw), fun _ => ⟨rfl, rfl⟩, rfl⟩
  · -- `B64DEC`
    exact ⟨fun _ => ⟨rfl, rfl⟩, fun _ => ⟨rfl, rfl, fun _ => rfl⟩, fun _ => rfl, fun _ => ⟨rfl, rfl⟩,
      fun _ _ => rfl, fun _ => rfl, fun hne => absurd rfl (hne text), rfl⟩

end Sys2Proof.Proofs
end

section
/-! PROOFS. Encoding (30_encoding.md R71, R74, R80, R81): an operation and its presented form determine each other,
the reserved unit codes are refused; and the text that `B64ENC` completes with (R76, R161). -/

namespace Sys2Proof.Proofs

open Sys2Proof Sys2Proof.Machine Sys2Proof.Laws

/-! ### Decoding and encoding are inverse (R71, R74, R80) -/

/-- The command that was decoded is the encoding of its operation: the mode bit has no third value. -/
theorem encode_decodeCommand (c : Command) : encode (decodeCommand c) = .cmd c := by
  obtain ⟨mode, pw, inp⟩ := c
  have hm : mode = 0#1 ∨ mode = 1#1 := by bv_omega
  rcases hm with rfl | rfl <;> rfl

/-- A unit call that decodes has one of the six codes, with as many operands as the operation takes, so it is the
encoding of that operation. -/
theorem encode_of_decodeUnitCall {u : UnitCall} {i : Instr} (h : decodeUnitCall u = .ok i) :
    encode i = .uop u := by
  obtain ⟨code, operands⟩ := u
  unfold decodeUnitCall at h
  split_ifs at h with hcode hcode hcode hcode hcode hcode
  -- One goal per code: the operands it takes decode, any other number of them is an error.
  all_goals
    split at h
    next hoperands => cases hcode; cases hoperands; cases h; rfl
    next => cases h

theorem decode_encode (i : Instr) : decode (encode i) = .ok i := by
  cases i <;> rfl

/-- A presented form decodes to an operation exactly if it is the operation's encoding. -/
theorem decode_eq_ok_iff {p : Presented} {i : Instr} : decode p = .ok i ↔ encode i = p := by
  constructor
  · intro h
    cases p with
    | cmd c =>
      obtain rfl : decodeCommand c = i := Except.ok.inj h
      exact encode_decodeCommand c
    | uop u => exact encode_of_decodeUnitCall h
  · rintro rfl
    exact decode_encode i

/-- Settles O2: the form that decodes is the operation's encoding. -/
theorem eachPresentedFormHasOneMeaning : Obligations.EachPresentedFormHasOneMeaning :=
  fun _ _ => decode_eq_ok_iff.1

/-- Settles O1: the encoding of an operation is the form that decodes to it. -/
theorem decodeOfEncodeIsTheOperation : Obligations.DecodeOfEncodeIsTheOperation :=
  decode_encode

/-! ### The reserved unit codes (R81) -/

theorem decode_reserved {code : BitVec 3} (h : code = 0b110#3 ∨ code = 0b111#3) (operands : List Bytes) :
    decode (.uop { code := code, operands := operands }) = .error (.reservedUop code) := by
  rcases h with rfl | rfl <;> rfl

/-- A unit call at the select lines is run, whatever moves the host still has. -/
theorem step_of_uop {s : State} {u : UnitCall} (hu : s.uop = some u) :
    step s = runPresented (.uop u) { s with uop := none } := by
  simp only [step, hu]

/-- What does not decode is refused under the name of the decoding error. -/
theorem runPresented_of_error {p : Presented} {e : DecodeError} (h : decode p = .error e) (s : State) :
    runPresented p s = .refused (refusalOfDecode e) := by
  simp only [runPresented, h]

/-- Settles O3: a reserved code does not decode, whatever its operands, and the step reports the error. -/
theorem reservedUnitCodesAreRefused : Obligations.ReservedUnitCodesAreRefused := by
  intro s code operands hcode hu
  rw [step_of_uop hu]
  exact runPresented_of_error (decode_reserved hcode operands) _

/-! ### The text of `B64ENC` (R76, R161) -/

/-- Each byte of an encoding is a digit or a pad. -/
theorem b64enc_alphabet (raw : Bytes) : ∀ b ∈ b64enc raw, (b64Value b).isSome ∨ b = b64Pad := by
  intro b hb
  rw [b64enc_eq, List.mem_append] at hb
  rcases hb with hdigit | hpad
  · obtain ⟨v, hv, rfl⟩ := List.mem_map.1 hdigit
    exact .inl (by rw [b64Value_b64Digit (sextets_lt raw v hv)]; rfl)
  · exact .inr (List.eq_of_mem_replicate hpad)

/-- Settles O34: `B64ENC` refuses nothing, and an encoding is its digits and its pads. -/
theorem b64encCompletesWithItsText : Obligations.B64encCompletesWithItsText :=
  fun _ raw => ⟨rfl, b64enc_length raw, b64enc_alphabet raw⟩

end Sys2Proof.Proofs
end

section
/-! PROOFS. The key derivation (40_kdf.md R90 to R106): `DERIVE` completes; two runs of the filling agree on every
block filled so far, whatever their registers held before, so that the key is a function of the operands (R92) and
every byte of the work area is written (R97, R98). -/

namespace Sys2Proof.Proofs

open Sys2Proof Sys2Proof.Machine Sys2Proof.Laws
open Sys2Proof.Config (KdfProfile kdfProfile)

/-! ### The geometry (R93, R96) -/

theorem blockCount_core : blockCount kdfProfile = 262144 := by decide

/-- Settles O19: the numbers that the profile's 262144 KiB and 4 lanes give. -/
theorem fixedProfileGeometry : Obligations.FixedProfileGeometry :=
  ⟨blockCount_core, columns_core, segmentLen_core, by rw [blockCount_core], profileConsistent_core⟩

/-- The blocks of the four lanes lie inside `KMEM` (R50, R52). -/
theorem blockIndex_lt {l j : Nat} (hl : l < 4) (hj : j < 65536) : blockIndex kdfProfile l j < 262144 := by
  rw [blockIndex, columns_core]; omega

/-! ### `DERIVE` completes, inside `KMEM` (R90, R95, R106) -/

/-- The filling writes no byte beyond `KMEM` (R50). -/
theorem read_deriveFill_outside {order : Nat → Nat → List Nat} (hl : ∀ r s, ∀ l ∈ order r s, l < 4)
    (pw salt : Bytes) (k : KdfRegs) {a : Nat} (ha : Config.kmemBytes ≤ a) :
    (deriveFill kdfProfile order pw salt k).kmem.read a = k.kmem.read a := by
  have houtside {l j : Nat} (hl : l < 4) (hj : j < 65536) : a / 1024 ≠ blockIndex kdfProfile l j := by
    have hlt := blockIndex_lt hl hj
    rw [Config.kmemBytes] at ha
    omega
  refine deriveFill_keeps (P := fun k' => k'.kmem.read a = k.kmem.read a) hl rfl (fun k' l j hl hj hk => ?_)
    (fun _ _ _ _ _ _ _ hk => hk) (fun k' r s l i _ hs hl _ hi hk => ?_)
  · exact (read_writeBlock_outside _ _ a _ (firstBlock_length _ j l) (houtside hl (by omega))).trans hk
  · obtain ⟨ws, hws, he⟩ := fillBlock_eq kdfProfile r s l k' i
    rw [he]
    exact (read_writeBlock_outside _ _ a ws hws (houtside hl (column_lt hs hi))).trans hk

/-- Settles O14: the consistent profile always derives (R93), and the next state is `unitDerive`'s. -/
theorem deriveCompletesWithA32ByteKey : Obligations.DeriveCompletesWithA32ByteKey := by
  intro s pw salt hpw hsalt
  refine ⟨unitDerive pw salt s, execDerive_next.2 ⟨hpw, hsalt, rfl⟩, rfl, ?_, ?_, rfl, rfl, fun a ha => ?_⟩
  · exact forall_mem_some.2 (deriveKeyFrom_length pw salt s.kdf)
  · rw [unitDerive_kdf, finalRegs_h0, (deriveFill_rest laneOrder_lt).1]
  · rw [unitDerive_kdf, finalRegs_kmem, read_deriveFill_outside laneOrder_lt pw salt s.kdf ha]

/-! ### What one block is computed from (R99 to R105) -/

/-- The registers after the address block of an index has been produced, where one is due (R100). -/
def withAddresses (r s i : Nat) (k : KdfRegs) : KdfRegs := if needsAddresses r s i then nextAddresses k else k

/-- The column before the one that is written, cyclically (R101). -/
def previousColumn (P : KdfProfile) (s i : Nat) : Nat := (s * segmentLen P + i + columns P - 1) % columns P

/-- `pr`, from the address block or from the previous block (R100, R101). -/
def referenceWord (P : KdfProfile) (r s l i : Nat) (k : KdfRegs) : Word64 :=
  if independent r s then wordAt ((withAddresses r s i k).addr.getD zeroBlock) (i % 128)
  else wordAt (getB P k l (previousColumn P s i)) 0

/-- The lane of the block that `pr` refers to (R102). -/
def referencedLane (P : KdfProfile) (r s l : Nat) (pr : Word64) : Nat :=
  referenceLane P r s l (pr.toNat / 4294967296)

/-- The column of the block that `pr` refers to (R103, R104). -/
def referencedColumn (P : KdfProfile) (r s l i : Nat) (pr : Word64) : Nat :=
  referenceColumn P r s (referenceArea P r s i (decide (referencedLane P r s l pr = l))) (pr.toNat % 4294967296)

/-- The words of block (`r`, `s`, `l`, `i`) (R105). -/
def newBlock (P : KdfProfile) (r s l i : Nat) (k : KdfRegs) : List Word64 :=
  let pr := referenceWord P r s l i k
  let new := compressG (getB P k l (previousColumn P s i))
    (getB P k (referencedLane P r s l pr) (referencedColumn P r s l i pr))
  if r = 0 then new else xorBlock new (getB P k l (s * segmentLen P + i))

theorem newBlock_length (P : KdfProfile) (r s l i : Nat) (k : KdfRegs) : (newBlock P r s l i k).length = 128 := by
  unfold newBlock
  dsimp only
  split <;> simp [compressG_length]

/-- One block of the filling: its address block, then its words stored in their place. -/
theorem fillBlock_eq_newBlock (P : KdfProfile) (r s l i : Nat) (k : KdfRegs) :
    fillBlock P r s l k i =
      { withAddresses r s i k with
        kmem := writeBlock k.kmem (blockIndex P l (s * segmentLen P + i)) (newBlock P r s l i k)
        index := some i } := by
  unfold newBlock referenceWord withAddresses fillBlock
  split <;> rfl

/-- The previous block is filled: in pass 0 no block is column 0 (R98, R101). -/
theorem filledBefore_previousColumn {r s l i : Nat} (hs : s < 4) (hfirst : firstIndex r s ≤ i) (hi : i < 16384) :
    filledBefore kdfProfile r s l i l (previousColumn kdfProfile s i) := by
  have hpos : r = 0 → 0 < s * 16384 + i := fun hr => by
    by_cases h : s = 0
    · have : firstIndex r s = 2 := if_pos ⟨hr, h⟩
      omega
    · omega
  simp only [filledBefore, previousColumn, columns_core, segmentLen_core]
  omega

theorem referencedLane_lt {r s l : Nat} (hl : l < 4) (pr : Word64) : referencedLane kdfProfile r s l pr < 4 := by
  rw [referencedLane, referenceLane, lanes_core]
  split <;> omega

/-- The block that `pr` refers to is filled: O18 of the word's two halves. -/
theorem filledBefore_referenced {r s l i : Nat} (hr : r < 8) (hs : s < 4) (hl : l < 4) (hfirst : firstIndex r s ≤ i)
    (hi : i < 16384) (pr : Word64) :
    filledBefore kdfProfile r s l i (referencedLane kdfProfile r s l pr) (referencedColumn kdfProfile r s l i pr) :=
  referencedBlockIsFilledBefore r s l i _ _ hr hs hl hfirst (by rwa [segmentLen_core]) (by omega)

/-! ### The blocks filled so far (R97, R98) -/

/-- Column `j` of lane `l'` holds a block when block (`r`, `s`, `l`, `i`) is the next one in the fixed order: from
pass 1 on every column does; in pass 0 the first two, those of the slices before, those of the slice in the lanes
before, and those of the own lane. -/
def filled (r s l i l' j : Nat) : Prop :=
  j < 65536 ∧
    (r ≠ 0 ∨ j < 2 ∨ j < s * 16384 ∨ (l' < l ∧ j < (s + 1) * 16384) ∨ (l' = l ∧ j < s * 16384 + i))

theorem filled_of_filledBefore {r s l i l' j : Nat} (h : filledBefore kdfProfile r s l i l' j) :
    filled r s l i l' j := by
  simp only [filledBefore, columns_core, segmentLen_core] at h
  unfold filled
  by_cases hl : l' = l <;> omega

theorem filled_own {r s l i : Nat} (hr : r ≠ 0) (hs : s < 4) (hi : i < 16384) :
    filled r s l i l (s * segmentLen kdfProfile + i) :=
  ⟨column_lt hs hi, .inl hr⟩

/-- After a block, that block is filled and nothing else is new. -/
theorem filled_next_index {r s l i l' j : Nat} (h : filled r s l (i + 1) l' j) :
    filled r s l i l' j ∨ (l' = l ∧ j = s * segmentLen kdfProfile + i) := by
  rw [segmentLen_core]
  unfold filled at *
  omega

/-- A segment of pass 0 and slice 0 starts behind the first two columns. -/
theorem filled_firstIndex {r s l l' j : Nat} (h : filled r s l (firstIndex r s) l' j) : filled r s l 0 l' j := by
  by_cases hrs : r = 0 ∧ s = 0
  · rw [firstIndex, if_pos hrs] at h
    obtain ⟨rfl, rfl⟩ := hrs
    unfold filled at *
    omega
  · rwa [firstIndex, if_neg hrs] at h

theorem filled_next_lane {r s l l' j : Nat} (h : filled r s (l + 1) 0 l' j) : filled r s l 16384 l' j := by
  obtain ⟨hj, h⟩ := h
  exact ⟨hj, by omega⟩

theorem filled_next_slice {r s l' j : Nat} (hl : l' < 4) (h : filled r (s + 1) 0 0 l' j) : filled r s 4 0 l' j := by
  obtain ⟨hj, h⟩ := h
  refine ⟨hj, ?_⟩
  rcases h with hr | h | h | h | h <;> omega

theorem filled_next_pass {r l' j : Nat} (h : filled (r + 1) 0 0 0 l' j) : filled r 4 0 0 l' j := by
  unfold filled at *
  omega

theorem filled_start {l' j : Nat} (h : filled 0 0 0 0 l' j) : j < 2 := by
  unfold filled at h
  omega

/-! ### Memories that agree on a block -/

/-- Both memories hold a value at every byte of block `B[l][j]`, and the same one. -/
def blockAlike (m n : Memory) (l j : Nat) : Prop :=
  ∀ a, a / 1024 = blockIndex kdfProfile l j → ∃ v, m.read a = some v ∧ n.read a = some v

theorem getB_eq_of_blockAlike {k k' : KdfRegs} {l j : Nat} (h : blockAlike k.kmem k'.kmem l j) :
    getB kdfProfile k l j = getB kdfProfile k' l j :=
  readBlock_congr fun a ha => by
    obtain ⟨v, hm, hn⟩ := h a ha
    rw [hm, hn]

/-- Storing the same block in both memories makes it alike and keeps every other one so. -/
theorem blockAlike_writeBlock {m n : Memory} {l j l' j' : Nat} {ws : List Word64} (hw : ws.length = 128)
    (h : blockAlike m n l' j' ∨ (l' = l ∧ j' = j)) :
    blockAlike (writeBlock m (blockIndex kdfProfile l j) ws) (writeBlock n (blockIndex kdfProfile l j) ws) l' j' := by
  intro a ha
  by_cases hin : a / 1024 = blockIndex kdfProfile l j
  · have hlt : a - 1024 * blockIndex kdfProfile l j < (bytesOfWords ws).length := by
      rw [bytesOfWords_length, hw]; omega
    have hwritten (m : Memory) : (writeBlock m (blockIndex kdfProfile l j) ws).read a =
        some (bytesOfWords ws)[a - 1024 * blockIndex kdfProfile l j] := by
      rw [read_writeBlock m _ a ws hw, if_pos (by omega), List.getElem?_eq_getElem hlt]
    exact ⟨_, hwritten m, hwritten n⟩
  · rw [read_writeBlock_outside m _ a ws hw hin, read_writeBlock_outside n _ a ws hw hin]
    rcases h with h | ⟨rfl, rfl⟩
    · exact h a ha
    · exact absurd ha hin

/-! ### Two runs of the filling -/

/-- What holds of two runs of a fold over consecutive numbers before the first, and from each number to the next,
holds after the last. -/
theorem foldl_range'_pair {α : Type} {R : Nat → α → α → Prop} {f : α → Nat → α} {m n : Nat} {a b : α}
    (h0 : R m a b) (hstep : ∀ i a b, m ≤ i → i < m + n → R i a b → R (i + 1) (f a i) (f b i)) :
    R (m + n) ((List.range' m n).foldl f a) ((List.range' m n).foldl f b) := by
  induction n with
  | zero => exact h0
  | succ n ih =>
    rw [List.range'_1_concat, List.foldl_concat, List.foldl_concat]
    exact hstep (m + n) _ _ (by omega) (by omega) (ih fun i a b h1 h2 => hstep i a b h1 (by omega))

/-- The same from zero on. -/
theorem foldl_range_pair {α : Type} {R : Nat → α → α → Prop} {f : α → Nat → α} {n : Nat} {a b : α}
    (h0 : R 0 a b) (hstep : ∀ i a b, i < n → R i a b → R (i + 1) (f a i) (f b i)) :
    R n ((List.range n).foldl f a) ((List.range n).foldl f b) := by
  have h := foldl_range'_pair (n := n) h0 fun i a b _ hi => hstep i a b (by omega)
  rwa [Nat.zero_add, ← List.range_eq_range'] at h

/-- Two runs before block (`r`, `s`, `l`, `i`): the blocks filled so far are alike. -/
def filledAlike (r s l i : Nat) (k k' : KdfRegs) : Prop :=
  ∀ l' j, l' < 4 → filled r s l i l' j → blockAlike k.kmem k'.kmem l' j

/-- Fewer filled blocks are alike too; the registers beside the work area do not count. -/
theorem filledAlike_of_imp {r s l i r₁ s₁ l₁ i₁ : Nat} {k k' : KdfRegs} (h : filledAlike r s l i k k')
    (himp : ∀ l' j, l' < 4 → filled r₁ s₁ l₁ i₁ l' j → filled r s l i l' j) : filledAlike r₁ s₁ l₁ i₁ k k' :=
  fun l' j hl hf => h l' j hl (himp l' j hl hf)

/-- In a segment with data-independent addressing `Z` agrees from the start on, `ADDR` after the first index (R100);
in the others neither is read. -/
def addressesAlike (r s i : Nat) (k k' : KdfRegs) : Prop :=
  independent r s = true → k.z = k'.z ∧ (firstIndex r s < i → k.addr = k'.addr)

/-- The first index of a data-independent segment produces an address block (R100). -/
theorem needsAddresses_firstIndex {r s : Nat} (h : independent r s = true) :
    needsAddresses r s (firstIndex r s) = true := by
  rw [needsAddresses, h, firstIndex]
  split
  next hrs => simp [hrs]
  next => simp

/-- After the address block of an index `Z` and `ADDR` agree, the first index included. -/
theorem withAddresses_alike {r s i : Nat} {k k' : KdfRegs} (hfirst : firstIndex r s ≤ i)
    (h : addressesAlike r s i k k') (hind : independent r s = true) :
    (withAddresses r s i k).z = (withAddresses r s i k').z ∧
      (withAddresses r s i k).addr = (withAddresses r s i k').addr := by
  obtain ⟨hz, haddr⟩ := h hind
  unfold withAddresses
  split
  next => simp [nextAddresses, hz]
  next hn =>
    have hne : firstIndex r s ≠ i := fun he => hn (he ▸ needsAddresses_firstIndex hind)
    exact ⟨hz, haddr (by omega)⟩

section
variable {r s l i : Nat} {k k' : KdfRegs}

/-- Two runs take the same `pr`. -/
theorem referenceWord_alike (hs : s < 4) (hl : l < 4) (hfirst : firstIndex r s ≤ i) (hi : i < 16384)
    (hk : filledAlike r s l i k k') (ha : addressesAlike r s i k k') :
    referenceWord kdfProfile r s l i k = referenceWord kdfProfile r s l i k' := by
  have hprev := hk l _ hl (filled_of_filledBefore (filledBefore_previousColumn hs hfirst hi))
  unfold referenceWord
  split
  next hind => rw [(withAddresses_alike hfirst ha hind).2]
  next => rw [getB_eq_of_blockAlike hprev]

/-- Two runs compute the same block: every block it is computed from is filled. -/
theorem newBlock_alike (hr : r < 8) (hs : s < 4) (hl : l < 4) (hfirst : firstIndex r s ≤ i) (hi : i < 16384)
    (hk : filledAlike r s l i k k') (ha : addressesAlike r s i k k') :
    newBlock kdfProfile r s l i k = newBlock kdfProfile r s l i k' := by
  have hprev := hk l _ hl (filled_of_filledBefore (filledBefore_previousColumn hs hfirst hi))
  have href (pr : Word64) := hk _ _ (referencedLane_lt hl pr)
    (filled_of_filledBefore (filledBefore_referenced hr hs hl hfirst hi pr))
  simp only [newBlock, referenceWord_alike hs hl hfirst hi hk ha, getB_eq_of_blockAlike hprev,
    getB_eq_of_blockAlike (href _)]
  split
  next => rfl
  next hne => rw [getB_eq_of_blockAlike (hk l _ hl (filled_own hne hs hi))]

/-- One block: both runs store the same words, and their address registers agree. -/
theorem fillBlock_alike (hr : r < 8) (hs : s < 4) (hl : l < 4) (hfirst : firstIndex r s ≤ i) (hi : i < 16384)
    (hk : filledAlike r s l i k k') (ha : addressesAlike r s i k k') :
    filledAlike r s l (i + 1) (fillBlock kdfProfile r s l k i) (fillBlock kdfProfile r s l k' i) ∧
      addressesAlike r s (i + 1) (fillBlock kdfProfile r s l k i) (fillBlock kdfProfile r s l k' i) := by
  rw [fillBlock_eq_newBlock, fillBlock_eq_newBlock, newBlock_alike hr hs hl hfirst hi hk ha]
  constructor
  · intro l' j hl' hf
    exact blockAlike_writeBlock (newBlock_length ..) ((filled_next_index hf).imp_left (hk l' j hl'))
  · intro hind
    obtain ⟨hz, haddr⟩ := withAddresses_alike hfirst ha hind
    exact ⟨hz, fun _ => haddr⟩

/-- The start of a segment sets `Z` where it will be read (R100). -/
theorem addressesAlike_segmentStart :
    addressesAlike r s (firstIndex r s) (segmentStart kdfProfile r s l k) (segmentStart kdfProfile r s l k') :=
  fun hind => ⟨by simp [segmentStart, hind], fun h => absurd h (lt_irrefl _)⟩

/-- One segment (R98). -/
theorem fillSegment_alike (hr : r < 8) (hs : s < 4) (hl : l < 4) (hk : filledAlike r s l 0 k k') :
    filledAlike r s (l + 1) 0 (fillSegment kdfProfile r s k l) (fillSegment kdfProfile r s k' l) := by
  have hlen : firstIndex r s + (segmentLen kdfProfile - firstIndex r s) = 16384 := by
    have := firstIndex_le r s
    rw [segmentLen_core]; omega
  have hend := foldl_range'_pair (f := fillBlock kdfProfile r s l) (n := segmentLen kdfProfile - firstIndex r s)
    (R := fun i k k' => filledAlike r s l i k k' ∧ addressesAlike r s i k k')
    (a := segmentStart kdfProfile r s l k) (b := segmentStart kdfProfile r s l k')
    ⟨fun l' j hl' hf => hk l' j hl' (filled_firstIndex hf), addressesAlike_segmentStart⟩
    (fun i k k' hfirst hi h => fillBlock_alike hr hs hl hfirst (by omega) h.1 h.2)
  rw [hlen] at hend
  exact filledAlike_of_imp hend.1 fun _ _ _ => filled_next_lane

/-- One slice in the fixed order of the lanes (R98). -/
theorem fillSlice_alike (hr : r < 8) (hs : s < 4) (hk : filledAlike r s 0 0 k k') :
    filledAlike r (s + 1) 0 0 (fillSlice kdfProfile (laneOrder kdfProfile r s) r k s)
      (fillSlice kdfProfile (laneOrder kdfProfile r s) r k' s) :=
  have hend := foldl_range_pair (R := fun l k k' => filledAlike r s l 0 k k') (n := 4) hk
    fun _ _ _ hl h => fillSegment_alike hr hs hl h
  filledAlike_of_imp hend fun _ _ => filled_next_slice

/-- All eight passes (R98). -/
theorem fillInOrder_alike (hk : filledAlike 0 0 0 0 k k') :
    filledAlike 8 0 0 0 (fillInOrder kdfProfile (laneOrder kdfProfile) k)
      (fillInOrder kdfProfile (laneOrder kdfProfile) k') :=
  foldl_range_pair (R := fun r k k' => filledAlike r 0 0 0 k k') (n := 8) hk fun r _ _ hr h =>
    have hend := foldl_range_pair (R := fun s k k' => filledAlike r s 0 0 k k') (n := 4) h
      fun _ _ _ hs h => fillSlice_alike hr hs h
    filledAlike_of_imp hend fun _ _ _ => filled_next_pass

end

/-- The first two columns, of the lanes in order (R97). -/
theorem fillFirstColumns_alike (h0 : Bytes) (k k' : KdfRegs) :
    filledAlike 0 0 0 0 (fillFirstColumns kdfProfile h0 k) (fillFirstColumns kdfProfile h0 k') := by
  have hend := foldl_range_pair (n := 4) (a := k) (b := k')
    (f := fun k l => setB kdfProfile (setB kdfProfile k l 0 (firstBlock h0 0 l)) l 1 (firstBlock h0 1 l))
    (R := fun n k k' => ∀ l j, l < n → j < 2 → blockAlike k.kmem k'.kmem l j)
    (fun l j hl => absurd hl (Nat.not_lt_zero l))
    (fun n k k' _ h l j hl hj => by
      refine blockAlike_writeBlock (firstBlock_length h0 1 n) (or_iff_not_imp_right.2 fun h1 => ?_)
      refine blockAlike_writeBlock (firstBlock_length h0 0 n) (or_iff_not_imp_right.2 fun h2 => ?_)
      exact h l j (by omega) hj)
  exact fun l j hl hf => hend l j hl (filled_start hf)

/-- From any registers the filling ends with every block of the work area written, and the same. -/
theorem deriveFill_alike (pw salt : Bytes) (k k' : KdfRegs) {l j : Nat} (hl : l < 4) (hj : j < 65536) :
    blockAlike (deriveFill kdfProfile (laneOrder kdfProfile) pw salt k).kmem
      (deriveFill kdfProfile (laneOrder kdfProfile) pw salt k').kmem l j :=
  fillInOrder_alike (fillFirstColumns_alike _ _ _) l j hl ⟨hj, .inl (by decide)⟩

/-! ### The key and the work area after `DERIVE` -/

/-- `C` is computed from the last block of each lane (R106). -/
theorem lastColumn_congr {k k' : KdfRegs} (h : ∀ l < 4, getB kdfProfile k l 65535 = getB kdfProfile k' l 65535) :
    lastColumn kdfProfile k = lastColumn kdfProfile k' := by
  simp only [lastColumn, columns_core, lanes_core]
  rw [h 0 (by decide)]
  refine List.foldl_ext _ _ _ fun c l hl => ?_
  rw [h l (by have := List.mem_range'_1.1 hl; omega)]

/-- The key does not depend on the registers at the start (R92). -/
theorem deriveKeyFrom_eq_deriveKey (pw salt : Bytes) (k : KdfRegs) :
    deriveKeyFrom kdfProfile pw salt k = deriveKey pw salt := by
  have hlast := lastColumn_congr fun l hl =>
    getB_eq_of_blockAlike (deriveFill_alike pw salt k {} (l := l) (j := 65535) hl (by decide))
  rw [deriveKey, deriveKeyFrom, deriveKeyFrom, finalKey, finalKey, hlast]

/-- Settles O15: the filling reads no block before it has written it. -/
theorem deriveReadsNothingButItsOperands : Obligations.DeriveReadsNothingButItsOperands := by
  intro s t pw salt _ _ h
  obtain ⟨-, -, rfl⟩ := execDerive_next.1 h
  rw [unitDerive_codec, deriveKeyFrom_eq_deriveKey]

/-- Settles O16: the filling writes all 65536 columns of the four lanes. -/
theorem deriveWritesTheWholeWorkArea : Obligations.DeriveWritesTheWholeWorkArea := by
  intro s t pw salt _ _ h a ha
  obtain ⟨-, -, rfl⟩ := execDerive_next.1 h
  rw [Config.kmemBytes] at ha
  have hblock : a / 1024 = blockIndex kdfProfile (a / 1024 / 65536) (a / 1024 % 65536) := by
    rw [blockIndex, columns_core]; omega
  obtain ⟨v, hv, -⟩ := deriveFill_alike pw salt s.kdf s.kdf (l := a / 1024 / 65536) (j := a / 1024 % 65536)
    (by omega) (by omega) a hblock
  rw [unitDerive_kdf, finalRegs_kmem, hv, Option.isSome_some]

end Sys2Proof.Proofs
end

section
/-! PROOFS. The primitives of the key derivation (41_kdf_primitives.md): the corner cases of the block compression
(R130), the lengths of the hashes (R125, R126), the multiply of the mixing function on naturals (R127). -/

namespace Sys2Proof.Proofs

open Sys2Proof Sys2Proof.Machine Sys2Proof.Laws

/-! ### The block compression keeps zero words (R127 to R130) -/

@[simp] theorem wordAt_zeros (n k : Nat) : wordAt (List.replicate n 0#64) k = 0#64 := by
  rw [wordAt, List.getD_eq_getElem?_getD, List.getElem?_replicate]
  split <;> rfl

/-- Additions that keep zero make a quarter round keep zero: exclusive or and rotation do. -/
theorem quarterRound_zero {add : Bool → Word64 → Word64 → Word64} {add2 : Word64 → Word64 → Word64}
    (hadd : ∀ half, add half 0#64 0#64 = 0#64) (hadd2 : add2 0#64 0#64 = 0#64) :
    quarterRound add add2 (0#64, 0#64, 0#64, 0#64) = (0#64, 0#64, 0#64, 0#64) := by
  have hxor : (0#64 ^^^ 0#64 : Word64) = 0#64 := rfl
  have hrot : ∀ n, rotr64 0#64 n = 0#64 := fun n => by simp [rotr64]
  simp only [quarterRound, hadd, hadd2, hxor, hrot]

theorem gb_zeros (n : Nat) (p : Nat × Nat × Nat × Nat) :
    gb (List.replicate n 0#64) p = List.replicate n 0#64 := by
  have hfour : getFour (List.replicate n 0#64) p = (0#64, 0#64, 0#64, 0#64) := by simp [getFour]
  rw [gb, hfour, quarterRound_zero (fun _ => rfl) rfl]
  simp only [setFour, List.set_replicate_self]

theorem permP_zeros (n : Nat) : permP (List.replicate n 0#64) = List.replicate n 0#64 :=
  List.foldl_fixed' (gb_zeros n) _

/-- The words at any positions of an all-zero block are zero, and so are those that `P` writes back. -/
theorem permAt_zeros (n : Nat) (idx : List Nat) : permAt (List.replicate n 0#64) idx = List.replicate n 0#64 := by
  have hwords : idx.map (wordAt (List.replicate n 0#64)) = List.replicate idx.length 0#64 :=
    List.map_eq_replicate_iff.2 fun k _ => wordAt_zeros n k
  rw [permAt, hwords, permP_zeros]
  refine foldl_keeps (P := (· = List.replicate n 0#64)) (fun q iw hiw hq => ?_) rfl
  have hzero : iw.2 = 0#64 := List.eq_of_mem_replicate (List.of_mem_zip hiw).2
  rw [hq, hzero, List.set_replicate_self]

theorem xorBlock_comm (x y : List Word64) : xorBlock x y = xorBlock y x :=
  List.zipWith_comm_of_comm BitVec.xor_comm

theorem xorBlock_self (x : List Word64) : xorBlock x x = List.replicate x.length 0#64 := by
  simp [xorBlock, List.zipWith_self]

theorem compressG_comm (x y : List Word64) : compressG x y = compressG y x := by
  rw [compressG, xorBlock_comm x y, compressG]

/-- `X xor X` is zero, the rows and the columns keep it, and zero xor zero is zero. -/
theorem compressG_self (x : List Word64) : compressG x x = List.replicate x.length 0#64 := by
  have hpass (positions : Nat → List Nat) (n : Nat) :
      (List.range 8).foldl (fun q i => permAt q (positions i)) (List.replicate n 0#64) = List.replicate n 0#64 :=
    List.foldl_fixed' (fun i => permAt_zeros n (positions i)) _
  simp only [compressG, xorBlock_self, hpass, List.length_replicate]

/-- Settles O22: `G` sees its arguments through their exclusive or only, and every step after it keeps zero. -/
theorem blockCompressionCornerCases : Obligations.BlockCompressionCornerCases :=
  ⟨fun x hx => by rw [compressG_self, hx], compressG_comm⟩

/-! ### The lengths of the hashes (R125, R126) -/

/-- A full hash has the 32 bytes that a link of the chain takes from it. -/
theorem le_blake2b_length (data : Bytes) : 32 ≤ (blake2b data 64).length := by
  rw [blake2b_length (Nat.le_refl 64)]; omega

/-- A chain of `rr + 1` links takes 32 bytes from each and ends with one hash of the length left over. -/
theorem hashChain_length {lastLen : Nat} (hlast : lastLen ≤ 64) (rr : Nat) (v : Bytes) (hv : 32 ≤ v.length) :
    (hashChain lastLen (rr + 1) v).length = 32 * (rr + 1) + lastLen := by
  induction rr generalizing v with
  | zero => rw [hashChain, List.length_append, List.length_take, blake2b_length hlast]; omega
  | succ rr ih =>
    rw [hashChain, List.length_append, List.length_take, ih _ (le_blake2b_length v)]; omega

/-- Beyond 64 bytes there is at least one piece of 32 bytes, and what is left over is one hash of 33 to 64. -/
theorem hPrime_length (data : Bytes) (tlen : Nat) : (hPrime data tlen).length = tlen := by
  rw [hPrime]
  split
  next hshort => exact blake2b_length hshort
  next hlong =>
    obtain ⟨rr, hrr⟩ : ∃ rr, ceilDiv tlen 32 - 2 = rr + 1 := ⟨ceilDiv tlen 32 - 3, by rw [ceilDiv]; omega⟩
    have hpieces : 32 * (rr + 1) ≤ tlen ∧ tlen - 32 * (rr + 1) ≤ 64 := by rw [ceilDiv] at hrr; omega
    simp only [hrr]
    rw [hashChain_length hpieces.2 rr _ (le_blake2b_length _)]
    omega

/-- Settles O23: `H'` even answers the empty string for no bytes. -/
theorem hashesAnswerTheLengthAskedFor : Obligations.HashesAnswerTheLengthAskedFor :=
  ⟨fun _ _ _ h => blake2b_length h, fun data tlen _ => hPrime_length data tlen⟩

/-! ### The multiply of the mixing function (R127, R221) -/

/-- The mask keeps the low half of a word. -/
theorem toNat_and_low32 (x : Word64) : (x &&& 0xFFFFFFFF#64).toNat = x.toNat % 2 ^ 32 := by
  rw [BitVec.toNat_and]
  exact Nat.and_two_pow_sub_one_eq_mod x.toNat 32

/-- Settles O21: reducing after each operation or once after the sum is the same. -/
theorem mixingMultiplyWrapsAfterTheSum : Obligations.MixingMultiplyWrapsAfterTheSum := by
  intro x y
  rw [fBlaMka, BitVec.toNat_add, BitVec.toNat_add, BitVec.toNat_mul, BitVec.toNat_mul, toNat_and_low32,
    toNat_and_low32, BitVec.toNat_ofNat]
  simp [Nat.add_mod, Nat.mul_mod]

end Sys2Proof.Proofs
end

section
/-! PROOFS. The text coder (42_codec.md R162, R163): the accepted texts under `reject` are the canonical ones, `ignore`
accepts them alike, and which texts are not accepted (R232). -/

namespace Sys2Proof.Proofs

open Sys2Proof Sys2Proof.Machine Sys2Proof.Laws

/-- Settles O35: `B64DEC` refuses nothing, and `B64_OK` is whether there is a result. -/
theorem b64decCompletesWithItsVerdict : Obligations.B64decCompletesWithItsVerdict :=
  fun _ _ => rfl

/-! ### A text is its body and its pads (R162) -/

/-- The part of a text before its pads. -/
def bodyOf (text : Bytes) : Bytes := text.take (text.length - b64PadCount text)

theorem b64PadCount_le (text : Bytes) : b64PadCount text ≤ 2 ∧ b64PadCount text ≤ text.length := by
  rcases b64PadCount_cases text with ⟨hc, hl, -⟩ | ⟨hc, hl, -⟩ | ⟨hc, -⟩ <;> omega

theorem bodyOf_length (text : Bytes) : (bodyOf text).length = text.length - b64PadCount text := by
  simp [bodyOf]

/-- The places behind the body are the last place, if a pad stands there, and then the last but one, if a pad
stands there too. -/
theorem behind_body_iff {text : Bytes} {i : Nat} (hi : i < text.length) :
    text.length - b64PadCount text ≤ i ↔
      text[i]? = some b64Pad ∧
        (i + 1 = text.length ∨ (i + 2 = text.length ∧ text[i + 1]? = some b64Pad)) := by
  have hlast : i + 1 = text.length → text.length - 1 = i := by omega
  have hbefore : i + 2 = text.length → text.length - 2 = i ∧ text.length - 1 = i + 1 := by omega
  rcases b64PadCount_cases text with ⟨hc, hl, h2, h1⟩ | ⟨hc, hl, h1, h2⟩ | ⟨hc, h1⟩ <;> rw [hc]
  · constructor
    · intro hge
      rcases (by omega : i + 1 = text.length ∨ i + 2 = text.length) with hend | hend
      · exact ⟨hlast hend ▸ h1, .inl hend⟩
      · obtain ⟨e2, e1⟩ := hbefore hend
        exact ⟨e2 ▸ h2, .inr ⟨hend, e1 ▸ h1⟩⟩
    · rintro ⟨-, hend | ⟨hend, -⟩⟩ <;> omega
  · constructor
    · intro hge
      have hend : i + 1 = text.length := by omega
      exact ⟨hlast hend ▸ h1, .inl hend⟩
    · rintro ⟨hpad, hend | ⟨hend, -⟩⟩
      · omega
      · obtain ⟨e2, -⟩ := hbefore hend
        exact absurd (e2 ▸ hpad) (h2 (by omega))
  · constructor
    · intro hge
      omega
    · rintro ⟨hpad, hend | ⟨hend, hnext⟩⟩
      · exact absurd (hlast hend ▸ hpad) h1
      · obtain ⟨-, e1⟩ := hbefore hend
        exact absurd (e1 ▸ hnext) h1

theorem bodyOf_append_pads (text : Bytes) :
    bodyOf text ++ List.replicate (b64PadCount text) b64Pad = text := by
  obtain ⟨-, hle⟩ := b64PadCount_le text
  have hpads : text.drop (text.length - b64PadCount text) = List.replicate (b64PadCount text) b64Pad := by
    refine List.eq_replicate_iff.2 ⟨by simp; omega, fun b hb => ?_⟩
    obtain ⟨i, hi, rfl⟩ := List.mem_iff_getElem.1 hb
    rw [List.length_drop] at hi
    rw [List.getElem_drop]
    obtain ⟨hpad, -⟩ := (behind_body_iff (text := text) (i := text.length - b64PadCount text + i)
      (by omega)).1 (by omega)
    exact (List.getElem_eq_iff _).2 hpad
  rw [← hpads]
  exact List.take_append_drop _ _

/-- A text of whole groups decodes to what the digit values of its body are regrouped to. -/
theorem b64dec_eq_bind (trailing : TrailingBits) {text : Bytes} (h : text.length % 4 = 0) :
    b64dec trailing text = (b64Values (bodyOf text)).bind (b64Groups trailing) := by
  rw [b64dec, if_neg (not_not.2 h), ← bodyOf]
  cases b64Values (bodyOf text) <;> rfl

theorem b64dec_eq_none_of_length {trailing : TrailingBits} {text : Bytes} (h : text.length % 4 ≠ 0) :
    b64dec trailing text = none := if_pos h

/-- When a text decodes, and to what. -/
theorem b64dec_eq_some {trailing : TrailingBits} {text raw : Bytes} :
    b64dec trailing text = some raw ↔
      text.length % 4 = 0 ∧ ∃ vs, b64Values (bodyOf text) = some vs ∧ b64Groups trailing vs = some raw := by
  by_cases hlen : text.length % 4 = 0
  · rw [b64dec_eq_bind trailing hlen, Option.bind_eq_some_iff, and_iff_right hlen]
  · simp [b64dec_eq_none_of_length hlen, hlen]

/-! ### The accepted texts under `reject` are the canonical ones (R163) -/

/-- A digit is the digit of its value. -/
theorem b64Digit_of_b64Value {b : Byte} {v : Nat} (h : b64Value b = some v) : b64Digit v = b ∧ v < 64 := by
  have hall : ∀ b : Byte, ∀ v ∈ b64Value b, b64Digit v = b ∧ v < 64 := by decide
  exact hall b v h

theorem map_b64Digit_of_b64Values {body : Bytes} {vs : List Nat} (h : b64Values body = some vs) :
    vs.map b64Digit = body ∧ ∀ v ∈ vs, v < 64 := by
  induction body generalizing vs with
  | nil => cases h; simp
  | cons b bs ih =>
    unfold b64Values at h
    split at h
    next v vs' hv hvs =>
      cases h
      obtain ⟨hdigit, hlt⟩ := b64Digit_of_b64Value hv
      obtain ⟨hdigits, hlts⟩ := ih hvs
      exact ⟨by rw [List.map_cons, hdigit, hdigits], List.forall_mem_cons.2 ⟨hlt, hlts⟩⟩
    next => cases h

theorem toNat_b64ByteAt (n lo : Nat) : (b64ByteAt n lo).toNat = n / 2 ^ lo % 256 := by
  rw [b64ByteAt, BitVec.toNat_ofNat, Nat.mod_mod]

/-- Digit values whose unused bits are zero are those of the byte string they are regrouped to. -/
theorem sextets_of_b64Groups {vs : List Nat} :
    (∀ v ∈ vs, v < 64) → ∀ raw ∈ b64Groups .reject vs, sextets raw = vs := by
  fun_induction b64Groups .reject vs with
  | case1 d0 d1 d2 d3 rest n bs hbs ih =>
    simp only [List.forall_mem_cons, Option.mem_some_iff]
    rintro ⟨h0, h1, h2, h3, hrest⟩ raw rfl
    simp only [sextets, sextetAt, toNat_b64ByteAt, ih hrest bs hbs, List.cons.injEq, and_true, n]
    omega
  | case2 | case3 | case5 | case7 => simp
  | case4 d0 d1 d2 n hunused =>
    simp only [List.forall_mem_cons, Option.mem_some_iff]
    rintro ⟨h0, h1, h2, -⟩ raw rfl
    simp only [sextets, sextetAt, toNat_b64ByteAt, List.cons.injEq, and_true, n]
    simp only [and_true, not_not] at hunused
    omega
  | case6 d0 d1 n hunused =>
    simp only [List.forall_mem_cons, Option.mem_some_iff]
    rintro ⟨h0, h1, -⟩ raw rfl
    simp only [sextets, sextetAt, toNat_b64ByteAt, List.cons.injEq, and_true, n]
    simp only [and_true, not_not] at hunused
    omega
  | case8 => simp [sextets]

/-- The digits and the pads of an encoding fill groups of four. -/
theorem sextets_length_add_padsOf (raw : Bytes) :
    ((sextets raw).length + padsOf raw.length) % 4 = 0 := by
  have hlen := b64enc_length raw
  rw [b64enc_eq, List.length_append, List.length_map, List.length_replicate] at hlen
  omega

/-- A text accepted under `reject` is the encoding of its result: the digits agree, and so do the pads, of which
there are at most two and as many as fill the last group. -/
theorem b64enc_of_b64dec {text raw : Bytes} (h : b64dec .reject text = some raw) : b64enc raw = text := by
  obtain ⟨hlen, vs, hvs, hgroups⟩ := b64dec_eq_some.1 h
  obtain ⟨hdigits, hlt⟩ := map_b64Digit_of_b64Values hvs
  have hsextets : sextets raw = vs := sextets_of_b64Groups hlt raw hgroups
  have hpads : padsOf raw.length = b64PadCount text := by
    have hfill := sextets_length_add_padsOf raw
    rw [hsextets, b64Values_length hvs, bodyOf_length] at hfill
    obtain ⟨hle2, hle⟩ := b64PadCount_le text
    have hpadsOf : padsOf raw.length ≤ 2 := by unfold padsOf; omega
    omega
  rw [b64enc_eq, hsextets, hdigits, hpads]
  exact bodyOf_append_pads text

/-- Settles O36. -/
theorem textDecodingInvertsEncoding : Obligations.TextDecodingInvertsEncoding :=
  ⟨b64dec_b64enc, fun _ _ => b64enc_of_b64dec⟩

/-! ### The two settings of the trailing bits (R162) -/

/-- Where `reject` finds no unused bits set, `ignore` regroups alike. -/
theorem b64Groups_ignore {vs : List Nat} :
    ∀ raw ∈ b64Groups .reject vs, raw ∈ b64Groups .ignore vs := by
  fun_induction b64Groups .reject vs with
  | case1 d0 d1 d2 d3 rest n bs hbs ih =>
    have hbs' : b64Groups .ignore rest = some bs := ih bs hbs
    simp [b64Groups, hbs', n]
  | case2 | case3 | case5 | case7 => simp
  | case4 d0 d1 d2 n | case6 d0 d1 n => simp [b64Groups, n]
  | case8 => simp [b64Groups]

/-- Settles O37: the settings meet in the regrouping only. -/
theorem ignoringTrailingBitsOnlyAcceptsMore : Obligations.IgnoringTrailingBitsOnlyAcceptsMore := by
  intro text raw h
  obtain ⟨hlen, vs, hvs, hgroups⟩ := b64dec_eq_some.1 h
  exact b64dec_eq_some.2 ⟨hlen, vs, hvs, b64Groups_ignore raw hgroups⟩

/-! ### The texts that do not decode (R162, R232) -/

theorem bodyOf_getElem?_eq_some {text : Bytes} {i : Nat} {b : Byte} :
    (bodyOf text)[i]? = some b ↔ i < text.length - b64PadCount text ∧ text[i]? = some b := by
  rw [bodyOf, b64dec_body_getElem]
  split <;> simp [*]

/-- A misplaced byte is a byte of the body that is no digit. -/
theorem misplacedByte_iff {text : Bytes} {i : Nat} :
    misplacedByte text i ↔ ∃ b, (bodyOf text)[i]? = some b ∧ b64Value b = none := by
  unfold misplacedByte
  refine exists_congr fun b => ?_
  rw [bodyOf_getElem?_eq_some]
  constructor
  · rintro ⟨hb, hv, hplace⟩
    obtain ⟨hi, -⟩ := List.getElem?_eq_some_iff.1 hb
    refine ⟨⟨?_, hb⟩, hv⟩
    rw [← not_le, behind_body_iff hi, hb, Option.some.injEq]
    exact hplace
  · rintro ⟨⟨hlt, hb⟩, hv⟩
    obtain ⟨hi, -⟩ := List.getElem?_eq_some_iff.1 hb
    rw [← not_le, behind_body_iff hi, hb, Option.some.injEq] at hlt
    exact ⟨hb, hv, hlt⟩

theorem exists_misplacedByte_iff {text : Bytes} :
    (∃ i, misplacedByte text i) ↔ b64Values (bodyOf text) = none := by
  simp only [b64Values_eq_none, misplacedByte_iff, List.mem_iff_getElem?]
  constructor
  · rintro ⟨i, b, hb, hv⟩
    exact ⟨b, ⟨i, hb⟩, hv⟩
  · rintro ⟨b, ⟨i, hb⟩, hv⟩
    exact ⟨i, b, hb, hv⟩

/-- The pad is no digit (R160). -/
theorem b64Value_b64Pad : b64Value b64Pad = none := rfl

/-- In a text whose body is digits, the pads are the bytes behind the body. -/
theorem behind_body_iff_pad {text : Bytes} {vs : List Nat} (hvs : b64Values (bodyOf text) = some vs) {i : Nat}
    {b : Byte} (hb : text[i]? = some b) : text.length - b64PadCount text ≤ i ↔ b = b64Pad := by
  obtain ⟨hi, -⟩ := List.getElem?_eq_some_iff.1 hb
  constructor
  · intro hge
    obtain ⟨hpad, -⟩ := (behind_body_iff hi).1 hge
    exact Option.some.inj (hb.symm.trans hpad)
  · rintro rfl
    by_contra hlt
    have hmem : b64Pad ∈ bodyOf text := List.mem_of_getElem? (bodyOf_getElem?_eq_some.2 ⟨not_le.1 hlt, hb⟩)
    have hnone : b64Values (bodyOf text) = none := b64Values_eq_none.2 ⟨b64Pad, hmem, b64Value_b64Pad⟩
    simp [hvs] at hnone

/-- In a text whose body is digits, the unused bits are those of the body's last digit: two before one pad, four
before two. -/
theorem unusedBitsSet_iff {text : Bytes} {vs : List Nat} (hvs : b64Values (bodyOf text) = some vs) :
    unusedBitsSet text ↔ ∃ v, vs[vs.length - 1]? = some v ∧
      ((b64PadCount text = 1 ∧ v % 4 ≠ 0) ∨ (b64PadCount text = 2 ∧ v % 16 ≠ 0)) := by
  have hvslen : vs.length = text.length - b64PadCount text := by
    rw [b64Values_length hvs, bodyOf_length]
  obtain ⟨-, hle⟩ := b64PadCount_le text
  constructor
  · rintro ⟨i, b, v, hb, hv, hpad, hunused⟩
    have hdigit : i < text.length - b64PadCount text := by
      rw [← not_le, behind_body_iff_pad hvs hb]
      rintro rfl
      simp [b64Value_b64Pad] at hv
    have hnext : text.length - b64PadCount text ≤ i + 1 := (behind_body_iff_pad hvs hpad).2 rfl
    refine ⟨v, ?_, ?_⟩
    · rw [show vs.length - 1 = i by omega, b64Values_getElem hvs, bodyOf_getElem?_eq_some.2 ⟨hdigit, hb⟩]
      exact hv
    · rcases hunused with ⟨hend, hbits⟩ | ⟨hend, hbits⟩
      · exact .inr ⟨by omega, hbits⟩
      · exact .inl ⟨by omega, hbits⟩
  · rintro ⟨v, hlast, hunused⟩
    obtain ⟨hpos, -⟩ := List.getElem?_eq_some_iff.1 hlast
    rw [b64Values_getElem hvs, Option.bind_eq_some_iff] at hlast
    obtain ⟨b, hbody, hv⟩ := hlast
    obtain ⟨hlt, hb⟩ := bodyOf_getElem?_eq_some.1 hbody
    have hpad : text[vs.length - 1 + 1]? = some b64Pad := by
      obtain ⟨h, -⟩ := (behind_body_iff (text := text) (i := vs.length - 1 + 1) (by omega)).1 (by omega)
      exact h
    refine ⟨vs.length - 1, b, v, hb, hv, hpad, ?_⟩
    rcases hunused with ⟨hp, hbits⟩ | ⟨hp, hbits⟩
    · exact .inr ⟨by omega, hbits⟩
    · exact .inl ⟨by omega, hbits⟩

/-- In a text of whole groups whose body is digits, the regrouping fails on unused bits only. -/
theorem groupsFail_iff {trailing : TrailingBits} {text : Bytes} {vs : List Nat} (hlen : text.length % 4 = 0)
    (hvs : b64Values (bodyOf text) = some vs) :
    GroupsFail trailing vs ↔ trailing = .reject ∧ unusedBitsSet text := by
  have hvslen : vs.length = text.length - b64PadCount text := by
    rw [b64Values_length hvs, bodyOf_length]
  obtain ⟨hle2, hle⟩ := b64PadCount_le text
  have h1 : ¬ vs.length % 4 = 1 := by omega
  have h3 : vs.length % 4 = 3 ↔ b64PadCount text = 1 := by omega
  have h2 : vs.length % 4 = 2 ↔ b64PadCount text = 2 := by omega
  rw [GroupsFail, unusedBitsSet_iff hvs, h3, h2, or_iff_right h1]

/-- Which texts do not decode (R162, R232). -/
theorem b64dec_eq_none_iff_malformedText (trailing : TrailingBits) (text : Bytes) :
    b64dec trailing text = none ↔ malformedText trailing text := by
  rw [malformedText, exists_misplacedByte_iff]
  by_cases hlen : text.length % 4 = 0
  · rw [b64dec_eq_bind trailing hlen]
    cases hvs : b64Values (bodyOf text) with
    | none => simp
    | some vs => simp [hlen, b64Groups_eq_none, groupsFail_iff hlen hvs]
  · simp [b64dec_eq_none_of_length hlen, hlen]

end Sys2Proof.Proofs
end

section
/-! PROOFS. The two commands (42_codec.md): malformed containers give `FormatError` (R151, R232), `DECRYPT` inverts
`ENCRYPT` (R157), and a provider that does not answer leaves `ENCRYPT` at E1 (R152). -/

namespace Sys2Proof.Proofs

open Sys2Proof Sys2Proof.Machine Sys2Proof.Laws

/-! ### Malformed containers (R151, R232) -/

/-- Four digits give three bytes, three give two, two give one (R162). -/
theorem b64Groups_length {trailing : TrailingBits} {vs : List Nat} :
    ∀ raw ∈ b64Groups trailing vs, raw.length = vs.length * 3 / 4 := by
  fun_induction b64Groups trailing vs with
  | case1 d0 d1 d2 d3 rest n bs hbs ih =>
    have hlen := ih bs hbs
    simp only [Option.mem_some_iff]
    rintro raw rfl
    simp only [List.length_cons, hlen]
    omega
  | case2 | case3 | case5 | case7 => simp
  | case4 | case6 | case8 => simp

/-- Every four characters of a text stand for three bytes, less the pads (R162). -/
theorem length_of_b64dec {trailing : TrailingBits} {text raw : Bytes} (h : b64dec trailing text = some raw) :
    4 * (raw.length + b64PadCount text) = 3 * text.length := by
  obtain ⟨hlen, vs, hvs, hgroups⟩ := b64dec_eq_some.1 h
  have hraw := b64Groups_length raw hgroups
  rw [b64Values_length hvs, bodyOf_length] at hraw
  obtain ⟨hle2, hle⟩ := b64PadCount_le text
  omega

/-- Below 44 characters, and with 44 of which the last two are pads, there is no room for the 32 bytes of a salt and
a tag (R232). -/
theorem length_lt_of_b64dec_short {trailing : TrailingBits} {text raw : Bytes}
    (hshort : text.length < 44 ∨ (text.length = 44 ∧ text.drop 42 = [b64Pad, b64Pad]))
    (h : b64dec trailing text = some raw) : raw.length < 32 := by
  have hlen := length_of_b64dec h
  rcases hshort with hlt | ⟨heq, hpads⟩
  · omega
  · have hcount : b64PadCount text = 2 := by rw [b64PadCount, heq, if_pos hpads]
    omega

/-- When a `DECRYPT` is inside the admitted domain (R72). -/
theorem inDomain_decrypt {par : Params} {pw inp : Bytes} (hpw : pw.length ≤ Config.maxPwLen)
    (hinp : inp.length ≤ par.capIn)
    (hraw : ∀ raw, b64dec par.trailing inp = some raw → raw.length ≤ Config.maxPtLen + Config.minRawLen) :
    inDomain { mode := 1#1, pw := pw, inp := inp } par := by
  have hmode : ¬ 1#1 = 0#1 := by decide
  rw [inDomain, refusalOf, if_neg (not_lt.2 hpw), if_neg (not_lt.2 hinp), if_neg hmode]
  cases hdec : b64dec par.trailing inp with
  | none => rfl
  | some raw =>
    have hle := hraw raw hdec
    exact if_neg (by omega)

/-- A text that does not decode to 32 bytes or more gives `FormatError` (steps D1, D2). -/
theorem execDecrypt_formatError {s : State} {pw inp : Bytes} (hp : s.pc = .idle)
    (hpw : pw.length ≤ Config.maxPwLen) (hinp : inp.length ≤ s.par.capIn)
    (hraw : ∀ raw, b64dec s.par.trailing inp = some raw → raw.length < 32) :
    exec (.decrypt pw inp) s = .next (responded { mode := 1#1, pw := pw, inp := inp } .formatError [] s) := by
  have hdom : inDomain { mode := 1#1, pw := pw, inp := inp } s.par :=
    inDomain_decrypt hpw hinp fun raw hdec => by
      have hlt := hraw raw hdec
      rw [Config.minRawLen]
      omega
  rw [decryptCompletesWithThePlaintextOrTheFirstError s pw inp hp hdom]
  cases hdec : b64dec s.par.trailing inp with
  | none => rfl
  | some raw => simp only [if_pos (hraw raw hdec)]

/-- Settles O45: each of the four causes leaves no container of 32 bytes. -/
theorem malformedContainersGiveFormatError : Obligations.MalformedContainersGiveFormatError := by
  refine ⟨b64dec_eq_none_iff_malformedText, fun s pw inp hp hpw hinp hcause => ?_⟩
  refine execDecrypt_formatError hp hpw hinp fun raw hdec => ?_
  rcases hcause with hmalformed | ⟨raw', hdec', hlt⟩ | hshort
  · rw [(b64dec_eq_none_iff_malformedText s.par.trailing inp).2 hmalformed] at hdec
    cases hdec
  · rw [hdec', Option.some.injEq] at hdec
    exact hdec ▸ hlt
  · exact length_lt_of_b64dec_short hshort hdec

/-! ### The round trip (R157, R187, R193) -/

/-- The same keystream twice cancels. -/
theorem xorBytes_xorBytes {x k : Bytes} (h : x.length ≤ k.length) : xorBytes (xorBytes x k) k = x := by
  induction x generalizing k with
  | nil => rfl
  | cons b x ih =>
    cases k with
    | nil => simp at h
    | cons c k =>
      have hrest : xorBytes (xorBytes x k) k = x := ih (by simpa using h)
      have hhead : b ^^^ c ^^^ c = b := by rw [BitVec.xor_assoc, BitVec.xor_self, BitVec.xor_zero]
      exact List.cons_eq_cons.2 ⟨hhead, hrest⟩

/-- What counter mode makes of its first piece is 16 bytes, or there is no second piece. -/
theorem gctrBlocks_take_drop (rks : List Bytes) (m : Nat) (cb x : Bytes) :
    (gctrBlocks rks (m + 1) cb x).take 16 = xorBytes (x.take 16) (aes256 rks cb) ∧
      (gctrBlocks rks (m + 1) cb x).drop 16 = gctrBlocks rks m (inc32 cb) (x.drop 16) := by
  have hpiece : (xorBytes (x.take 16) (aes256 rks cb)).length = min 16 x.length := by simp
  have hrest : (gctrBlocks rks m (inc32 cb) (x.drop 16)).length = min (16 * m) (x.length - 16) := by
    rw [gctrBlocks_length, List.length_drop]
  rw [gctrBlocks]
  by_cases hfull : 16 ≤ x.length
  · have h16 : (xorBytes (x.take 16) (aes256 rks cb)).length = 16 := by omega
    exact ⟨List.take_left' h16, List.drop_left' h16⟩
  · have hnil : gctrBlocks rks m (inc32 cb) (x.drop 16) = [] := List.eq_nil_of_length_eq_zero (by omega)
    rw [hnil, List.append_nil]
    exact ⟨List.take_of_length_le (by omega), List.drop_of_length_le (by omega)⟩

/-- Counter mode is its own inverse, piece by piece (R187). -/
theorem gctrBlocks_gctrBlocks {rks : List Bytes} {m : Nat} {cb x : Bytes} (h : x.length ≤ 16 * m) :
    gctrBlocks rks m cb (gctrBlocks rks m cb x) = x := by
  induction m generalizing cb x with
  | zero =>
    obtain rfl : x = [] := List.eq_nil_of_length_eq_zero (by omega)
    rfl
  | succ m ih =>
    obtain ⟨htake, hdrop⟩ := gctrBlocks_take_drop rks m cb x
    have hrest : (x.drop 16).length ≤ 16 * m := by rw [List.length_drop]; omega
    rw [gctrBlocks, htake, hdrop, xorBytes_xorBytes (by simp), ih hrest]
    exact List.take_append_drop 16 x

/-- Counter mode with one key and one counter block is its own inverse (R187). -/
theorem gctr_gctr (rks : List Bytes) (icb x : Bytes) : gctr rks icb (gctr rks icb x) = x := by
  rw [gctr, gctr_length, gctr]
  exact gctrBlocks_gctrBlocks (by rw [ceilDiv]; omega)

/-- Decrypting is encrypting (R187, R190). -/
theorem cryptData_cryptData (key x : Bytes) : cryptData key (cryptData key x) = x := gctr_gctr _ _ _

/-- `OPEN` of what `SEAL` answers gives the plaintext (R193): the tag is recomputed over the same ciphertext. -/
theorem openBytes_sealBytes (key pt : Bytes) : openBytes key (sealBytes key pt) = some pt := by
  have hdata : cttData (sealBytes key pt) = cryptData key pt := cttData_append (tagFor_length _ _)
  have htag : cttTag (sealBytes key pt) = tagFor key (cryptData key pt) := cttTag_append (tagFor_length _ _)
  have hok : openOk key (sealBytes key pt) = true := by rw [openOk, hdata, htag, tagOkOf, decide_eq_true rfl]
  rw [openBytes, if_pos hok, hdata, cryptData_cryptData]

/-- The limits that an `ENCRYPT` inside the admitted domain keeps (R72). -/
theorem inDomain_encrypt {par : Params} {pw inp : Bytes}
    (h : inDomain { mode := 0#1, pw := pw, inp := inp } par) :
    pw.length ≤ Config.maxPwLen ∧ inp.length ≤ par.capIn ∧ inp.length ≤ Config.maxPtLen := by
  rw [inDomain, refusalOf] at h
  split_ifs at h with hpw hcap hmode hinp
  · exact ⟨not_lt.1 hpw, not_lt.1 hcap, not_lt.1 hinp⟩
  · exact absurd rfl hmode

/-- `DECRYPT` of a container text gives its plaintext: the text decodes to the salt and what `SEAL` answered. -/
theorem execDecrypt_containerText {s : State} {pw inp d : Bytes} (hp : s.pc = .idle) (hd : d.length = 16)
    (hdom : inDomain { mode := 1#1, pw := pw, inp := containerText pw inp d } s.par) :
    exec (.decrypt pw (containerText pw inp d)) s = .next
      (responded { mode := 1#1, pw := pw, inp := containerText pw inp d } .ok inp s) := by
  have hlen : ¬ (d ++ sealBytes (deriveKey pw d) inp).length < 32 := by
    rw [List.length_append, hd, sealBytes_length]; omega
  have hsalt : (d ++ sealBytes (deriveKey pw d) inp).take 16 = d := List.take_left' hd
  have hctt : (d ++ sealBytes (deriveKey pw d) inp).drop 16 = sealBytes (deriveKey pw d) inp := List.drop_left' hd
  rw [decryptCompletesWithThePlaintextOrTheFirstError s pw _ hp hdom, containerText]
  simp only [b64dec_b64enc, if_neg hlen, hsalt, hctt, openBytes_sealBytes]

/-- Settles O40: the container text is inside the limits of any core that can hold it. -/
theorem decryptInvertsEncrypt : Obligations.DecryptInvertsEncrypt := by
  intro s s' pw inp d g hp hp' hdom hd hcap
  obtain ⟨hpw, -, hinp⟩ := inDomain_encrypt hdom
  have hsalt : d.length = 16 := drawSalt_length hd
  have hdom' : inDomain { mode := 1#1, pw := pw, inp := containerText pw inp d } s'.par := by
    refine inDomain_decrypt hpw ?_ fun raw hdec => ?_
    · rw [containerText_length hsalt]
      omega
    · rw [containerText, b64dec_b64enc, Option.some.injEq] at hdec
      rw [← hdec, List.length_append, hsalt, sealBytes_length, Config.minRawLen]
      omega
  exact ⟨_, _, containerText pw inp d, execEncrypt_responds hp hdom hd, rfl, rfl,
    execDecrypt_containerText hp' hsalt hdom', rfl, rfl⟩

/-! ### A provider that does not answer (R152, U6) -/

/-- Settles O48: the command is accepted, and its run does not leave E1. -/
theorem silentProviderLeavesEncryptAtE1 : Obligations.SilentProviderLeavesEncryptAtE1 := by
  intro s pw inp hp hdom hd
  have hwait (n : Nat) := runSeq_e1_silent (s := accept ⟨0#1, pw, inp⟩ s) rfl hd n
  exact ⟨accept ⟨0#1, pw, inp⟩ s, (issueCommand_accepts hp hdom commandSteps).trans (hwait commandSteps),
    rfl, rfl, rfl, rfl, ⟨rfl, rfl, rfl⟩, hwait commandSteps⟩

end Sys2Proof.Proofs
end

section
/-! PROOFS. The product of GF(2^128) (43_aead.md R184): multiplying by a fixed element commutes with multiplying by
`u`, and every element is its own multiple of the one; the laws of the product follow. -/

namespace Sys2Proof.Proofs

open Sys2Proof Sys2Proof.Machine Sys2Proof.Laws

/-! ### Multiplying by `u` -/

/-- What is added on both sides cancels in the sum. -/
theorem xor_xor_xor_cancel {w : Nat} (a b k : BitVec w) : a ^^^ k ^^^ (b ^^^ k) = a ^^^ b :=
  calc a ^^^ k ^^^ (b ^^^ k) = a ^^^ b ^^^ (k ^^^ k) := by ac_rfl
    _ = a ^^^ b := by rw [BitVec.xor_self, BitVec.xor_zero]

theorem mulByU_xor (a b : Elem128) : mulByU (a ^^^ b) = mulByU a ^^^ mulByU b := by
  unfold mulByU
  rw [BitVec.getLsbD_xor, BitVec.ushiftRight_xor_distrib]
  cases a.getLsbD 0 <;> cases b.getLsbD 0
  case true.true => simp [xor_xor_xor_cancel]
  case true.false =>
    change a >>> 1 ^^^ b >>> 1 ^^^ _ = a >>> 1 ^^^ _ ^^^ b >>> 1
    ac_rfl
  case false.true => simp [BitVec.xor_assoc]
  case false.false => simp

/-- `u^(127 - i)` is the element whose only bit is bit `i` (R184), so multiplying by `u` is one place down. -/
theorem mulByU_twoPow {i : Nat} (h : i + 1 < 128) : mulByU (BitVec.twoPow 128 (i + 1)) = BitVec.twoPow 128 i := by
  have hlow : (BitVec.twoPow 128 (i + 1)).getLsbD 0 = false := by simp
  rw [mulByU, hlow, if_neg Bool.false_ne_true]
  refine BitVec.eq_of_getLsbD_eq fun k hk => ?_
  rw [BitVec.getLsbD_ushiftRight, BitVec.getLsbD_twoPow, BitVec.getLsbD_twoPow, Bool.eq_iff_iff]
  simp only [Bool.and_eq_true, decide_eq_true_eq]
  omega

/-! ### What commutes with `u` -/

/-- A map of the field that is additive and commutes with multiplying by `u`. -/
def CommutesWithU (f : Elem128 → Elem128) : Prop :=
  (∀ a b, f (a ^^^ b) = f a ^^^ f b) ∧ ∀ a, f (mulByU a) = mulByU (f a)

theorem CommutesWithU.zero {f : Elem128 → Elem128} (hf : CommutesWithU f) : f 0#128 = 0#128 := by
  have hxor := hf.1 0#128 0#128
  rwa [BitVec.xor_self, BitVec.xor_self] at hxor

/-- Such a map passes through every turn of the loop of the product. -/
theorem CommutesWithU.gf128Turn {f : Elem128 → Elem128} (hf : CommutesWithU f) (x : Elem128)
    (zv : Elem128 × Elem128) (i : Nat) :
    gf128Turn x (Prod.map f f zv) i = Prod.map f f (gf128Turn x zv i) := by
  obtain ⟨hxor, hu⟩ := hf
  unfold Machine.gf128Turn
  split <;> simp [hxor, hu]

/-- Such a map passes through the product: the product with `x` is a sum of multiples of `u^i`. -/
theorem CommutesWithU.gf128Mul {f : Elem128 → Elem128} (hf : CommutesWithU f) (x y : Elem128) :
    f (gf128Mul x y) = gf128Mul x (f y) := by
  have hloop := List.foldl_hom (Prod.map f f) (g₁ := Machine.gf128Turn x) (g₂ := Machine.gf128Turn x)
    (l := List.range 128) (init := (0#128, y)) (fun zv i => hf.gf128Turn x zv i)
  rw [Prod.map_apply, hf.zero] at hloop
  exact (congrArg Prod.fst hloop).symm

/-! ### The product is additive and commutes with `u` -/

theorem foldl_gf128Turn_xor (x : Elem128) (l : List Nat) (z v z' v' : Elem128) :
    (l.foldl (gf128Turn x) (z ^^^ z', v ^^^ v')).1 =
      (l.foldl (gf128Turn x) (z, v)).1 ^^^ (l.foldl (gf128Turn x) (z', v')).1 := by
  induction l generalizing z v z' v' with
  | nil => rfl
  | cons i l ih =>
    have hsum : z ^^^ z' ^^^ (v ^^^ v') = z ^^^ v ^^^ (z' ^^^ v') := by ac_rfl
    simp only [List.foldl_cons, gf128Turn, mulByU_xor, hsum]
    split <;> exact ih _ _ _ _

theorem gf128Mul_xor (x y z : Elem128) : gf128Mul x (y ^^^ z) = gf128Mul x y ^^^ gf128Mul x z := by
  have hloop := foldl_gf128Turn_xor x (List.range 128) 0#128 y 0#128 z
  rwa [BitVec.xor_self] at hloop

theorem commutesWithU_mulByU : CommutesWithU mulByU := ⟨mulByU_xor, fun _ => rfl⟩

theorem commutesWithU_gf128Mul (x : Elem128) : CommutesWithU (gf128Mul x) :=
  ⟨gf128Mul_xor x, fun y => (commutesWithU_mulByU.gf128Mul x y).symm⟩

theorem gf128Mul_left_comm (x y z : Elem128) : gf128Mul x (gf128Mul y z) = gf128Mul y (gf128Mul x z) :=
  (commutesWithU_gf128Mul x).gf128Mul y z

/-! ### The one -/

/-- `n` turns of the loop of the product of `x` and the one, `8000…00` (R184). -/
def loopFromOne (x : Elem128) (n : Nat) : Elem128 × Elem128 :=
  (List.range n).foldl (gf128Turn x) (0#128, BitVec.twoPow 128 127)

theorem loopFromOne_succ (x : Elem128) (n : Nat) :
    loopFromOne x (n + 1) = gf128Turn x (loopFromOne x n) n := by
  rw [loopFromOne, List.range_succ, List.foldl_append]
  rfl

theorem loopFromOne_snd (x : Elem128) {n : Nat} (hn : n < 128) :
    (loopFromOne x n).2 = BitVec.twoPow 128 (127 - n) := by
  induction n with
  | zero => rfl
  | succ n ih =>
    have hprev : 127 - n = 127 - (n + 1) + 1 := by omega
    rw [loopFromOne_succ, gf128Turn, ih (by omega), hprev, mulByU_twoPow (by omega)]

/-- After `n` turns from the one, `Z` holds the first `n` bits of `x`. -/
theorem loopFromOne_fst_getLsbD (x : Elem128) {n : Nat} (hn : n ≤ 128) {k : Nat} (hk : k < 128) :
    (loopFromOne x n).1.getLsbD k = (decide (128 ≤ k + n) && x.getLsbD k) := by
  induction n with
  | zero =>
    have hnone : ¬ 128 ≤ k + 0 := by omega
    rw [decide_eq_false hnone]
    exact BitVec.getLsbD_zero
  | succ n ih =>
    have hbit : (loopFromOne x (n + 1)).1.getLsbD k =
        ((loopFromOne x n).1.getLsbD k ^^ (x.getLsbD (127 - n) && decide (k = 127 - n))) := by
      rw [loopFromOne_succ, gf128Turn, loopFromOne_snd x (by omega)]
      cases x.getLsbD (127 - n) <;> simp [hk, eq_comm (a := k)]
    rw [hbit, ih (by omega)]
    by_cases hnew : k = 127 - n
    · have hold : ¬ 128 ≤ k + n := by omega
      have hin : 128 ≤ k + (n + 1) := by omega
      rw [decide_eq_false hold, decide_eq_true hin, decide_eq_true hnew, ← hnew]
      simp
    · have hsame : 128 ≤ k + n ↔ 128 ≤ k + (n + 1) := by omega
      simp [hnew, hsame]

theorem gf128Mul_one (x : Elem128) : gf128Mul x 0x80000000000000000000000000000000#128 = x := by
  refine BitVec.eq_of_getLsbD_eq fun k hk => ?_
  have hall : 128 ≤ k + 128 := by omega
  have hbit := loopFromOne_fst_getLsbD x (le_refl 128) hk
  rwa [decide_eq_true hall, Bool.true_and] at hbit

/-! ### The laws (R184) -/

/-- With the one as the common operand, the two products are the same multiple of it. -/
theorem gf128Mul_comm (x y : Elem128) : gf128Mul x y = gf128Mul y x := by
  have hswap := gf128Mul_left_comm x y 0x80000000000000000000000000000000#128
  rwa [gf128Mul_one, gf128Mul_one] at hswap

theorem gf128Mul_assoc (x y z : Elem128) : gf128Mul (gf128Mul x y) z = gf128Mul x (gf128Mul y z) :=
  calc gf128Mul (gf128Mul x y) z = gf128Mul z (gf128Mul x y) := gf128Mul_comm _ _
    _ = gf128Mul x (gf128Mul z y) := gf128Mul_left_comm z x y
    _ = gf128Mul x (gf128Mul y z) := by rw [gf128Mul_comm z y]

/-- Settles O31: the product with `x` commutes with every other product, since all are sums of multiples of
`u^i`. -/
theorem blockProductIsACommutativeRing : Obligations.BlockProductIsACommutativeRing :=
  ⟨gf128Mul_comm, gf128Mul_assoc, gf128Mul_xor, gf128Mul_one, fun x => (commutesWithU_gf128Mul x).zero⟩

end Sys2Proof.Proofs
end

section
/-! PROOFS. Counter mode (43_aead.md R186, R187, R192, R265): it adds a keystream that does not depend on the data, and
its counter blocks are numbered by their last four bytes. -/

namespace Sys2Proof.Proofs

open Sys2Proof Sys2Proof.Machine Sys2Proof.Laws

/-! ### The keystream (R187) -/

/-- The keystream of `m` pieces from counter block `cb` (R187). -/
def keystream (rks : List Bytes) : Nat → Bytes → Bytes
  | 0, _ => []
  | m + 1, cb => aes256 rks cb ++ keystream rks m (inc32 cb)

theorem keystream_length (rks : List Bytes) (m : Nat) (cb : Bytes) : (keystream rks m cb).length = 16 * m := by
  induction m generalizing cb with
  | zero => rfl
  | succ m ih => rw [keystream, List.length_append, aes256_length, ih]; omega

/-- Adding a key in two parts, the first at least as long as the part of the data it meets. -/
theorem xorBytes_append (x k k' : Bytes) :
    xorBytes x (k ++ k') = xorBytes (x.take k.length) k ++ xorBytes (x.drop k.length) k' := by
  induction k generalizing x with
  | nil => simp [xorBytes]
  | cons b k ih =>
    cases x with
    | nil => rfl
    | cons c x => exact congrArg ((c ^^^ b) :: ·) (ih x)

theorem gctrBlocks_eq_xorBytes (rks : List Bytes) (m : Nat) (cb x : Bytes) :
    gctrBlocks rks m cb x = xorBytes x (keystream rks m cb) := by
  induction m generalizing cb x with
  | zero => simp [gctrBlocks, keystream, xorBytes]
  | succ m ih => rw [gctrBlocks, ih, keystream, xorBytes_append, aes256_length]

/-- Counter mode adds a keystream at least as long as the data, in which the data have no part (R187). -/
theorem gctr_eq_xorBytes (rks : List Bytes) (icb x : Bytes) :
    gctr rks icb x = xorBytes x (keystream rks (ceilDiv x.length 16) icb) := gctrBlocks_eq_xorBytes _ _ _ _

theorem le_keystream_length (rks : List Bytes) (icb x : Bytes) :
    x.length ≤ (keystream rks (ceilDiv x.length 16) icb).length := by
  rw [keystream_length, ceilDiv]; omega

theorem xorBytes_getElem?_congr {x y k : Bytes} {j : Nat} (h : x[j]? = y[j]?) :
    (xorBytes x k)[j]? = (xorBytes y k)[j]? := by
  simp only [xorBytes, List.getElem?_zipWith, h]

/-- Settles O28: for data of one length the keystream is the same. -/
theorem counterModeIsABytewiseInvolution : Obligations.CounterModeIsABytewiseInvolution := by
  refine ⟨fun rks icb x => ⟨gctr_gctr rks icb x, gctr_length rks icb x⟩, fun rks icb x y j hlen hj => ?_⟩
  rw [gctr_eq_xorBytes, gctr_eq_xorBytes, hlen]
  exact xorBytes_getElem?_congr hj

/-- One keystream added to two byte strings cancels in their exclusive or. -/
theorem xorBytes_cancel_right {x y k : Bytes} (h : x.length ≤ k.length) :
    xorBytes (xorBytes x k) (xorBytes y k) = xorBytes x y := by
  induction x generalizing y k with
  | nil => rfl
  | cons a x ih =>
    match y, k with
    | _, [] => simp at h
    | [], _ :: _ => rfl
    | b :: y, c :: k => exact List.cons_eq_cons.2 ⟨xor_xor_xor_cancel a b c, ih (by simpa using h)⟩

/-- Settles O43: both ciphertexts are the plaintext plus the same keystream. -/
theorem repeatedKeyLeaksThePlaintextXor : Obligations.RepeatedKeyLeaksThePlaintextXor := by
  intro key x y hlen
  rw [cryptData, cryptData, gctr_eq_xorBytes, gctr_eq_xorBytes, ← hlen]
  exact xorBytes_cancel_right (le_keystream_length _ _ x)

/-! ### The counter blocks (R186, R192) -/

/-- The number in the last four bytes of a counter block (R186). -/
def counterOf (cb : Bytes) : Nat := intBe (cb.drop 12)

/-- The part of a counter block that never changes. -/
theorem slice_zero_twelve_length {cb : Bytes} (h : cb.length = 16) : (slice cb 0 12).length = 12 := by
  rw [slice_length, h]; rfl

theorem inc32_take {cb : Bytes} (h : cb.length = 16) : (inc32 cb).take 12 = cb.take 12 := by
  rw [inc32, List.take_left' (slice_zero_twelve_length h)]
  rfl

theorem counterOf_inc32 {cb : Bytes} (h : cb.length = 16) : counterOf (inc32 cb) = (counterOf cb + 1) % 2 ^ 32 := by
  have hlast : slice cb 12 4 = cb.drop 12 := List.take_of_length_le (by rw [List.length_drop, h])
  rw [counterOf, counterOf, inc32, List.drop_left' (slice_zero_twelve_length h), intBe_beBytes, hlast]
  exact Nat.mod_mod _ _

/-- Settles O29. -/
theorem counterIncrementWrapsInFourBytes : Obligations.CounterIncrementWrapsInFourBytes :=
  fun _ h => ⟨inc32_length h, inc32_take h, counterOf_inc32 h⟩

theorem counterOf_preCounter : counterOf preCounter = 1 := by decide

/-- The counter block of piece `m` is number `m + 2`: the limit of R192 is where it would wrap. -/
theorem counterOf_counterAfter {m : Nat} (hm : m + 2 < 2 ^ 32) :
    counterOf (counterAfter (inc32 preCounter) m) = m + 2 := by
  induction m with
  | zero => exact counterOf_inc32 preCounter_length
  | succ m ih =>
    have hlen := counterAfter_length (inc32_length preCounter_length) m
    rw [counterAfter, counterOf_inc32 hlen, ih (by omega)]
    exact Nat.mod_eq_of_lt hm

/-- Data inside the limit have so few pieces that the counter does not wrap (R192). -/
theorem counter_lt_of_piece {x : Bytes} (hx : x.length ≤ Config.maxPtLen) {m : Nat}
    (hm : m < ceilDiv x.length 16) : m + 2 < 2 ^ 32 := by
  rw [ceilDiv] at hm
  rw [Config.maxPtLen] at hx
  omega

/-- Settles O30: the blocks carry the numbers 2, 3, … and `J0` the number 1. -/
theorem counterBlocksNeverRepeat : Obligations.CounterBlocksNeverRepeat := by
  refine ⟨by decide, fun x hx m hm => ?_⟩
  have hnum := counterOf_counterAfter (counter_lt_of_piece hx hm)
  refine ⟨fun heq => ?_, fun k hk heq => ?_⟩
  · rw [heq, counterOf_preCounter] at hnum
    omega
  · rw [heq, counterOf_counterAfter (counter_lt_of_piece hx hk)] at hnum
    omega

end Sys2Proof.Proofs
end

section
/-! PROOFS. The AEAD engine (43_aead.md): `SEAL` and `OPEN` complete in their domain (R190, R191), `OPEN` inverts `SEAL`
(R193), and no other tag opens (R194). -/

namespace Sys2Proof.Proofs

open Sys2Proof Sys2Proof.Machine Sys2Proof.Laws

/-! ### SEAL (R190) -/

/-- Settles O24: inside its domain `SEAL` does what the unit does. -/
theorem sealCompletesWithCiphertextAndTag : Obligations.SealCompletesWithCiphertextAndTag := by
  intro s key pt hkey hpt
  have hlen : ∀ ctt ∈ (unitSeal key pt s).codec.ctt, ctt.length = pt.length + 16 := by
    rintro _ ⟨rfl⟩
    exact sealBytes_length key pt
  exact ⟨unitSeal key pt s, cryptData key pt, execSeal_next.2 ⟨hkey, hpt, rfl⟩, rfl, cryptData_length key pt, rfl,
    hlen, rfl, rfl, rfl, rfl, rfl, rfl, rfl⟩

/-! ### OPEN (R191) -/

/-- Inside its domain `OPEN` completes with what the unit does. -/
theorem exec_aeadOpen {s : State} {key ct tag : Bytes} (hkey : key.length = 32) (htag : tag.length = 16)
    (hct : ct.length ≤ Config.maxPtLen) :
    exec (.aeadOpen key (ct ++ tag)) s = .next (unitOpen key (ct ++ tag) s) := by
  have hlen : (ct ++ tag).length = ct.length + Config.tagLen := by rw [List.length_append, htag]
  exact execOpen_next.2 ⟨hkey, by omega, by omega, rfl⟩

/-- The verdict over ciphertext and tag (R191). -/
theorem openOk_append {key ct tag : Bytes} (htag : tag.length = 16) :
    openOk key (ct ++ tag) = decide (tagFor key ct = tag) := by
  rw [openOk, cttData_append htag, cttTag_append htag, tagOkOf]

theorem openBytes_append {key ct tag : Bytes} (htag : tag.length = 16) :
    openBytes key (ct ++ tag) = if tagFor key ct = tag then some (cryptData key ct) else none := by
  simp only [openBytes, openOk_append htag, cttData_append htag, decide_eq_true_eq]

@[simp] theorem dataRegs_t (key ct : Bytes) (a : AeadRegs) : (dataRegs key ct a).t = a.t := by
  unfold dataRegs; split <;> rfl

@[simp] theorem dataRegs_tagOk (key ct : Bytes) (a : AeadRegs) : (dataRegs key ct a).tagOk = a.tagOk := by
  unfold dataRegs; split <;> rfl

/-- The computed tag and the verdict, which decrypting leaves as they are (R191). -/
theorem unitOpen_t (key ctt : Bytes) (s : State) :
    (unitOpen key ctt s).aead.t = some (tagFor key (cttData ctt)) := by
  unfold unitOpen
  split
  · exact dataRegs_t _ _ _
  · rfl

theorem unitOpen_tagOk (key ctt : Bytes) (s : State) : (unitOpen key ctt s).aead.tagOk = some (openOk key ctt) := by
  unfold unitOpen
  split
  · exact dataRegs_tagOk _ _ _
  · rfl

/-- Settles O25: the plaintext register takes a value only with the tag that was recomputed. -/
theorem openCompletesAndReleasesOnlyVerifiedData : Obligations.OpenCompletesAndReleasesOnlyVerifiedData := by
  intro s key ct tag hkey htag hct
  have ht := unitOpen_t key (ct ++ tag) s
  have hok := unitOpen_tagOk key (ct ++ tag) s
  have hpt : (unitOpen key (ct ++ tag) s).codec.pt = _ := openBytes_append htag
  rw [cttData_append htag] at ht
  rw [openOk_append htag] at hok
  exact ⟨_, exec_aeadOpen hkey htag hct, ht, hok,
    fun heq => ⟨hpt.trans (if_pos heq), gctr_length _ _ _⟩, fun hne => hpt.trans (if_neg hne), rfl⟩

/-- Settles O26: the verdict over what `SEAL` gives is true, and decrypting is encrypting. -/
theorem openInvertsSeal : Obligations.OpenInvertsSeal := by
  intro s key pt hkey hpt
  have hct : (cryptData key pt).length ≤ Config.maxPtLen := by rwa [cryptData_length]
  obtain ⟨t, hexec, -, hok, hopened, -, -⟩ := openCompletesAndReleasesOnlyVerifiedData s key (cryptData key pt)
    (tagFor key (cryptData key pt)) hkey (tagFor_length _ _) hct
  have hpt : t.codec.pt = some (cryptData key (cryptData key pt)) := (hopened rfl).1
  exact ⟨t, hexec, hok.trans (by rw [decide_eq_true rfl]), hpt.trans (by rw [cryptData_cryptData])⟩

/-- Settles O27: another tag is not the one recomputed over the same ciphertext. -/
theorem changedTagNeverOpens : Obligations.ChangedTagNeverOpens := by
  intro s key pt tag hkey hpt htag hother
  have hct : (cryptData key pt).length ≤ Config.maxPtLen := by rwa [cryptData_length]
  have hne : tagFor key (cryptData key pt) ≠ tag := fun heq => hother (by rw [sealBytes, heq])
  obtain ⟨t, hexec, -, hok, -, hclosed, -⟩ := openCompletesAndReleasesOnlyVerifiedData s key (cryptData key pt) tag
    hkey htag hct
  exact ⟨t, hexec, hok.trans (by rw [decide_eq_false hne]), hclosed hne⟩

end Sys2Proof.Proofs
end

section
/-! PROOFS. The AES-256 block function (44_aes256.md): the round operations byte by byte (R215 to R218), and that each of
them, so every round and the whole cipher, is injective on the blocks (R219). -/

namespace Sys2Proof.Proofs

open Sys2Proof Sys2Proof.Machine Sys2Proof.Laws

/-! ### The bytes of a state -/

theorem byteAt_eq_getElem {b : Bytes} {k : Nat} (hk : k < b.length) : byteAt b k = b[k] :=
  List.getD_eq_getElem b 0#8 hk

theorem byteAt_map_range (f : Nat → Byte) {n k : Nat} (hk : k < n) : byteAt ((List.range n).map f) k = f k := by
  rw [byteAt_eq_getElem (by simpa using hk), List.getElem_map, List.getElem_range]

/-- A state is its bytes in the rows and columns of R210. -/
theorem state_ext {x y : Bytes} (hx : x.length = 16) (hy : y.length = 16)
    (h : ∀ r c, r < 4 → c < 4 → byteAt x (r + 4 * c) = byteAt y (r + 4 * c)) : x = y := by
  refine List.ext_getElem (hx.trans hy.symm) fun k hkx hky => ?_
  have hk := h (k % 4) (k / 4) (Nat.mod_lt k (by decide)) (by omega)
  rwa [Nat.mod_add_div, byteAt_eq_getElem hkx, byteAt_eq_getElem hky] at hk

/-! ### The round operations, byte by byte (R215 to R218) -/

theorem byteAt_subBytes {s : Bytes} {k : Nat} (hk : k < s.length) :
    byteAt (subBytes s) k = sbox (byteAt s k) := by
  rw [byteAt_eq_getElem (by simpa using hk), byteAt_eq_getElem hk]
  exact List.getElem_map sbox

theorem byteAt_shiftRows (s : Bytes) {r c : Nat} (hr : r < 4) (hc : c < 4) :
    byteAt (shiftRows s) (r + 4 * c) = byteAt s (r + 4 * ((c + r) % 4)) := by
  have hrow : (r + 4 * c) % 4 = r := by omega
  have hcol : (r + 4 * c) / 4 = c := by omega
  rw [shiftRows, byteAt_map_range _ (by omega), hrow, hcol]

/-- Column `c` is the `c`-th of the four pieces of the result, and row `r` of it is the one line of R217 turned by `r`. -/
theorem byteAt_mixColumns (s : Bytes) {r c : Nat} (hr : r < 4) (hc : c < 4) :
    byteAt (mixColumns s) (r + 4 * c) =
      gf8Mul 2#8 (byteAt s (r + 4 * c)) ^^^ gf8Mul 3#8 (byteAt s ((r + 1) % 4 + 4 * c)) ^^^
        byteAt s ((r + 2) % 4 + 4 * c) ^^^ byteAt s ((r + 3) % 4 + 4 * c) := by
  have hcolumn : byteAt (mixColumns s) (r + 4 * c) =
      byteAt (mixColumn (byteAt s (4 * c)) (byteAt s (4 * c + 1)) (byteAt s (4 * c + 2)) (byteAt s (4 * c + 3))) r := by
    interval_cases c <;> interval_cases r <;> rfl
  rw [hcolumn]
  interval_cases r <;> simp [byteAt, mixColumn, Nat.add_comm] <;> ac_rfl

theorem byteAt_addRoundKey (s rk : Bytes) {k : Nat} (hk : k < 16) :
    byteAt (addRoundKey s rk) k = byteAt s k ^^^ byteAt rk k :=
  byteAt_map_range _ hk

/-- Settles O33. -/
theorem roundOperationsActOnTheirBytes : Obligations.RoundOperationsActOnTheirBytes :=
  fun s rk _ _ hs _ hr hc => ⟨byteAt_subBytes (by omega), byteAt_shiftRows s hr hc, byteAt_mixColumns s hr hc,
    byteAt_addRoundKey s rk (by omega)⟩

/-! ### MixColumns in terms of doubling -/

theorem xtime_xor (a b : Byte) : xtime (a ^^^ b) = xtime a ^^^ xtime b := by
  simp only [xtime, BitVec.msb_xor, BitVec.shiftLeft_xor_distrib]
  cases a.msb <;> cases b.msb
  case true.true => simp [xor_xor_xor_cancel]
  case true.false => simp only [Bool.xor_false, if_true, Bool.false_eq_true, if_false]; ac_rfl
  case false.true => simp [BitVec.xor_assoc]
  case false.false => simp

theorem gf8Mul_two : ∀ a : Byte, gf8Mul 2#8 a = xtime a := by decide +kernel

theorem gf8Mul_three : ∀ a : Byte, gf8Mul 3#8 a = xtime a ^^^ a := by decide +kernel

/-- One line of R217 by doubling: the byte that a column of `a`, `b`, `c`, `d` (from the byte's own row downwards, going
around) puts there. -/
def mixByte (a b c d : Byte) : Byte := xtime a ^^^ (xtime b ^^^ b) ^^^ c ^^^ d

theorem byteAt_mixColumns_eq_mixByte (s : Bytes) {r c : Nat} (hr : r < 4) (hc : c < 4) :
    byteAt (mixColumns s) (r + 4 * c) = mixByte (byteAt s (r + 4 * c)) (byteAt s ((r + 1) % 4 + 4 * c))
      (byteAt s ((r + 2) % 4 + 4 * c)) (byteAt s ((r + 3) % 4 + 4 * c)) := by
  rw [byteAt_mixColumns s hr hc, gf8Mul_two, gf8Mul_three, mixByte]

theorem xor_left_comm (a b c : Byte) : a ^^^ (b ^^^ c) = b ^^^ (a ^^^ c) := by ac_rfl

/-- The matrix of R217 squared has `5` on the diagonal, `4` two places from it and `0` elsewhere. -/
theorem mixByte_mixByte (a b c d : Byte) :
    mixByte (mixByte a b c d) (mixByte b c d a) (mixByte c d a b) (mixByte d a b c) =
      a ^^^ xtime (xtime (a ^^^ c)) := by
  simp only [mixByte, xtime_xor]
  simp [BitVec.xor_comm, xor_left_comm, BitVec.xor_assoc]

/-! ### The round operations are injective on the blocks -/

/-- The 16-byte strings: the blocks, and the states of R210. -/
def blocks : Set Bytes := {x | x.length = 16}

/-- An operation that gives a block back when applied four times in a row maps no two blocks to one. -/
theorem injOn_of_order_four {f : Bytes → Bytes} (h : ∀ x ∈ blocks, f (f (f (f x))) = x) : blocks.InjOn f :=
  fun x hx y hy hxy => by rw [← h x hx, hxy, h y hy]

/-- Where a byte stands in the table of R213. -/
def sboxPosition (b : Byte) : Byte := BitVec.ofNat 8 (sboxTable.flatten.idxOf b.toNat)

/-- Every byte stands in the table once. -/
theorem sboxPosition_sbox : Function.LeftInverse sboxPosition sbox := by
  unfold Function.LeftInverse
  decide +kernel

theorem subBytes_injOn : blocks.InjOn subBytes :=
  (List.map_injective_iff.2 sboxPosition_sbox.injective).injOn

/-- Row `r` is turned by `r` places four times, so by whole turns. -/
theorem shiftRows_order_four {s : Bytes} (hs : s ∈ blocks) :
    shiftRows (shiftRows (shiftRows (shiftRows s))) = s := by
  refine state_ext (shiftRows_length _) hs fun r c hr hc => ?_
  have hturn : ((((c + r) % 4 + r) % 4 + r) % 4 + r) % 4 = c := by omega
  have hmod : ∀ k, k % 4 < 4 := fun k => Nat.mod_lt k (by decide)
  rw [byteAt_shiftRows _ hr hc, byteAt_shiftRows _ hr (hmod _), byteAt_shiftRows _ hr (hmod _),
    byteAt_shiftRows _ hr (hmod _), hturn]

theorem shiftRows_injOn : blocks.InjOn shiftRows := injOn_of_order_four fun _ => shiftRows_order_four

theorem byteAt_mixColumns_twice (s : Bytes) {r c : Nat} (hr : r < 4) (hc : c < 4) :
    byteAt (mixColumns (mixColumns s)) (r + 4 * c) = byteAt s (r + 4 * c) ^^^
      xtime (xtime (byteAt s (r + 4 * c) ^^^ byteAt s ((r + 2) % 4 + 4 * c))) := by
  have hrow : ∀ i, (r + i) % 4 < 4 := fun i => Nat.mod_lt _ (by decide)
  have hsame : r % 4 = r := Nat.mod_eq_of_lt hr
  have hnext : (r + 5) % 4 = (r + 1) % 4 := by omega
  have hopposite : (r + 6) % 4 = (r + 2) % 4 := by omega
  rw [← mixByte_mixByte _ (byteAt s ((r + 1) % 4 + 4 * c)) _ (byteAt s ((r + 3) % 4 + 4 * c))]
  simp [byteAt_mixColumns_eq_mixByte, hr, hc, hrow, Nat.add_assoc, hsame, hnext, hopposite]

theorem mixColumns_order_four {s : Bytes} (hs : s ∈ blocks) :
    mixColumns (mixColumns (mixColumns (mixColumns s))) = s := by
  refine state_ext (mixColumns_length _) hs fun r c hr hc => ?_
  have hback : ((r + 2) % 4 + 2) % 4 = r := by omega
  rw [byteAt_mixColumns_twice _ hr hc, byteAt_mixColumns_twice _ hr hc,
    byteAt_mixColumns_twice _ (Nat.mod_lt (r + 2) (by decide)) hc, hback]
  generalize byteAt s (r + 4 * c) = a, byteAt s ((r + 2) % 4 + 4 * c) = b
  simp [xtime_xor, BitVec.xor_comm, BitVec.xor_assoc]

theorem mixColumns_injOn : blocks.InjOn mixColumns := injOn_of_order_four fun _ => mixColumns_order_four

theorem addRoundKey_injOn (rk : Bytes) : blocks.InjOn (addRoundKey · rk) := by
  intro x hx y hy hxy
  refine state_ext hx hy fun r c hr hc => ?_
  have hbyte := congrArg (byteAt · (r + 4 * c)) hxy
  simpa [byteAt_addRoundKey _ rk (by omega : r + 4 * c < 16)] using hbyte

/-! ### The rounds and the cipher (R219) -/

theorem subBytes_mapsTo : blocks.MapsTo subBytes blocks := fun s hs => (subBytes_length s).trans hs
theorem shiftRows_mapsTo : blocks.MapsTo shiftRows blocks := fun s _ => shiftRows_length s
theorem mixColumns_mapsTo : blocks.MapsTo mixColumns blocks := fun s _ => mixColumns_length s
theorem addRoundKey_mapsTo (rk : Bytes) : blocks.MapsTo (addRoundKey · rk) blocks :=
  fun s _ => addRoundKey_length s rk

theorem aesRound_mapsTo (rks : List Bytes) (r : Nat) : blocks.MapsTo (aesRound rks · r) blocks :=
  fun _ _ => addRoundKey_length _ _

theorem aesRound_injOn (rks : List Bytes) (r : Nat) : blocks.InjOn (aesRound rks · r) :=
  (addRoundKey_injOn _).comp
    (mixColumns_injOn.comp (shiftRows_injOn.comp subBytes_injOn subBytes_mapsTo)
      (shiftRows_mapsTo.comp subBytes_mapsTo))
    (mixColumns_mapsTo.comp (shiftRows_mapsTo.comp subBytes_mapsTo))

/-- Any sequence of rounds maps blocks to blocks, and no two to one. -/
theorem rounds_mapsTo_injOn (rks : List Bytes) (rs : List Nat) :
    blocks.MapsTo (rs.foldl (aesRound rks)) blocks ∧ blocks.InjOn (rs.foldl (aesRound rks)) := by
  induction rs with
  | nil => exact ⟨Set.mapsTo_id _, Set.injOn_id _⟩
  | cons r rs ih =>
    obtain ⟨hmaps, hinj⟩ := ih
    exact ⟨hmaps.comp (aesRound_mapsTo rks r), hinj.comp (aesRound_injOn rks r) (aesRound_mapsTo rks r)⟩

/-- The cipher of R219 around some sequence of full rounds: which rounds they are does not matter for injectivity, and
keeping it open keeps the fold from being unrolled. -/
theorem aes256_eq (rks : List Bytes) : ∃ rs : List Nat, aes256 rks = fun x =>
    addRoundKey (shiftRows (subBytes (rs.foldl (aesRound rks) (addRoundKey x (roundKey rks 0))))) (roundKey rks 14) :=
  ⟨List.range' 1 13, rfl⟩

theorem aes256_injOn (rks : List Bytes) : blocks.InjOn (aes256 rks) := by
  obtain ⟨rs, heq⟩ := aes256_eq rks
  obtain ⟨hmaps, hinj⟩ := rounds_mapsTo_injOn rks rs
  have hfirst := addRoundKey_mapsTo (roundKey rks 0)
  have hrounds := hmaps.comp hfirst
  have hlast := (shiftRows_injOn.comp subBytes_injOn subBytes_mapsTo).comp
    (hinj.comp (addRoundKey_injOn _) hfirst) hrounds
  rw [heq]
  exact (addRoundKey_injOn _).comp hlast ((shiftRows_mapsTo.comp subBytes_mapsTo).comp hrounds)

/-- Settles O32. -/
theorem blockFunctionIsAPermutation : Obligations.BlockFunctionIsAPermutation :=
  ⟨aes256_length, fun rks _ _ hx hy heq => aes256_injOn rks hx hy heq⟩

end Sys2Proof.Proofs
end

section
/-! PROOFS. Exceptions (60_exceptions.md): what `raise` does (R234), and that no step produces `KdfError` (R233). -/

namespace Sys2Proof.Proofs

open Sys2Proof Sys2Proof.Machine Sys2Proof.Laws

/-! ### Taking an error (R231, R234) -/

/-- Settles O11: `raise` sets these fields and no other, with the status that R231 gives each kind. -/
theorem raiseEndsTheCommandWithItsStatus : Obligations.RaiseEndsTheCommandWithItsStatus := by
  intro k s
  cases k with
  | format => rfl
  | authentication => rfl
  | kdf => rfl

theorem statusOfKind_eq_kdfError {k : ErrorKind} : statusOfKind k = .kdfError ↔ k = .kdf := by
  cases k <;> decide

/-! ### `KdfError` is not produced (R233) -/

/-- A unit operation reports nothing: errors are the commands' (R230). -/
theorem exec_unit_status {i : Instr} {s t : State} (hi : ∃ u, decodeUnitCall u = .ok i)
    (h : exec i s = .next t) : t.status = s.status := by
  rcases exec_unit_cases hi h with ⟨-, ⟨-, rfl⟩ | ⟨d, g, -, rfl⟩⟩ | ⟨pw, salt, -, -, -, rfl⟩ |
    ⟨key, pt, -, -, -, rfl⟩ | ⟨key, ctt, -, -, -, -, rfl⟩ | ⟨raw, -, rfl⟩ | ⟨text, -, rfl⟩ <;> rfl

/-- A numbered step leaves the status alone, ends its command with `OK`, or raises one of the two kinds that a
command can raise: with the fixed profile E2 and D4 do not raise (R231, R233). -/
theorem seqStep_status {s t : State} (h : seqStep s = .next t) :
    t.status = s.status ∨ t.status = some .ok ∨ ∃ k, k ≠ .kdf ∧ t.status = some (statusOfKind k) := by
  rcases seqStep_cases h with ⟨-, rfl⟩ | ⟨-, d, g, -, rfl⟩ |
    ⟨pw, salt, -, -, ⟨-, rfl⟩ | ⟨-, rfl⟩⟩ | ⟨-, key, inp, -, -, rfl⟩ | ⟨-, salt, ctt, -, -, rfl⟩ |
    ⟨-, text, -, rfl⟩ | ⟨-, inp, -, ⟨raw, -, rfl⟩ | ⟨-, rfl⟩⟩ | ⟨-, raw, -, ⟨-, rfl⟩ | ⟨-, rfl⟩⟩ |
    ⟨-, raw, -, rfl⟩ | ⟨-, key, ctt, -, -, ⟨-, rfl⟩ | ⟨-, rfl⟩⟩ | ⟨-, pt, -, rfl⟩
  -- E5 and D6 respond; D1, D2 and D5 may raise; every other step leaves the status alone.
  any_goals exact .inl rfl
  any_goals exact .inr (.inl rfl)
  all_goals exact .inr (.inr ⟨_, by decide, raise_status _ _⟩)

/-- A numbered step after which the status is `KdfError` found it so (R233). -/
theorem kdfError_of_seqStep {s t : State} (h : seqStep s = .next t) (ht : t.status = some .kdfError) :
    s.status = some .kdfError := by
  rcases seqStep_status h with hs | hok | ⟨k, hk, hraised⟩
  · exact hs.symm.trans ht
  · simp [hok] at ht
  · exact absurd (statusOfKind_eq_kdfError.1 (Option.some.inj (hraised.symm.trans ht))) hk

/-- Settles O49: that `KdfError` shows only if the first state showed it is an invariant of the steps. A command, a
read and a reset clear the status. -/
theorem kdfErrorIsNeverProduced : Obligations.KdfErrorIsNeverProduced := by
  intro s t h
  refine step_keeps (I := fun s' => s'.status = some .kdfError → s.status = some .kdfError)
    ?unit ?host ?seq ?accept ?read ?reset id h
  case unit => exact fun _ _ _ hI _ hi he ht => hI ((exec_unit_status hi he).symm.trans ht)
  case host => exact fun _ _ hI => hI
  case seq => exact fun _ _ hI he ht => hI (kdfError_of_seqStep he ht)
  case accept => simp
  case read => simp
  case reset => simp

end Sys2Proof.Proofs
end

section
/-! PROOFS. The freshness of the salt (70_reset_and_hazards.md R266): base-64 encoding is injective, and the draw is the
first 16 bytes of the raw container, so that a container text determines its draw. -/

namespace Sys2Proof.Proofs

open Sys2Proof Sys2Proof.Machine Sys2Proof.Laws

/-- Base-64 encoding is injective: decoding inverts it (R163). -/
theorem b64enc_injective : Function.Injective b64enc := by
  intro raw raw' htext
  have hdec := congrArg (b64dec .reject) htext
  rwa [b64dec_b64enc, b64dec_b64enc, Option.some.injEq] at hdec

/-- Container texts of one password and plaintext are equal only for equal salts: salts of one length stand in
front of the raw containers (R53, R75). -/
theorem containerText_inj {pw inp d d' : Bytes} (hlen : d.length = d'.length) :
    containerText pw inp d = containerText pw inp d' ↔ d = d' := by
  refine ⟨fun htext => ?_, congrArg (containerText pw inp)⟩
  have hraw : d ++ sealBytes (deriveKey pw d) inp = d' ++ sealBytes (deriveKey pw d') inp :=
    b64enc_injective htext
  exact List.append_inj_left hraw hlen

/-- Settles O42: both commands end with their container texts, whose salts are draws of 16 bytes. -/
theorem containersAreEqualIffDrawsAre : Obligations.ContainersAreEqualIffDrawsAre := by
  intro s s' pw inp d d' g g' hp hp' hdom hdom' hd hd'
  have hlen : d.length = d'.length := (drawSalt_length hd).trans (drawSalt_length hd').symm
  refine ⟨_, _, execEncrypt_responds hp hdom hd, execEncrypt_responds hp' hdom' hd', ?_⟩
  rw [responded_out, responded_out, Option.some.injEq]
  exact containerText_inj hlen

end Sys2Proof.Proofs
end

section
/-! PROOFS. Memory (20_memory.md R50, R52): the work area is in canonical form at reset, and every step keeps it so. -/

namespace Sys2Proof.Proofs

open Sys2Proof Sys2Proof.Machine Sys2Proof.Laws

/-- Of the unit operations only `DERIVE` writes the work area, block by block inside `KMEM` (R52, R59). -/
theorem exec_unit_kmem_wf {i : Instr} {s t : State} (hi : ∃ u, decodeUnitCall u = .ok i)
    (h : exec i s = .next t) (hs : s.kdf.kmem.wf) : t.kdf.kmem.wf := by
  rcases exec_unit_cases hi h with ⟨-, ⟨-, rfl⟩ | ⟨d, g, -, rfl⟩⟩ | ⟨pw, salt, -, -, -, rfl⟩ |
    ⟨key, pt, -, -, -, rfl⟩ | ⟨key, ctt, -, -, -, -, rfl⟩ | ⟨raw, -, rfl⟩ | ⟨text, -, rfl⟩
  case inr.inl => exact wf_unitDerive hs
  all_goals exact hs

/-- A numbered step derives (E2, D4), ends the command with an empty work area, or leaves the work area alone. -/
theorem seqStep_kmem_wf {s t : State} (hs : s.kdf.kmem.wf) (h : seqStep s = .next t) : t.kdf.kmem.wf := by
  rcases seqStep_cases h with ⟨-, rfl⟩ | ⟨-, d, g, -, rfl⟩ |
    ⟨pw, salt, -, -, ⟨-, rfl⟩ | ⟨-, rfl⟩⟩ | ⟨-, key, inp, -, -, rfl⟩ | ⟨-, salt, ctt, -, -, rfl⟩ |
    ⟨-, text, -, rfl⟩ | ⟨-, inp, -, ⟨raw, -, rfl⟩ | ⟨-, rfl⟩⟩ | ⟨-, raw, -, ⟨-, rfl⟩ | ⟨-, rfl⟩⟩ |
    ⟨-, raw, -, rfl⟩ | ⟨-, key, ctt, -, -, ⟨-, rfl⟩ | ⟨-, rfl⟩⟩ | ⟨-, pt, -, rfl⟩
  case inr.inr.inl.inl | inr.inr.inl.inr => exact wf_unitDerive hs
  -- The responses and the raises.
  any_goals exact wf_nil
  all_goals exact hs

/-- Settles O60: a command is accepted, read and reset with an empty work area, and in between only `DERIVE`
writes it. -/
theorem workAreaStaysCanonical : Obligations.WorkAreaStaysCanonical := by
  refine ⟨wf_nil, fun s t hs h => ?_⟩
  refine step_keeps (I := fun s => s.kdf.kmem.wf) ?unit ?host (fun _ _ => seqStep_kmem_wf) ?accept ?read ?reset hs h
  case unit => exact fun _ _ _ hs _ hi he => exec_unit_kmem_wf hi he hs
  case host => exact fun _ _ hs => hs
  case accept => exact fun _ _ _ _ => wf_nil
  case read => exact fun _ _ _ _ => wf_nil
  case reset => exact fun _ _ => wf_nil

end Sys2Proof.Proofs
end

section
/-! PROOFS. The ports (10_state.md R20; 60_exceptions.md R237, R240, R241; 70_reset_and_hazards.md R260, R261, R263):
which part of a step answers what is presented, what reset, reading and misuse do, and that an aborted command leaves
no trace. -/

namespace Sys2Proof.Proofs

open Sys2Proof Sys2Proof.Machine Sys2Proof.Laws

/-! ### The parts of a step (R20, R74, R241) -/

/-- With empty select lines the host's next move is made. -/
theorem step_of_host {s : State} {m : HostMove} {ms : List HostMove} (hu : s.uop = none) (hh : s.host = m :: ms) :
    step s = hostStep m { s with host := ms } := by
  simp only [step, hu, hh]

/-- With empty select lines and no move of the host the sequencer goes on. -/
theorem step_of_no_host {s : State} (hu : s.uop = none) (hh : s.host = []) : step s = runSeq commandSteps s := by
  simp only [step, hu, hh]

/-- What decodes is run. -/
theorem runPresented_of_ok {p : Presented} {i : Instr} (h : decode p = .ok i) (s : State) :
    runPresented p s = exec i s := by
  simp only [runPresented, h]

/-- Settles O5: the two places where an operation is presented, unit calls first. -/
theorem stepRunsThePresentedOperation : Obligations.StepRunsThePresentedOperation := by
  refine ⟨fun s u i hu hi => ?_, fun s c i ms hu hh hi => ?_⟩
  · rw [step_of_uop hu]
    exact runPresented_of_ok hi _
  · rw [step_of_host hu hh]
    exact runPresented_of_ok hi _

/-- Settles O4: the words of a table row with zero operands, decoded one by one. -/
theorem tableWordsDecodeToTheirRows : Obligations.TableWordsDecodeToTheirRows := by
  unfold Obligations.TableWordsDecodeToTheirRows
  decide

/-! ### Reset (R36, R260) -/

theorem read_nil (a : Nat) : Memory.read [] a = none := rfl

/-- Settles O7: the state after reset is that of a core at rest. -/
theorem resetStateHoldsNoValue : Obligations.ResetStateHoldsNoValue := by
  obtain ⟨hpc, hports, htransients, -⟩ := coreAtRest_resetCore State.reset
  exact ⟨hpc, hports, htransients, read_nil⟩

/-- Settles O6: the host's reset leads to a core at rest, with what surrounds the core kept. -/
theorem resetReachesTheResetStateFromAnyState : Obligations.ResetReachesTheResetStateFromAnyState := by
  intro s ms hu hh
  exact ⟨resetCore { s with host := ms }, step_of_host hu hh, coreAtRest_resetCore _, read_nil, rfl, rfl, rfl, rfl,
    rfl, rfl, rfl, rfl, rfl, rfl⟩

/-- A core at rest is the core after reset; what surrounds it may be anything (R36, R237). -/
theorem resetCore_of_coreAtRest {s : State} (h : coreAtRest s) : resetCore s = s := by
  obtain ⟨pc, mode, pw, inp, status, out, codec, aead, kdf, uop, par, rng, host, received⟩ := s
  obtain ⟨rfl, ⟨rfl, rfl, rfl, rfl, rfl⟩, ⟨rfl, rfl, rfl⟩, rfl⟩ := h
  rfl

/-! ### An idle core, a ready response, and misuse (R237, R261, R263) -/

/-- Settles O8: the sequencer takes no step at IDLE. -/
theorem idleCoreDoesNothing : Obligations.IdleCoreDoesNothing := by
  intro s hu hh hp
  rw [step_of_no_host hu hh]
  exact runSeq_rest (.inl hp) commandSteps

theorem issueCommand_busy {s : State} (hp : s.pc ≠ .idle) (c : Command) (n : Nat) :
    issueCommand c n s = .refused .busy :=
  if_pos hp

theorem readResponse_notReady {s : State} (hp : s.pc ≠ .resp) : readResponse s = .refused .responseNotReady :=
  if_neg hp

/-- Settles O9: both commands are issued, and the read is refused. -/
theorem misuseOfThePortsIsRefused : Obligations.MisuseOfThePortsIsRefused := by
  refine ⟨fun s pw inp hp => ⟨issueCommand_busy hp _ _, issueCommand_busy hp _ _⟩, fun s ms hu hh hp => ?_⟩
  rw [step_of_host hu hh]
  exact readResponse_notReady hp

/-- A ready response is read (R23, R263). -/
theorem readResponse_ready {s : State} {st : Status} {o : Bytes} (hp : s.pc = .resp) (hst : s.status = some st)
    (ho : s.out = some o) :
    readResponse s = .next { returnToIdle s with received := { status := st, out := o } :: s.received } := by
  simp only [readResponse, if_pos hp, hst, ho]

/-- Settles O10: the core that a read leaves is at rest, so it is the core after reset. -/
theorem readingTheResponseRestoresTheResetState : Obligations.ReadingTheResponseRestoresTheResetState := by
  intro s ms st o hu hh hp hst ho
  have hrest : coreAtRest (returnToIdle { s with host := ms }) := coreAtRest_returnToIdle hu
  have hread := readResponse_ready (s := { s with host := ms }) hp hst ho
  rw [← resetCore_of_coreAtRest hrest] at hread
  rw [step_of_host hu hh]
  exact hread

/-! ### The abort (R240, R260) -/

theorem need_refused {α : Type} {r : RegName} {o : Option α} {k : α → Out} {q : Refusal} :
    need r o k = .refused q ↔ ∃ x, o = some x ∧ k x = .refused q := by
  cases o <;> simp [need]

/-- A numbered step refuses nothing: what is refused is decided before the first one (R236, R238). -/
theorem seqStep_ne_refused (s : State) (r : Refusal) : seqStep s ≠ .refused r := by
  unfold seqStep
  cases s.pc
  case e1 =>
    simp only [stepE1]
    split <;> simp
  all_goals
    simp [stepE2, stepE3, stepE4, stepE5, stepD1, stepD2, stepD3, stepD4, stepD5, stepD6, need_refused]

/-- In a disciplined state the numbered steps complete (R13). -/
theorem seqStep_completes {s : State} (hs : disciplined s) : ∃ t, seqStep s = .next t := by
  cases h : seqStep s with
  | next t => exact ⟨t, rfl⟩
  | fault f => exact absurd h (seqStep_ne_fault hs)
  | refused r => exact absurd h (seqStep_ne_refused s r)

theorem runSeq_completes {n : Nat} {s : State} (hs : disciplined s) : ∃ t, runSeq n s = .next t := by
  induction n generalizing s with
  | zero => exact ⟨s, rfl⟩
  | succ n ih =>
    obtain ⟨s', h⟩ := seqStep_completes hs
    rw [runSeq_succ, h]
    exact ih (seqStep_disciplined hs h)

/-- What surrounds the core, the provider apart, is the same for both states (R9, R20). -/
def sameSurroundings (s t : State) : Prop := t.par = s.par ∧ t.host = s.host ∧ t.received = s.received

theorem seqStep_surroundings {s t : State} (h : seqStep s = .next t) : sameSurroundings s t := by
  rcases seqStep_cases h with ⟨-, rfl⟩ | ⟨-, d, g, -, rfl⟩ |
    ⟨pw, salt, -, -, ⟨-, rfl⟩ | ⟨-, rfl⟩⟩ | ⟨-, key, inp, -, -, rfl⟩ | ⟨-, salt, ctt, -, -, rfl⟩ |
    ⟨-, text, -, rfl⟩ | ⟨-, inp, -, ⟨raw, -, rfl⟩ | ⟨-, rfl⟩⟩ | ⟨-, raw, -, ⟨-, rfl⟩ | ⟨-, rfl⟩⟩ |
    ⟨-, raw, -, rfl⟩ | ⟨-, key, ctt, -, -, ⟨-, rfl⟩ | ⟨-, rfl⟩⟩ | ⟨-, pt, -, rfl⟩ <;>
    exact ⟨rfl, rfl, rfl⟩

theorem runSeq_surroundings {n : Nat} {s t : State} (h : runSeq n s = .next t) : sameSurroundings s t := by
  refine runSeq_keeps (I := sameSurroundings s) (fun s' t' hs' h' => ?_) ⟨rfl, rfl, rfl⟩ h
  obtain ⟨hpar, hhost, hreceived⟩ := hs'
  obtain ⟨hpar', hhost', hreceived'⟩ := seqStep_surroundings h'
  exact ⟨hpar'.trans hpar, hhost'.trans hhost, hreceived'.trans hreceived⟩

/-- A reset looks at nothing but what surrounds the core (R260). -/
theorem resetCore_congr {s t : State} (h : sameSurroundings s t) (hrng : t.rng = s.rng) :
    resetCore t = resetCore s := by
  obtain ⟨hpar, hhost, hreceived⟩ := h
  rw [resetCore, resetCore, hpar, hhost, hreceived, hrng]

/-- Settles O12: the run of the command keeps what surrounds the core, and the reset brings back the core at
rest. -/
theorem abortLeavesNoTrace : Obligations.AbortLeavesNoTrace := by
  intro s c n ms hrest hdom hh
  have ⟨hp, _, _, hu⟩ := hrest
  have haccept : disciplined (accept c { s with host := .reset :: ms }) := disciplined_accept c hu
  obtain ⟨t, hrun⟩ := runSeq_completes (n := n) haccept
  have hstart : step s = .next t := by
    rw [step_of_host hu hh]
    exact (issueCommand_accepts (s := { s with host := .reset :: ms }) hp hdom n).trans hrun
  have hut : t.uop = none := (runSeq_keeps (fun _ _ => seqStep_disciplined) haccept hrun).1
  obtain ⟨hpar, hhost, hreceived⟩ := runSeq_surroundings hrun
  have habort : step t = .next (resetCore { t with host := ms }) := step_of_host hut hhost
  have hcore : resetCore { t with host := ms } = resetCore { s with rng := t.rng, host := ms } :=
    resetCore_congr ⟨hpar, rfl, hreceived⟩ rfl
  have hagain : resetCore { s with rng := t.rng, host := ms } = { s with rng := t.rng, host := ms } :=
    resetCore_of_coreAtRest (s := { s with rng := t.rng, host := ms }) hrest
  exact ⟨t, hstart, habort.trans (by rw [hcore, hagain])⟩

end Sys2Proof.Proofs
end

section
/-! PROOFS. What the operations complete with and refuse: `SALTGEN` (42_codec.md R152), commands outside the admitted
domain (30_encoding.md R72), unit operations outside their contracts (40_kdf.md R90; 43_aead.md R180, R191, R192). -/

namespace Sys2Proof.Proofs

open Sys2Proof Sys2Proof.Machine Sys2Proof.Laws

/-! ### SALTGEN (R152) -/

theorem exec_saltgen_draw {s : State} {d : Bytes} {g : Provider} (hd : drawSalt s.rng = some (d, g)) :
    exec .saltgen s = .next { s with codec := { s.codec with salt := some d }, rng := g } := by
  simp only [exec, execSaltgen, unitSaltgen, hd]

theorem exec_saltgen_silent {s : State} (hd : drawSalt s.rng = none) : exec .saltgen s = .next s := by
  simp only [exec, execSaltgen, unitSaltgen, hd]

/-- Settles O13: a draw is 16 bytes, whichever provider answers it. -/
theorem saltgenTakesOneDraw : Obligations.SaltgenTakesOneDraw :=
  ⟨fun _ _ _ hd => ⟨drawSalt_length hd, exec_saltgen_draw hd⟩, fun _ => rfl, fun _ _ => rfl,
    fun _ => exec_saltgen_silent⟩

/-! ### The admitted domain (R72) -/

section
variable {c : Command} {par : Params}

theorem refusalOf_password (h : Config.maxPwLen < c.pw.length) : refusalOf c par = some .passwordTooLong :=
  if_pos h

theorem refusalOf_capacity (hpw : c.pw.length ≤ Config.maxPwLen) (h : par.capIn < c.inp.length) :
    refusalOf c par = some .overCapacity := by
  rw [refusalOf, if_neg (not_lt.2 hpw), if_pos h]

theorem refusalOf_plaintext (hpw : c.pw.length ≤ Config.maxPwLen) (hinp : c.inp.length ≤ par.capIn)
    (hmode : c.mode = 0#1) (h : Config.maxPtLen < c.inp.length) : refusalOf c par = some .dataTooLong := by
  rw [refusalOf, if_neg (not_lt.2 hpw), if_neg (not_lt.2 hinp), if_pos hmode, if_pos h]

theorem refusalOf_container {raw : Bytes} (hpw : c.pw.length ≤ Config.maxPwLen) (hinp : c.inp.length ≤ par.capIn)
    (hmode : c.mode ≠ 0#1) (hraw : b64dec par.trailing c.inp = some raw)
    (h : Config.maxPtLen + Config.minRawLen < raw.length) : refusalOf c par = some .dataTooLong := by
  rw [refusalOf, if_neg (not_lt.2 hpw), if_neg (not_lt.2 hinp), if_neg hmode, hraw]
  exact if_pos (by omega)

/-- What is refused before the first step is refused (R236, R238). -/
theorem issueCommand_refused {s : State} {r : Refusal} (hp : s.pc = .idle) (h : refusalOf c s.par = some r)
    (n : Nat) : issueCommand c n s = .refused r := by
  rw [issueCommand, if_neg (not_not.2 hp), h]

end

/-- Settles O46, limit by limit. -/
theorem commandsOutsideTheDomainAreRefused : Obligations.CommandsOutsideTheDomainAreRefused := by
  intro s pw inp hp
  have hmode : (1#1 : BitVec 1) ≠ 0#1 := by decide
  refine ⟨fun hpw => ⟨?_, ?_⟩, fun hpw hcap => ⟨?_, ?_⟩, fun hpw hinp hpt => ?_, fun raw hpw hinp hraw hlen => ?_⟩
  · exact issueCommand_refused hp (refusalOf_password hpw) _
  · exact issueCommand_refused hp (refusalOf_password hpw) _
  · exact issueCommand_refused hp (refusalOf_capacity hpw hcap) _
  · exact issueCommand_refused hp (refusalOf_capacity hpw hcap) _
  · exact issueCommand_refused hp (refusalOf_plaintext hpw hinp rfl hpt) _
  · exact issueCommand_refused hp (refusalOf_container hpw hinp hmode hraw hlen) _

/-! ### The contracts of the units (R90, R180, R191, R192) -/

/-- Settles O47: the lengths that each unit checks, in its order. -/
theorem unitCallsOutsideTheirContractAreRefused : Obligations.UnitCallsOutsideTheirContractAreRefused := by
  intro s pw salt key pt ctt
  simp only [exec, execDerive, execSeal, execOpen]
  refine ⟨fun hpw => if_pos hpw, fun hpw hsalt => ?_, fun hkey => if_pos hkey, fun hkey hpt => ?_,
    fun hshape => if_pos hshape, fun hkey hctt => ?_⟩
  · rw [if_neg (not_lt.2 hpw), if_pos hsalt]
  · rw [if_neg (not_not.2 hkey), if_pos hpt]
  · have htag : Config.maxPtLen + Config.tagLen < ctt.length := hctt
    have hshape : ¬ (key.length ≠ Config.keyLen ∨ ctt.length < Config.tagLen) :=
      not_or.2 ⟨not_not.2 hkey, by omega⟩
    rw [if_neg hshape, if_pos (by omega)]

end Sys2Proof.Proofs
end

section
/-! PROOFS. The lanes of the key derivation (40_kdf.md R98, R107): in one slice the segment of a lane writes its own
blocks only and reads no block that another lane writes there, so that in any order of the lanes each segment comes out
as it would from the registers at the start of the slice. -/

namespace Sys2Proof.Proofs

open Sys2Proof Sys2Proof.Machine Sys2Proof.Laws
open Sys2Proof.Config (kdfProfile)

/-! ### The bytes of a segment (R96, R98) -/

/-- The byte at `a` lies in the segment of lane `l` in slice `s`. -/
def inSegment (s l a : Nat) : Prop :=
  ∃ i < 16384, a / 1024 = blockIndex kdfProfile l (s * segmentLen kdfProfile + i)

/-- The lanes' segments of a slice are disjoint. -/
theorem inSegment_unique {s l l' a : Nat} (h : inSegment s l a) (h' : inSegment s l' a) : l = l' := by
  obtain ⟨i, hi, ha⟩ := h
  obtain ⟨i', hi', ha'⟩ := h'
  rw [blockIndex, columns_core, segmentLen_core] at ha ha'
  omega

/-- The byte at `a` is none that another lane writes while lane `l` fills its segment of slice `s` (R62). -/
def seenBy (s l a : Nat) : Prop := ∀ l', inSegment s l' a → l' = l

theorem seenBy_of_inSegment {s l a : Nat} (h : inSegment s l a) : seenBy s l a :=
  fun _ h' => inSegment_unique h' h

/-- Lane `l` sees the same bytes in both memories. -/
def seenAlike (s l : Nat) (m n : Memory) : Prop := ∀ a, seenBy s l a → m.read a = n.read a

/-- A block that may be referred to is seen: in another lane it lies outside the current slice (R103). -/
theorem seenBy_of_filledBefore {r s l i rl z a : Nat} (hs : s < 4) (h : filledBefore kdfProfile r s l i rl z)
    (ha : a / 1024 = blockIndex kdfProfile rl z) : seenBy s l a := by
  rintro l' ⟨i', hi', ha'⟩
  obtain ⟨hz, -, hother⟩ := h
  rw [blockIndex, columns_core, segmentLen_core] at *
  by_cases hl : rl = l <;> omega

section
variable {r s l i : Nat} {k k' : KdfRegs}

theorem getB_eq_of_filledBefore {rl z : Nat} (hs : s < 4) (hk : seenAlike s l k.kmem k'.kmem)
    (h : filledBefore kdfProfile r s l i rl z) : getB kdfProfile k rl z = getB kdfProfile k' rl z :=
  readBlock_congr fun a ha => hk a (seenBy_of_filledBefore hs h ha)

/-- The block to be written is seen. -/
theorem getB_eq_own (hi : i < 16384) (hk : seenAlike s l k.kmem k'.kmem) :
    getB kdfProfile k l (s * segmentLen kdfProfile + i) = getB kdfProfile k' l (s * segmentLen kdfProfile + i) :=
  readBlock_congr fun a ha => hk a (seenBy_of_inSegment ⟨i, hi, ha⟩)

/-! ### A segment is a function of the bytes its lane sees (R99 to R105) -/

theorem referenceWord_seenAlike (hs : s < 4) (hfirst : firstIndex r s ≤ i) (hi : i < 16384)
    (hk : seenAlike s l k.kmem k'.kmem) (ha : addressesAlike r s i k k') :
    referenceWord kdfProfile r s l i k = referenceWord kdfProfile r s l i k' := by
  unfold referenceWord
  split
  next hind => rw [(withAddresses_alike hfirst ha hind).2]
  next => rw [getB_eq_of_filledBefore hs hk (filledBefore_previousColumn hs hfirst hi)]

theorem newBlock_seenAlike (hr : r < 8) (hs : s < 4) (hl : l < 4) (hfirst : firstIndex r s ≤ i) (hi : i < 16384)
    (hk : seenAlike s l k.kmem k'.kmem) (ha : addressesAlike r s i k k') :
    newBlock kdfProfile r s l i k = newBlock kdfProfile r s l i k' := by
  have hprev := getB_eq_of_filledBefore hs hk (filledBefore_previousColumn (r := r) hs hfirst hi)
  have href (pr : Word64) := getB_eq_of_filledBefore hs hk (filledBefore_referenced hr hs hl hfirst hi pr)
  simp only [newBlock, referenceWord_seenAlike hs hfirst hi hk ha, hprev, href, getB_eq_own hi hk]

/-- The same block stored in both memories leaves the lane's bytes alike. -/
theorem seenAlike_writeBlock {m n : Memory} {b : Nat} {ws : List Word64} (hw : ws.length = 128)
    (h : seenAlike s l m n) : seenAlike s l (writeBlock m b ws) (writeBlock n b ws) := by
  intro a ha
  rw [read_writeBlock m b a ws hw, read_writeBlock n b a ws hw, h a ha]

theorem fillBlock_seenAlike (hr : r < 8) (hs : s < 4) (hl : l < 4) (hfirst : firstIndex r s ≤ i) (hi : i < 16384)
    (hk : seenAlike s l k.kmem k'.kmem) (ha : addressesAlike r s i k k') :
    seenAlike s l (fillBlock kdfProfile r s l k i).kmem (fillBlock kdfProfile r s l k' i).kmem ∧
      addressesAlike r s (i + 1) (fillBlock kdfProfile r s l k i) (fillBlock kdfProfile r s l k' i) := by
  rw [fillBlock_eq_newBlock, fillBlock_eq_newBlock, newBlock_seenAlike hr hs hl hfirst hi hk ha]
  refine ⟨seenAlike_writeBlock (newBlock_length ..) hk, fun hind => ?_⟩
  obtain ⟨hz, haddr⟩ := withAddresses_alike hfirst ha hind
  exact ⟨hz, fun _ => haddr⟩

theorem fillSegment_seenAlike (hr : r < 8) (hs : s < 4) (hl : l < 4) (hk : seenAlike s l k.kmem k'.kmem) :
    seenAlike s l (fillSegment kdfProfile r s k l).kmem (fillSegment kdfProfile r s k' l).kmem := by
  have hend := foldl_range'_pair (f := fillBlock kdfProfile r s l) (n := segmentLen kdfProfile - firstIndex r s)
    (R := fun i k k' => seenAlike s l k.kmem k'.kmem ∧ addressesAlike r s i k k')
    (a := segmentStart kdfProfile r s l k) (b := segmentStart kdfProfile r s l k')
    ⟨hk, addressesAlike_segmentStart⟩ fun i k k' hfirst hi h => by
      have hle := firstIndex_le r s
      rw [segmentLen_core] at hi
      exact fillBlock_seenAlike hr hs hl hfirst (by omega) h.1 h.2
  exact hend.1

/-! ### A slice in any order of the lanes (R107) -/

/-- A segment writes its own bytes only. -/
theorem read_fillSegment_outside {a : Nat} (h : ¬ inSegment s l a) :
    (fillSegment kdfProfile r s k l).kmem.read a = k.kmem.read a := by
  refine fillSegment_keeps (P := fun k' => k'.kmem.read a = k.kmem.read a) rfl fun k' i _ hi hk' => ?_
  obtain ⟨ws, hws, he⟩ := fillBlock_eq kdfProfile r s l k' i
  rw [he]
  exact (read_writeBlock_outside _ _ a ws hws fun ha => h ⟨i, hi, ha⟩).trans hk'

/-- A slice writes the bytes of its lanes' segments only. -/
theorem read_fillSlice_outside {order : List Nat} {a : Nat} (h : ∀ l ∈ order, ¬ inSegment s l a) :
    (fillSlice kdfProfile order r k s).kmem.read a = k.kmem.read a :=
  foldl_keeps (P := fun k' : KdfRegs => k'.kmem.read a = k.kmem.read a)
    (fun _ l hl hk' => (read_fillSegment_outside (h l hl)).trans hk') rfl

/-- In whatever order a slice takes its lanes, each segment comes out as from the registers at its start. -/
theorem read_fillSlice_inSegment {order : List Nat} {a : Nat} (hr : r < 8) (hs : s < 4) (hl : l < 4)
    (hnodup : order.Nodup) (hmem : l ∈ order) (ha : inSegment s l a) :
    (fillSlice kdfProfile order r k s).kmem.read a = (fillSegment kdfProfile r s k l).kmem.read a := by
  induction order generalizing k with
  | nil => simp at hmem
  | cons l₀ order ih =>
    obtain ⟨hnotin, hnodup⟩ := List.nodup_cons.1 hnodup
    rcases List.mem_cons.1 hmem with rfl | hmem
    · exact read_fillSlice_outside (k := fillSegment kdfProfile r s k l) fun l' hl' ha' =>
        hnotin (inSegment_unique ha ha' ▸ hl')
    · have hne : l₀ ≠ l := fun he => hnotin (he ▸ hmem)
      have hstart : seenAlike s l (fillSegment kdfProfile r s k l₀).kmem k.kmem :=
        fun b hb => read_fillSegment_outside fun hb' => hne (hb l₀ hb')
      exact (ih hnodup hmem).trans (fillSegment_seenAlike hr hs hl hstart a (seenBy_of_inSegment ha))

end

/-- Both memories hold the same value, or none, at every address. -/
def readAlike (k k' : KdfRegs) : Prop := ∀ a, k.kmem.read a = k'.kmem.read a

/-- Two orders of the same lanes fill a slice alike. -/
theorem fillSlice_perm {order order' : List Nat} {r s : Nat} {k k' : KdfRegs} (hr : r < 8) (hs : s < 4)
    (hlt : ∀ l ∈ order, l < 4) (hnodup : order.Nodup) (hperm : order.Perm order') (hk : readAlike k k') :
    readAlike (fillSlice kdfProfile order r k s) (fillSlice kdfProfile order' r k' s) := by
  intro a
  by_cases h : ∃ l ∈ order, inSegment s l a
  · obtain ⟨l, hl, ha⟩ := h
    rw [read_fillSlice_inSegment hr hs (hlt l hl) hnodup hl ha,
      read_fillSlice_inSegment hr hs (hlt l hl) (hperm.nodup_iff.1 hnodup) (hperm.mem_iff.1 hl) ha]
    exact fillSegment_seenAlike hr hs (hlt l hl) (fun b _ => hk b) a (seenBy_of_inSegment ha)
  · have hnone : ∀ l ∈ order, ¬ inSegment s l a := fun l hl ha => h ⟨l, hl, ha⟩
    rw [read_fillSlice_outside hnone, read_fillSlice_outside fun l hl => hnone l (hperm.mem_iff.2 hl)]
    exact hk a

/-- All passes, each slice of the two runs with its own order of the four lanes. -/
theorem fillInOrder_perm {order order' : Nat → Nat → List Nat} {k k' : KdfRegs}
    (hlt : ∀ r s, ∀ l ∈ order r s, l < 4) (hnodup : ∀ r s, (order r s).Nodup)
    (hperm : ∀ r s, (order r s).Perm (order' r s)) (hk : readAlike k k') :
    readAlike (fillInOrder kdfProfile order k) (fillInOrder kdfProfile order' k') :=
  List.foldl_rel hk fun r hr _ _ hk => List.foldl_rel hk fun s hs _ _ hk =>
    fillSlice_perm (List.mem_range.1 hr) (List.mem_range.1 hs) (hlt r s) (hnodup r s) (hperm r s) hk

/-- Settles O17: the first columns are filled before the lanes run, and each slice comes out alike. -/
theorem laneScheduleDoesNotMatter : Obligations.LaneScheduleDoesNotMatter := by
  intro order hperm pw salt k
  have hfixed (r s : Nat) : (laneOrder kdfProfile r s).Perm (order r s) := (hperm r s).symm
  have hnodup (r s : Nat) : (laneOrder kdfProfile r s).Nodup := List.nodup_range
  exact fun a => (fillInOrder_perm laneOrder_lt hnodup hfixed (fun _ => rfl) a).symm

end Sys2Proof.Proofs
end
